-- ==== Sys2Proof/Word.lean ====
section
/-! DEFINITION. Widths and names every other file uses: bytes, 6-bit addresses, command words, line levels, the five lines and
the five delay names. -/

namespace Sys2Proof

/-- Eight bits, the one access width of the block (R65). -/
abbrev Byte := BitVec 8

/-- A 6-bit transceiver address or strobe code (`ADDR_BITS`, R6, R48). -/
abbrev Addr := BitVec 6

/-- A 24-bit command word `{OP, A, N}` (R94). -/
abbrev CmdWord := BitVec 24

/-- A line level: `false` is 0 (low), `true` is 1 (high) (R10). -/
abbrev Level := Bool

/-- The lines the block drives (R21). -/
inductive DrivenLine where
  | clock
  | dataOut
  | chipSelect
deriving DecidableEq, Repr

/-- The lines the block senses (R22). -/
inductive SensedLine where
  | dataIn
  | done
deriving DecidableEq, Repr

/-- The five delays, names without a duration (R7, R15, R123). -/
inductive DelayName where
  | settle   -- `T_SETTLE`
  | sample   -- `T_SAMPLE`
  | hold     -- `T_HOLD`
  | rstA     -- `T_RST_A`
  | rstB     -- `T_RST_B`
deriving DecidableEq, Repr

end Sys2Proof
end

