-- ==== Sys2Proof/Config.lean ====
section
/-! DEFINITION. The constants the spec fixes (R6), the configuration a machine is given (R7, R44 to R47), the free values of the
model, and the reference configuration RC1 the reset state carries. -/

namespace Sys2Proof

/-- `FLAG_READ`, bit 7 of the control byte (R6, R90). -/
def flagRead : Byte := 0x80#8
/-- `FLAG_BURST`, bit 6 of the control byte (R6, R90). -/
def flagBurst : Byte := 0x40#8
/-- The byte sent to clock a read byte in (`DUMMY`, R6). -/
def dummy : Byte := 0x00#8
/-- The largest payload SEND accepts (`MAX_PKT`, R6). -/
def maxPkt : Byte := 61#8
/-- Status bytes after a received payload (`N_TRAILER`, R6). -/
def nTrailer : Byte := 2#8
/-- Calibration registers written first by CONFIGURE (`N_PRE`, R6). -/
def nPre : Nat := 2
/-- Frequency registers of a band (`N_FREQ`, R6). -/
def nFreq : Nat := 3
/-- Bands (`N_BANDS`, R6). -/
def nBands : Nat := 3
/-- Bytes of the power-amplitude table (`N_PATABLE`, R6). -/
def nPaTable : Byte := 8#8
/-- Shared registers CONFIGURE writes (`N_SHARED`, R6, C5). -/
def nShared : Nat := 24

/-- One entry of `BAND_TABLE`: discriminant and frequency writes (R46). -/
structure Band where
  id   : Byte
  freq : List (Addr × Byte)
deriving DecidableEq, Repr

/-- The parameters the source names by role and gives no value (R7). Codes and addresses have 6 bits by type; what R8 asks
beyond that is `Config.wellFormed`. -/
structure Config where
  cmdSres : Addr
  cmdSfrx : Addr
  cmdSftx : Addr
  cmdSrx : Addr
  cmdStx : Addr
  addrTxFifo : Addr
  addrRxFifo : Addr
  addrPaTable : Addr
  addrRxBytes : Addr
  /-- `STATUS_MODE_FLAGS`, 0x80 or 0xC0 (R7, R91, C4, D10). -/
  statusModeFlags : Byte
  /-- `RXBYTES_MASK`, not 0 (R7, D11). -/
  rxBytesMask : Byte
  cfgPre : List (Addr × Byte)
  bandTable : List Band
  cfgPost : List (Addr × Byte)
  paTable : List Byte
  /-- `POLL_BOUND`: none (unbounded waits, the default) or a count of samples (R7, R124). -/
  pollBound : Option Nat
deriving DecidableEq, Repr

/-- FREE VALUE (log entry 2): the level the environment presents at a sample for which State holds no scripted level, by line
and by the counter `draws`. "A model gives the environment no law: any `readLine` may return 0 or 1" (R22). -/
opaque Config.envLevel : SensedLine → Nat → Level

/-- FREE VALUE (log entry 9): what a host read returns where the spec says the value is unspecified (R37, R39, R76, V2, V6). -/
opaque Config.freeWord : Nat → CmdWord

/-- FREE VALUE (log entry 7): which of the bytes that `HB[k]` has held during the operation a `MemRead` sees, where the host has
written it during the operation: "either the old or the new byte" (R82, V5). -/
opaque Config.freeChoice : Nat → Nat

/-- FREE VALUE (log entry 7): the old byte in that choice, where `HB[k]` held no value before the host's write (R237). -/
opaque Config.freeByte : Nat → Byte

/-- The durations of the five delays, opaque: "a model gives it no duration" (R7, R15, R123). No rule reads one (log entry 17). -/
opaque Config.duration : DelayName → Nat

/-- The reference configuration RC1 of 95_test_vectors.md section 0: the configuration `State.reset` carries (log entry 3).
PRESUMED for the codes and addresses (the CC1101 family, G1, G2, G4, G6, G7), DESIGN CHOICE for the table values. Nothing in the
machine's meaning names it: every rule reads the field `cfg` of State. -/
def Config.reference : Config where
  cmdSres := 0x30#6
  cmdSfrx := 0x3A#6
  cmdSftx := 0x3B#6
  cmdSrx := 0x34#6
  cmdStx := 0x35#6
  addrTxFifo := 0x3F#6
  addrRxFifo := 0x3F#6
  addrPaTable := 0x3E#6
  addrRxBytes := 0x3B#6
  statusModeFlags := 0xC0#8
  rxBytesMask := 0x7F#8
  cfgPre := [(0x0B#6, 0x06#8), (0x0C#6, 0x00#8)]
  bandTable :=
    [ ⟨0#8, [(0x0D#6, 0x10#8), (0x0E#6, 0xA7#8), (0x0F#6, 0x62#8)]⟩,
      ⟨1#8, [(0x0D#6, 0x21#8), (0x0E#6, 0x62#8), (0x0F#6, 0x76#8)]⟩,
      ⟨2#8, [(0x0D#6, 0x23#8), (0x0E#6, 0x31#8), (0x0F#6, 0x3B#8)]⟩ ]
  cfgPost := (List.range 11 ++ (List.range 11).map (· + 0x10)).map
    fun a => (BitVec.ofNat 6 a, BitVec.ofNat 8 a ^^^ 0x5A#8)
  paTable := [0xC0#8, 0#8, 0#8, 0#8, 0#8, 0#8, 0#8, 0#8]
  pollBound := none

end Sys2Proof
end

