-- ==== Sys2Proof/Syntax.lean ====
section
/-! DEFINITION. The thirteen operations (R4, R95, R102), one constructor per row of spec/opcode_table.json. Each constructor carries
both operand fields `A` and `N` of the command word, the ignored ones too: any value of an ignored field is accepted (R95, D4)
and `CMD` latches all 24 bits (R37). -/

namespace Sys2Proof

/-- A command of the block. The first byte is the `A` field, the second the `N` field; a name `x…` marks an ignored field. -/
inductive Instr where
  /-- `transfer(outByte) -> inByte` (R128). -/
  | xfer (outByte xn : Byte)
  /-- `writeRegister(addr, value)` (R145). -/
  | wreg (addr value : Byte)
  /-- `readRegister(addr) -> value` (R146). -/
  | rreg (addr xn : Byte)
  /-- `writeBurst(addr, bytes[N])`, data `HB[0..N)` (R147). -/
  | wburst (addr count : Byte)
  /-- `readBurst(addr, N) -> bytes[N]`, result `HB[0..N)` (R148). -/
  | rburst (addr count : Byte)
  /-- `strobe(command)` (R149). -/
  | strobe (command xn : Byte)
  /-- `readStatus(addr) -> value` (R150). -/
  | rstat (addr xn : Byte)
  /-- `Reset()`: resets the transceiver, not the block (R160, R161). -/
  | reset (xa xn : Byte)
  /-- `Configure(bandProfile)` (R165). -/
  | configure (band xn : Byte)
  /-- `Send(buffer, length)`, data `HB[0..length)` (R177). -/
  | send (xa length : Byte)
  /-- `SetReceive()` (R181). -/
  | setrx (xa xn : Byte)
  /-- `CheckReceiveFlag() -> bool` (R183). -/
  | chkrx (xa xn : Byte)
  /-- `ReceiveData(buffer) -> byteCount` (R186). -/
  | recv (xa xn : Byte)
deriving DecidableEq, Repr

end Sys2Proof
end

