-- ==== Sys2Proof/WellFormed.lean ====
section
/-! DEFINITION. What a well-formed command and a well-formed configuration are. An ill-formed command is no error of the model: it
is accepted and completes with the code its rule names (R104, R105). An ill-formed configuration is refused before any run
(R8, V9). -/

namespace Sys2Proof

/-- The command passes the operand check of its operation: bits 7:6 of an address or strobe code are 0 (R104); the length of a
SEND is at most `MAX_PKT` (R105). The other operations check nothing (R95). -/
def Instr.wellFormed : Instr → Bool
  | .wreg a _ | .rreg a _ | .wburst a _ | .rburst a _ | .strobe a _ | .rstat a _ => a.toNat < 64
  | .send _ n => n.toNat ≤ maxPkt.toNat
  | .xfer _ _ | .reset _ _ | .configure _ _ | .setrx _ _ | .chkrx _ _ | .recv _ _ => true

/-- `len(CFG_PRE) = N_PRE` (R8). -/
def Config.preLengthOk (c : Config) : Bool := c.cfgPre.length == nPre

/-- `len(CFG_PRE) + len(CFG_POST) = N_SHARED` (R8, C5). -/
def Config.sharedLengthOk (c : Config) : Bool := c.cfgPre.length + c.cfgPost.length == nShared

/-- `len(PA_TABLE) = N_PATABLE` (R8). -/
def Config.paLengthOk (c : Config) : Bool := c.paTable.length == nPaTable.toNat

/-- There are `N_BANDS` band entries, each with exactly `N_FREQ` pairs (R7, R8). -/
def Config.bandShapeOk (c : Config) : Bool :=
  c.bandTable.length == nBands && c.bandTable.all (·.freq.length == nFreq)

/-- The band entries have pairwise distinct discriminants (R8). -/
def Config.bandIdsOk (c : Config) : Bool := decide ((c.bandTable.map (·.id)).Nodup)

/-- The addresses of `CFG_PRE`, of one band and of `CFG_POST`, taken together, are pairwise distinct, for each band (R8, C11). -/
def Config.addressesOk (c : Config) : Bool :=
  c.bandTable.all fun b => decide (((c.cfgPre ++ b.freq ++ c.cfgPost).map (·.1)).Nodup)

/-- `STATUS_MODE_FLAGS` is 0x80 or 0xC0 (R8). -/
def Config.statusFlagsOk (c : Config) : Bool := c.statusModeFlags == 0x80#8 || c.statusModeFlags == 0xC0#8

/-- `RXBYTES_MASK` is not 0 (R8). -/
def Config.maskOk (c : Config) : Bool := c.rxBytesMask != 0#8

/-- `POLL_BOUND` is none or at least 1 (R8). -/
def Config.boundOk (c : Config) : Bool := c.pollBound.all (1 ≤ ·)

/-- A well-formed configuration (R8). That every code and address is below 64 holds by their type `Addr`. -/
def Config.wellFormed (c : Config) : Bool :=
  c.preLengthOk && c.sharedLengthOk && c.paLengthOk && c.bandShapeOk && c.bandIdsOk && c.addressesOk &&
    c.statusFlagsOk && c.maskOk && c.boundOk

end Sys2Proof
end

