-- ==== Sys2Proof/Decode.lean ====
section
/-! DEFINITION. The command word (R94): the decoder, total on every 24-bit word, which rejects the 243 unassigned `OP` values by
name (R103), and the encoder written from the same table (R102). A command word has no byte order (R63). -/

namespace Sys2Proof

/-- Why a word is no command. -/
inductive DecodeError where
  /-- `OP` is none of the thirteen of R102; the block completes such a command with `ILLEGAL_OP` (R103). -/
  | illegalOp (op : Byte)
deriving DecidableEq, Repr

/-- `OP = CMD[23:16]` (R37, R94). -/
def opField (w : CmdWord) : Byte := w.extractLsb' 16 8
/-- `A = CMD[15:8]` (R37, R94). -/
def aField (w : CmdWord) : Byte := w.extractLsb' 8 8
/-- `N = CMD[7:0]` (R37, R94). -/
def nField (w : CmdWord) : Byte := w.extractLsb' 0 8

/-- The command a word stands for: `OP` looked up in the opcode map (R102, R107). -/
def decode (w : CmdWord) : Except DecodeError Instr :=
  let a := aField w
  let n := nField w
  match (opField w).toNat with
  | 0x00 => .ok (.xfer a n)
  | 0x10 => .ok (.wreg a n)
  | 0x11 => .ok (.rreg a n)
  | 0x12 => .ok (.wburst a n)
  | 0x13 => .ok (.rburst a n)
  | 0x14 => .ok (.strobe a n)
  | 0x15 => .ok (.rstat a n)
  | 0x20 => .ok (.reset a n)
  | 0x21 => .ok (.configure a n)
  | 0x30 => .ok (.send a n)
  | 0x31 => .ok (.setrx a n)
  | 0x32 => .ok (.chkrx a n)
  | 0x33 => .ok (.recv a n)
  | _ => .error (.illegalOp (opField w))

/-- The `OP` value of a command (R102). -/
def opcode : Instr → Byte
  | .xfer _ _ => 0x00#8
  | .wreg _ _ => 0x10#8
  | .rreg _ _ => 0x11#8
  | .wburst _ _ => 0x12#8
  | .rburst _ _ => 0x13#8
  | .strobe _ _ => 0x14#8
  | .rstat _ _ => 0x15#8
  | .reset _ _ => 0x20#8
  | .configure _ _ => 0x21#8
  | .send _ _ => 0x30#8
  | .setrx _ _ => 0x31#8
  | .chkrx _ _ => 0x32#8
  | .recv _ _ => 0x33#8

/-- The `A` and `N` fields of a command (R95). -/
def operands : Instr → Byte × Byte
  | .xfer a n | .wreg a n | .rreg a n | .wburst a n | .rburst a n | .strobe a n | .rstat a n | .reset a n
  | .configure a n | .send a n | .setrx a n | .chkrx a n | .recv a n => (a, n)

/-- `{OP, A, N}`, the word of a command (R94, R109). -/
def encode (i : Instr) : CmdWord := (opcode i ++ (operands i).1 ++ (operands i).2 : BitVec (8 + 8 + 8))

/-- The command the decoder reads from a word of `nbits` bits given as the opcode table numbers them; bits above `nbits` are 0.
A word longer than 24 bits is no command (R94, R107). -/
def decodeTableWord (nbits w : Nat) : Option Instr :=
  if nbits ≤ 24 then (decode (BitVec.ofNat 24 (w % 2 ^ nbits))).toOption else none

end Sys2Proof
end

