-- ==== Sys2Proof/Machine/Micro.lean ====
section
/-! DEFINITION. The types the machine is made of beside the command words: operation state, completion codes, trace events, the
primitive actions and choices a sequencer position is made of, the host's moves and the turns. Types only. -/

namespace Sys2Proof.Machine

/-- `OPSTATE` (R34). -/
inductive OpState where
  | idle
  | configuring
  | sending
  | receiving
deriving DecidableEq, Repr

/-- `STATUS`, the completion codes (R35, R200). Values 5 to 7 are never produced (V10). -/
inductive Status where
  | ok
  | timeout
  | illegalOp
  | badAddr
  | lenReject
deriving DecidableEq, Repr

/-- The events of `TRACE`, one per primitive action (R12). -/
inductive Event where
  | set (l : DrivenLine) (v : Level)
  | read (l : SensedLine) (b : Level)
  | delay (d : DelayName)
  | bufRd (i v : Byte)
  | bufWr (i v : Byte)
  | complete (s : Status) (r : Option Byte)
deriving DecidableEq, Repr

/-- Where a byte to send comes from. -/
inductive ByteSrc where
  | hdr               -- the control byte in `HDR`
  | txb               -- the byte a `MemRead` has put into `TXB`
  | len               -- the length in `LEN`
  | imm (b : Byte)    -- a byte of the command word, of a table, or the dummy
deriving DecidableEq, Repr

/-- Where the count of a burst comes from (R29). -/
inductive CountSrc where
  | imm (n : Byte)
  | len
deriving DecidableEq, Repr

/-- What `complete` writes to `RESULT` (R12, R38). -/
inductive ResultSrc where
  | unchanged
  | rxb
  | len
  | imm (b : Byte)
deriving DecidableEq, Repr

/-- Register transfers: writes of working registers that accompany an action; they are no action and leave no event. -/
inductive Transfer where
  | setOpState (o : OpState)           -- `OPSTATE <- o`
  | loadHdr (a : Addr) (flags : Byte)  -- `HDR <- zext_8(a) | flags`
  | loadCount (c : CountSrc)           -- `CNT <- n`, `IDX <- 0`
  | nextIndex                          -- `IDX <- IDX + 1`
  | loadTx (src : ByteSrc)             -- `TXB <- out`, `BITCNT <- 7`
  | nextBit                            -- `BITCNT <- BITCNT - 1`
  | startPoll                          -- `POLLCNT <- 0`
  | lenFrom (n : Byte)                 -- `LEN <- N`
  | lenFromRxb                         -- `LEN <-` the byte read
  | rxcFromRxb                         -- `RXC <-` the byte read
  | drainFromRxb                       -- `DRAIN <-` the byte read
  | startTable                         -- `TBLIDX <- 0`
  | nextEntry                          -- `TBLIDX <- TBLIDX + 1`
  | selectBand (discriminant : Byte)   -- `BANDSEL <-` the matching entry or none
deriving DecidableEq, Repr

/-- The primitive actions (R12, R120), each one step and one event. -/
inductive Act where
  | setLine (l : DrivenLine) (v : Level)
  | driveBit                                 -- `setLine(DATA_OUT, TXB[BITCNT])`
  | sampleBit                                -- `b <- readLine(DATA_IN)`, `RXB[BITCNT] <- b`
  | delay (d : DelayName)
  | waitLine (l : SensedLine) (v : Level)    -- one sample of the polling wait (R124)
  | testDone                                 -- CHKRX's single read of `DONE` and its choice (R183)
  | memRead                                  -- `TXB <- MemRead(IDX, 1)`
  | memWrite                                 -- `MemWrite(IDX, 1, RXB)`
  | complete (s : Status) (r : ResultSrc)
deriving DecidableEq, Repr

/-- The bursts, by where the bytes come from or go to (R147, R148). -/
inductive Burst where
  | outHb
  | outPa
  | inHb
  | inDrain
deriving DecidableEq, Repr

/-- The configuration tables CONFIGURE walks (R165). -/
inductive Table where
  | pre
  | band
  | post
deriving DecidableEq, Repr

/-- The choices between actions (R192): the ends of the counted loops, and RECV's count test. -/
inductive Branch where
  | moreBits            -- another bit of `xfer` (R126)?
  | burst (k : Burst)   -- another byte of the burst (R147, R148)?
  | table (t : Table)   -- another entry of the table (R165)?
  | received            -- RECV's count test (R186)
deriving DecidableEq, Repr

/-- One place of the sequencer: an action, or a choice that puts further places in front of the rest. Each first makes the
register transfers listed with it. -/
inductive Micro where
  | act (pre : List Transfer) (a : Act)
  | branch (pre : List Transfer) (b : Branch)
deriving DecidableEq, Repr

/-- The places of an operation from its present point on. An operation ends with its first completion: places behind that are not
performed, and stand there only behind an abort (R204), where they keep the point at which it was made (R32; log entry 8). -/
abbrev Program := List Micro

/-- The moves of the host (R14): writes and reads of host registers by number (R37 to R39, R50) and of bytes of `HB` (R49, R76). -/
inductive HostMove where
  | writeReg (number : Nat) (w : CmdWord)
  | readReg (number : Nat)
  | writeHb (i v : Byte)
  | readHb (i : Byte)
deriving DecidableEq, Repr

/-- Whose turn a step is: the host's, or the controller's for a number of primitive actions (log entry 1). -/
inductive Turn where
  | host
  | controller (actions : Nat)
deriving DecidableEq, Repr

end Sys2Proof.Machine
end

