-- ==== Sys2Proof/Machine/State.lean ====
section
/-! DEFINITION. The state of the machine as plain data, its value after power-on reset, and the reasons a step can stop. -/

namespace Sys2Proof.Machine

/-- The host buffer `HB` (R49): the bytes that hold a value, addresses strictly rising and below 256. An unlisted byte holds no
value ("bytes never written by the host hold no defined value", R237; log entry 5). -/
abbrev Memory := List Host.Cell

/-- The state: the CORE's (R20), `HB`, `TRACE`, the configuration, and the model's own fields for the environment, the host and
the order of their turns. -/
structure State where
  -- driven lines (R21)
  clock : Level
  dataOut : Level
  chipSelect : Level
  -- working registers (R25 to R31)
  txb : Byte
  rxb : Byte
  bitcnt : BitVec 3
  hdr : Byte
  cnt : Byte
  idx : Byte
  len : Byte
  rxc : Byte
  drain : Byte
  pollcnt : Nat
  tblidx : Nat
  bandsel : Option (Fin 3)
  -- sequencer position (R32)
  seq : Program
  -- flags and host-visible registers (R33 to R38)
  busy : Bool
  opstate : OpState
  status : Status
  result : Byte
  cmd : CmdWord
  -- host buffer (R49) and trace (R54)
  hb : Memory
  trace : List Event
  -- the configuration the machine is given (R7, R44), never written
  cfg : Config
  -- the model's own: the environment's coming levels and the counter of the free values (log entries 2, 9)
  dataIn : List Level
  done : List Level
  draws : Nat
  -- the model's own: the host's coming moves and what its last read returned (log entries 9, 13)
  host : List HostMove
  hostData : CmdWord
  -- the model's own: what `HB` held, none for no value, at the indexes the host has written since the command (log entry 7)
  stale : List (Nat × Option Byte)
  -- the model's own: who moves in the coming steps (log entry 1)
  turns : List Turn
deriving DecidableEq, Repr

/-- Why the machine stops with a fault. The block itself has no trap: its faults are completions (R210). -/
inductive Fault where
  /-- Raised by the controller when `BUSY = 1` and nothing stands at `SEQ`: no rule gives the block a move. No state reached from
  reset is so (`Inv`). Safe: the model stops where the spec says nothing (log entry 15). -/
  | sequencerLost
deriving DecidableEq, Repr

/-- What the model gives no meaning, each under the name of its case. -/
inductive Refusal where
  /-- Raised by an arm of `exec` whose instruction has no meaning yet. Safe. -/
  | notModelled (mnemonic : String)
  /-- The host writes `CMD` while `BUSY = 1`, "a move the host does not have" (R37, R245, V3). Raised by the acceptance of a
  command. Safe (log entry 6). -/
  | commandWhileBusy
  /-- A byte of `HB` that nothing has written is sent (R237, V4). Raised by `MemRead`. Safe (log entry 5). -/
  | unwrittenBufferByte
  /-- The configuration is ill-formed (R8, V9). Raised by the acceptance of a command, before the first run. Safe (log entry 10). -/
  | illFormedConfiguration
deriving DecidableEq, Repr

/-- How one step ends. -/
abbrev Outcome := Host.Outcome State Fault Refusal

/-- The machine after power-on reset (R42, R230). The values the spec leaves unspecified are those of log entry 4; the configuration
is the reference configuration of log entry 3. -/
def State.reset : State where
  clock := false
  dataOut := false
  chipSelect := true
  txb := 0#8
  rxb := 0#8
  bitcnt := 0#3
  hdr := 0#8
  cnt := 0#8
  idx := 0#8
  len := 0#8
  rxc := 0#8
  drain := 0#8
  pollcnt := 0
  tblidx := 0
  bandsel := none
  seq := []
  busy := false
  opstate := .idle
  status := .ok
  result := 0#8
  cmd := 0#24
  hb := []
  trace := []
  cfg := Config.reference
  dataIn := []
  done := []
  draws := 0
  host := []
  hostData := 0#24
  stale := []
  turns := []

end Sys2Proof.Machine
end

