-- ==== Sys2Proof/Machine/Operands.lean ====
section
/-! DEFINITION. Operand forms: the control byte, the bits of a byte on the wire, the operand checks, and where the bytes and counts
of an operation come from. -/

namespace Sys2Proof.Machine

/-- `zext_8(addr[5:0]) | flags` (R17 a, R90, R97). -/
def controlByte (a : Addr) (flags : Byte) : Byte := a.setWidth 8 ||| flags

/-- Bits 7:6 of an address operand are not 0: the command is refused with `BAD_ADDR` (R104). -/
def badAddr (a : Byte) : Bool := a.extractLsb' 6 2 != 0#2

/-- The 6-bit address of a checked operand, `A[5:0]` (R97). -/
def addrOf (a : Byte) : Addr := a.extractLsb' 0 6

/-- The length operand of SEND is above `MAX_PKT`: the command is refused with `LEN_REJECT` (R17 d, R105). -/
def lengthRejected (n : Byte) : Bool := maxPkt.toNat < n.toNat

/-- Bit `i` of a byte (R10). -/
def bitOf (v : Byte) (i : BitVec 3) : Level := v.getLsbD i.toNat

/-- The byte `v` with bit `i` set to `b`, the accumulation of the received bits (`RXB[i] <- b`, R17 b, R126). -/
def setBit (v : Byte) (i : BitVec 3) (b : Level) : Byte :=
  (v &&& ~~~(1#8 <<< i.toNat)) ||| ((BitVec.ofBool b).setWidth 8 <<< i.toNat)

/-- The byte a transfer sends. -/
def ByteSrc.eval : ByteSrc → State → Byte
  | .hdr, s => s.hdr
  | .txb, s => s.txb
  | .len, s => s.len
  | .imm b, _ => b

/-- The count of a burst (R29). -/
def CountSrc.eval : CountSrc → State → Byte
  | .imm n, _ => n
  | .len, s => s.len

/-- The value `complete` gives `RESULT`, if any (R12, R38). -/
def ResultSrc.eval : ResultSrc → State → Option Byte
  | .unchanged, _ => none
  | .rxb, s => some s.rxb
  | .len, s => some s.len
  | .imm b, _ => some b

/-- The band entry whose discriminant equals the operand, none for an unrecognized band (R46, R99, R165, R166). -/
def bandOf (c : Config) (discriminant : Byte) : Option (Fin 3) :=
  [0, 1, 2].find? fun j => c.bandTable[j.val]?.any (·.id == discriminant)

/-- The writes of a band selection: the entry's pairs in table order, nothing when no band is selected (R166). -/
def bandWrites (c : Config) : Option (Fin 3) → List (Addr × Byte)
  | none => []
  | some j => (c.bandTable[j.val]?.map (·.freq)).getD []

/-- The pairs of a configuration table (R45, R46). -/
def Table.pairs : Table → State → List (Addr × Byte)
  | .pre, s => s.cfg.cfgPre
  | .band, s => bandWrites s.cfg s.bandsel
  | .post, s => s.cfg.cfgPost

end Sys2Proof.Machine
end

