-- ==== Sys2Proof/Machine/Flags.lean ====
section
/-! DEFINITION. Flags and status: the encodings of `OPSTATE` and `STATUS`, the packed view `CSR`, and the tests whose outcome chooses
the next action. No arithmetic writes a flag (R17, R36). -/

namespace Sys2Proof.Machine

/-- The 2-bit encoding of `OPSTATE` (R34). -/
def OpState.code : OpState → BitVec 2
  | .idle => 0#2
  | .configuring => 1#2
  | .sending => 2#2
  | .receiving => 3#2

/-- The 3-bit completion codes (R35, R200). -/
def Status.code : Status → BitVec 3
  | .ok => 0#3
  | .timeout => 1#3
  | .illegalOp => 2#3
  | .badAddr => 3#3
  | .lenReject => 4#3

/-- `CSR`: `BUSY` at bit 7, `OPSTATE` at 6:5, zeros at 4:3, `STATUS` at 2:0 (R39). -/
def State.csr (s : State) : Byte :=
  (BitVec.ofBool s.busy ++ s.opstate.code ++ 0#2 ++ s.status.code : BitVec (1 + 2 + 2 + 3))

/-- RECV's count test: `(RXC & RXBYTES_MASK) != 0` (R17 e, R186, D11). -/
def bytesQueued (c : Config) (rxc : Byte) : Bool := (rxc &&& c.rxBytesMask) != 0#8

/-- The wait gives up: `POLL_BOUND` is set and the count of missed samples has reached it (R124). -/
def boundReached (c : Config) (pollcnt : Nat) : Bool := c.pollBound.any (· ≤ pollcnt)

end Sys2Proof.Machine
end

