-- ==== Sys2Proof/Machine/Procedures.lean ====
section
/-! DEFINITION. The internal procedures of files 40 and 41 as lists of sequencer places: `xfer`, the frame's beginning and end, the
six protocol procedures, the waits and the abort. They are expanded in place (R192). -/

namespace Sys2Proof.Machine

/-- The register transfers of a place. -/
def Micro.transfers : Micro → List Transfer
  | .act pre _ | .branch pre _ => pre

/-- The register transfers `ts`, made before those of the program's first place. -/
def withTransfers (ts : List Transfer) : Program → Program
  | .act pre a :: rest => .act (ts ++ pre) a :: rest
  | .branch pre b :: rest => .branch (ts ++ pre) b :: rest
  | [] => []

/-- One bit of `xfer`, eight actions in the order of R126, then the choice whether another bit follows. `pre` goes with the
first action. -/
def bitStep (pre : List Transfer) : Program :=
  [ .act pre (.setLine .clock false),
    .act [] .driveBit,
    .act [] (.delay .settle),
    .act [] .sampleBit,
    .act [] (.delay .sample),
    .act [] (.setLine .clock true),
    .act [] (.delay .hold),
    .act [] (.setLine .clock false),
    .branch [] .moreBits ]

/-- `in <- xfer(out)` (R126); `in` is left in `RXB`. It never touches chip-select (R127). -/
def xfer (src : ByteSrc) : Program := bitStep [.loadTx src]

/-- `waitLine(l, v)` (R124): one place, at which the sequencer may stay. -/
def waitLine (l : SensedLine) (v : Level) : Program := [.act [.startPoll] (.waitLine l v)]

/-- `frame_begin()` (R141), after the register transfers `pre` of the procedure. -/
def frameBegin (pre : List Transfer) : Program := .act pre (.setLine .chipSelect false) :: waitLine .dataIn false

/-- `frame_end()` (R142). -/
def frameEnd : Program := [.act [] (.setLine .chipSelect true)]

/-- A frame: begin, what is sent and received, end (R140). -/
def frame (pre : List Transfer) (body : Program) : Program := frameBegin pre ++ body ++ frameEnd

/-- `wreg(a, v)` (R145). -/
def wreg (a : Addr) (v : ByteSrc) : Program := frame [.loadHdr a 0x00#8] (xfer .hdr ++ xfer v)

/-- `rreg(a)` (R146); the byte read is left in `RXB`. -/
def rreg (a : Addr) : Program := frame [.loadHdr a flagRead] (xfer .hdr ++ xfer (.imm dummy))

/-- `wburst(a, src, n)` (R147), from `HB` or from `PA_TABLE`. -/
def wburst (a : Addr) (k : Burst) (n : CountSrc) : Program :=
  frame [.loadHdr a flagBurst, .loadCount n] (xfer .hdr ++ [.branch [] (.burst k)])

/-- `rburst(a, dst, n)` (R148), into `HB` or into `DRAIN`. -/
def rburst (a : Addr) (k : Burst) (n : CountSrc) : Program :=
  frame [.loadHdr a (flagRead ||| flagBurst), .loadCount n] (xfer .hdr ++ [.branch [] (.burst k)])

/-- `strobe(c)` (R149). -/
def strobe (c : Addr) : Program := frame [.loadHdr c 0x00#8] (xfer .hdr)

/-- `rstat(a)` (R150): as `rreg` but for the flags, `STATUS_MODE_FLAGS`. -/
def rstat (c : Config) (a : Addr) : Program := frame [.loadHdr a c.statusModeFlags] (xfer .hdr ++ xfer (.imm dummy))

/-- `complete(OK)` or `complete(OK, r)` (R12). -/
def completeOk (r : ResultSrc) : Program := [.act [] (.complete .ok r)]

/-- An operand fault: nothing but its completion (R201). -/
def reject (code : Status) : Program := [.act [] (.complete code .unchanged)]

/-- The abort on `TimedOut`: release chip-select if it is low, then `complete(TIMEOUT)` (R204). -/
def abort (chipSelect : Level) : Program :=
  (if chipSelect then [] else frameEnd) ++ reject .timeout

/-- One byte of a burst, and the choice whether another follows (R147, R148). -/
def burstByte (k : Burst) (d : Byte) : Program :=
  match k with
  | .outHb => .act [] .memRead :: xfer .txb ++ [.branch [.nextIndex] (.burst .outHb)]
  | .outPa => xfer (.imm d) ++ [.branch [.nextIndex] (.burst .outPa)]
  | .inHb => xfer (.imm dummy) ++ [.act [] .memWrite, .branch [.nextIndex] (.burst .inHb)]
  | .inDrain => xfer (.imm dummy) ++ [.branch [.drainFromRxb, .nextIndex] (.burst .inDrain)]

/-- What follows RECV's count test (R186): with a byte queued the length, the payload, the trailer, the flush; else the flush. -/
def recvTail (c : Config) (queued : Bool) : Program :=
  if queued then
    rreg c.addrRxFifo ++
    withTransfers [.lenFromRxb] (rburst c.addrRxFifo .inHb .len) ++
    rburst c.addrRxFifo .inDrain (.imm nTrailer) ++ strobe c.cmdSfrx ++ completeOk .len
  else strobe c.cmdSfrx ++ completeOk (.imm 0x00#8)

/-- What follows CHKRX's first sample (R183, R185). -/
def chkrxTail (high : Level) : Program :=
  if high then waitLine .done false ++ completeOk (.imm 0x01#8) else completeOk (.imm 0x00#8)

end Sys2Proof.Machine
end

