-- ==== Sys2Proof/Machine/Ops.lean ====
section
/-! DEFINITION. The named operations over memory, lines and registers, the one action the controller performs in a step, and the two
ends of an operation: `complete`, which is the block's "trap entry" (R210), and the acceptance of the next command, which is its
"return" (R213). -/

namespace Sys2Proof.Machine

/-! ### The host buffer -/

/-- The byte at an index, none where nothing has been written (R237). -/
def Memory.read : Memory → Nat → Option Byte
  | [], _ => none
  | (a, v) :: rest, i => if a = i then some v else Memory.read rest i

/-- `HB[i] <- v` (R12), keeping the canonical form. -/
def Memory.write : Memory → Nat → Byte → Memory
  | [], i, v => [(i, v)]
  | (a, w) :: rest, i, v =>
    if i < a then (i, v) :: (a, w) :: rest
    else if i = a then (i, v) :: rest
    else (a, w) :: Memory.write rest i v

/-- The canonical form: addresses strictly rising and below 256 (R49). An unlisted byte holds no value, so no entry can equal what
an unlisted address reads as. -/
def Memory.wf : Memory → Bool
  | [] => true
  | (a, _) :: rest => a < 256 && rest.all (fun c => a < c.1) && Memory.wf rest

/-! ### Lines and trace -/

/-- One event is appended to `TRACE` (R12, R54). -/
def State.emit (s : State) (e : Event) : State := { s with trace := s.trace ++ [e] }

/-- `LINE[l] <- v` (R21). -/
def State.drive (s : State) : DrivenLine → Level → State
  | .clock, v => { s with clock := v }
  | .dataOut, v => { s with dataOut := v }
  | .chipSelect, v => { s with chipSelect := v }

/-- `setLine(l, v)`: performed and recorded also when the line has that level already (R121, D25). -/
def setLine (s : State) (l : DrivenLine) (v : Level) : State := (s.drive l v).emit (.set l v)

/-- The level the environment presents at this step: the next scripted one, or else a free value (R22, R122; log entry 2). -/
def sense (s : State) : SensedLine → Level × State
  | .dataIn =>
    match s.dataIn with
    | b :: bs => (b, { s with dataIn := bs })
    | [] => (Config.envLevel .dataIn s.draws, { s with draws := s.draws + 1 })
  | .done =>
    match s.done with
    | b :: bs => (b, { s with done := bs })
    | [] => (Config.envLevel .done s.draws, { s with draws := s.draws + 1 })

/-- `b <- readLine(l)`: changes no state of the CORE, appends `Read(l, b)` (R122). -/
def readLine (s : State) (l : SensedLine) : Level × State :=
  ((sense s l).1, (sense s l).2.emit (.read l (sense s l).1))

/-! ### Register transfers and choices -/

/-- `SEQ <- p`: the places of `p` are the ones from the present point on (R32). -/
def State.goto (s : State) (p : Program) : State := { s with seq := p }

/-- The effect of a register transfer (R25 to R31, R34). DESIGN CHOICE (log entry 8): `loadCount` clears `IDX` with `CNT`, before the
frame; R147 and R148 use it only in the loop. -/
def Transfer.apply (s : State) : Transfer → State
  | .setOpState o => { s with opstate := o }
  | .loadHdr a f => { s with hdr := controlByte a f }
  | .loadCount c => { s with cnt := c.eval s, idx := 0#8 }
  | .nextIndex => { s with idx := s.idx + 1#8 }
  | .loadTx src => { s with txb := src.eval s, bitcnt := 7#3 }
  | .nextBit => { s with bitcnt := s.bitcnt - 1#3 }
  | .startPoll => { s with pollcnt := 0 }
  | .lenFrom n => { s with len := n }
  | .lenFromRxb => { s with len := s.rxb }
  | .rxcFromRxb => { s with rxc := s.rxb }
  | .drainFromRxb => { s with drain := s.rxb }
  | .startTable => { s with tblidx := 0 }
  | .nextEntry => { s with tblidx := s.tblidx + 1 }
  | .selectBand d => { s with bandsel := bandOf s.cfg d }

/-- A list of register transfers, the first first. -/
def applyAll (s : State) (ts : List Transfer) : State := ts.foldl Transfer.apply s

/-- The byte of a burst that does not come from `HB`: `PA_TABLE[IDX]` (R147, R165). -/
def burstNext (s : State) : Burst → Option Byte
  | .outPa => s.cfg.paTable[s.idx.toNat]?
  | .outHb | .inHb | .inDrain => some dummy

/-- The places a choice puts in front of the rest; none when the choice is to go on (R192). DESIGN CHOICE (log entry 8): after the step
with `BITCNT = 0` no transfer `nextBit` is made, so `BITCNT` stays 0 and does not wrap to 7; R27 and R126 leave its dead value open. -/
def Branch.expand (s : State) : Branch → Program
  | .moreBits => if s.bitcnt = 0#3 then [] else bitStep [.nextBit]
  | .burst k =>
    if s.idx.toNat < s.cnt.toNat then
      match burstNext s k with
      | some d => burstByte k d
      | none => []
    else []
  | .table t =>
    match (t.pairs s)[s.tblidx]? with
    | some (a, v) => wreg a (.imm v) ++ [.branch [.nextEntry] (.table t)]
    | none => []
  | .received => recvTail s.cfg (bytesQueued s.cfg s.rxc)

/-- The choices in front of the next action are made: the place the sequencer then stands at is an action. -/
def settle : Program → State → State
  | .branch pre b :: rest, s =>
    match b.expand (applyAll s pre) with
    | [] => settle rest (applyAll s pre)
    | m :: ms => (applyAll s pre).goto (m :: ms ++ rest)
  | p, s => s.goto p

/-! ### Reading `HB` -/

/-- What `HB[i]` held, none for no value, before each write the host has made to it since the command was accepted. -/
def State.heldBefore (s : State) (i : Nat) : List (Option Byte) := s.stale.filterMap fun c => if c.1 = i then some c.2 else none

/-- `MemRead(i, 1)` (R12): the byte of `HB[i]`, none where nothing has written it (R237). Where the host has broken R76 and written it
during the operation, the byte is the one it holds or any it held before, which one being a free value (R82, V5; log entry 7). -/
def memRead (s : State) (i : Nat) : Option (Byte × State) :=
  match s.heldBefore i with
  | [] => (s.hb.read i).map (·, s)
  | old :: olds =>
    let all := s.hb.read i :: old :: olds
    some (all[Config.freeChoice s.draws % all.length]?.join.getD (Config.freeByte s.draws), { s with draws := s.draws + 1 })

/-! ### Ending an operation -/

/-- `complete(c, r)`, the one way an operation ends and the block's "trap entry" (R12, R200, R210): `STATUS <- c`, `RESULT <- r`
when given, `OPSTATE <- Idle`, `BUSY <- 0`; `SEQ` is meaningless after it (R32). -/
def complete (s : State) (c : Status) (r : Option Byte) : State :=
  { s with status := c, result := r.getD s.result, opstate := .idle, busy := false, seq := [] }.emit (.complete c r)

/-! ### One action -/

/-- One sample of `waitLine(l, v)` (R124): a sample equal to `v` ends the wait; another is counted, and the wait goes on at the same
place or, when the bound is reached, the operation is aborted (R204); the places the abort leaves undone stay behind its completion,
which ends the operation. -/
def waitSample (s : State) (l : SensedLine) (v : Level) (rest : Program) : State :=
  let b := (readLine s l).1
  let s' := (readLine s l).2
  if b = v then s'.goto rest
  else
    { s' with pollcnt := s.pollcnt + 1 }.goto
      (if boundReached s.cfg (s.pollcnt + 1) then abort s.chipSelect ++ rest else .act [] (.waitLine l v) :: rest)

/-- The action `a` is performed, `rest` being what follows it (R12, R120). DESIGN CHOICE (log entry 8): `memRead` puts the byte into
`TXB` at once, before the transfer that sends it starts; R147 gives its local `d` no register, and R25 has `TXB` written at the
start of the transfer. DESIGN CHOICE (log entry 5): a byte that RBURST or RECV wrote and the host never did is sent like any other;
R237 and V4 speak of bytes the host never wrote, D7 of unwritten ones. -/
def perform (s : State) (a : Act) (rest : Program) : Outcome :=
  match a with
  | .setLine l v => .next ((setLine s l v).goto rest)
  | .driveBit => .next ((setLine s .dataOut (bitOf s.txb s.bitcnt)).goto rest)
  | .sampleBit =>
    .next ({ (readLine s .dataIn).2 with rxb := setBit s.rxb s.bitcnt (readLine s .dataIn).1 }.goto rest)
  | .delay d => .next ((s.emit (.delay d)).goto rest)
  | .waitLine l v => .next (waitSample s l v rest)
  | .testDone => .next ((readLine s .done).2.goto (chkrxTail (readLine s .done).1 ++ rest))
  | .memRead =>
    match memRead s s.idx.toNat with
    | some (d, s') => .next ({ s'.emit (.bufRd s.idx d) with txb := d }.goto rest)
    | none => .refused .unwrittenBufferByte
  | .memWrite => .next ({ s.emit (.bufWr s.idx s.rxb) with hb := s.hb.write s.idx.toNat s.rxb }.goto rest)
  | .complete c r => .next (complete s c (r.eval s))

/-- One step of the controller: it performs the action at `SEQ` and advances `SEQ` (R14, R32). -/
def controllerStep (s : State) : Outcome :=
  match (settle s.seq s).seq with
  | .act pre a :: rest => perform (applyAll (settle s.seq s) pre) a rest
  | _ => .fault .sequencerLost

/-- The controller's turn: up to `n` actions, ending with the operation (R14; log entry 1). -/
def runActions : Nat → State → Outcome
  | 0, s => .next s
  | n + 1, s =>
    if s.busy then
      match controllerStep s with
      | .next s' => runActions n s'
      | .fault f => .fault f
      | .refused r => .refused r
    else .next s

/-! ### Accepting a command -/

/-- The actions the controller is granted with the acceptance of a command: those of its turn, when the turn is its own. -/
def State.grant (s : State) : Nat :=
  match s.turns with
  | .controller n :: _ => n
  | _ => 0

/-- The turns left after the acceptance of a command. -/
def State.turnsAfter (s : State) : List Turn :=
  match s.turns with
  | .controller _ :: ts => ts
  | ts => ts

/-- The state in which the command `w` has been accepted and `p` stands at `SEQ` (R37). -/
def accepted (s : State) (w : CmdWord) (p : Program) : State :=
  { s with cmd := w, busy := true, seq := p, stale := [], turns := s.turnsAfter }

/-- The acceptance of the command `w`, whose operation is `p`: `CMD` latches the word, `BUSY` rises and the operation starts (R37);
the controller's turn, if it has one, follows. While `BUSY = 1` the host has no such move (R245), and a machine with an
ill-formed configuration is refused (R8). -/
def accept (s : State) (w : CmdWord) (p : Program) : Outcome :=
  if s.busy then .refused .commandWhileBusy
  else if s.cfg.wellFormed then runActions s.grant (accepted s w p)
  else .refused .illFormedConfiguration

/-- A command with an `OP` that is no operation: accepted, and completed with `ILLEGAL_OP` (R103). -/
def acceptIllegal (s : State) (w : CmdWord) : Outcome := accept s w (reject .illegalOp)

end Sys2Proof.Machine
end

