-- ==== Sys2Proof/Machine/Lifecycle.lean ====
section
/-! DEFINITION. The lifecycle family: RESET (R161), CONFIGURE (R165). -/

namespace Sys2Proof.Machine

/-- RESET: the chip-select pulse with its two delays, the ready wait, the bare reset code, the second ready wait, the release
(R161, R162, D15). -/
def resetOp (c : Config) : Program :=
  [ .act [] (.setLine .chipSelect false), .act [] (.delay .rstA),
    .act [] (.setLine .chipSelect true), .act [] (.delay .rstB),
    .act [] (.setLine .chipSelect false) ] ++
  waitLine .dataIn false ++ xfer (.imm (controlByte c.cmdSres 0x00#8)) ++ waitLine .dataIn false ++
  frameEnd ++ completeOk .unchanged

/-- CONFIGURE: the calibration writes, the writes of the selected band, the shared writes, the amplitude table (R165). -/
def configureOp (c : Config) (band : Byte) : Program :=
  [ .branch [.setOpState .configuring, .startTable] (.table .pre),
    .branch [.selectBand band, .startTable] (.table .band),
    .branch [.startTable] (.table .post) ] ++
  wburst c.addrPaTable .outPa (.imm nPaTable) ++ completeOk .unchanged

/-- RESET (R161). -/
def execReset (xa xn : Byte) (s : State) : Outcome := accept s (encode (.reset xa xn)) (resetOp s.cfg)
/-- CONFIGURE (R165). -/
def execConfigure (band xn : Byte) (s : State) : Outcome := accept s (encode (.configure band xn)) (configureOp s.cfg band)

end Sys2Proof.Machine
end

