-- ==== Sys2Proof/Machine/Packet.lean ====
section
/-! DEFINITION. The packet family: SEND (R177), SETRX (R181), CHKRX (R183), RECV (R186). -/

namespace Sys2Proof.Machine

/-- SEND: the length check, then the length frame, the payload frame, start-TX, the rise and the fall of `DONE`, flush-TX
(R105, R177, R178, R179). -/
def sendOp (c : Config) (n : Byte) : Program :=
  if lengthRejected n then reject .lenReject
  else
    withTransfers [.setOpState .sending, .lenFrom n] (wreg c.addrTxFifo .len) ++
    wburst c.addrTxFifo .outHb .len ++ strobe c.cmdStx ++
    waitLine .done true ++ waitLine .done false ++ strobe c.cmdSftx ++ completeOk .unchanged

/-- SETRX: the start-RX strobe (R181). -/
def setrxOp (c : Config) : Program := strobe c.cmdSrx ++ completeOk .unchanged

/-- CHKRX: one read of `DONE`; what follows is chosen by its level (R183). -/
def chkrxOp : Program := [.act [] .testDone]

/-- RECV: the count byte; what follows is chosen by the count test (R186). -/
def recvOp (c : Config) : Program :=
  withTransfers [.setOpState .receiving] (rstat c c.addrRxBytes) ++ [.branch [.rxcFromRxb] .received]

/-- SEND (R177). -/
def execSend (xa length : Byte) (s : State) : Outcome := accept s (encode (.send xa length)) (sendOp s.cfg length)
/-- SETRX (R181). -/
def execSetrx (xa xn : Byte) (s : State) : Outcome := accept s (encode (.setrx xa xn)) (setrxOp s.cfg)
/-- CHKRX (R183). -/
def execChkrx (xa xn : Byte) (s : State) : Outcome := accept s (encode (.chkrx xa xn)) chkrxOp
/-- RECV (R186). -/
def execRecv (xa xn : Byte) (s : State) : Outcome := accept s (encode (.recv xa xn)) (recvOp s.cfg)

end Sys2Proof.Machine
end

