-- ==== Sys2Proof/Machine/Protocol.lean ====
section
/-! DEFINITION. The protocol family: WREG, RREG, WBURST, RBURST, STROBE, RSTAT (R145 to R150), each one frame behind the operand
check of R104. -/

namespace Sys2Proof.Machine

/-- The address check in front of an operation (R104, R209). -/
def checked (a : Byte) (p : Addr → Program) : Program := if badAddr a then reject .badAddr else p (addrOf a)

def wregOp (a v : Byte) : Program := checked a fun a => wreg a (.imm v) ++ completeOk .unchanged
def rregOp (a : Byte) : Program := checked a fun a => rreg a ++ completeOk .rxb
def wburstOp (a n : Byte) : Program := checked a fun a => wburst a .outHb (.imm n) ++ completeOk .unchanged
def rburstOp (a n : Byte) : Program := checked a fun a => rburst a .inHb (.imm n) ++ completeOk .unchanged
def strobeOp (c : Byte) : Program := checked c fun c => strobe c ++ completeOk .unchanged
def rstatOp (cfg : Config) (a : Byte) : Program := checked a fun a => rstat cfg a ++ completeOk .rxb

/-- WREG (R145). -/
def execWreg (addr value : Byte) (s : State) : Outcome := accept s (encode (.wreg addr value)) (wregOp addr value)
/-- RREG (R146). -/
def execRreg (addr xn : Byte) (s : State) : Outcome := accept s (encode (.rreg addr xn)) (rregOp addr)
/-- WBURST (R147). -/
def execWburst (addr count : Byte) (s : State) : Outcome := accept s (encode (.wburst addr count)) (wburstOp addr count)
/-- RBURST (R148). -/
def execRburst (addr count : Byte) (s : State) : Outcome := accept s (encode (.rburst addr count)) (rburstOp addr count)
/-- STROBE (R149). -/
def execStrobe (command xn : Byte) (s : State) : Outcome := accept s (encode (.strobe command xn)) (strobeOp command)
/-- RSTAT (R150). -/
def execRstat (addr xn : Byte) (s : State) : Outcome := accept s (encode (.rstat addr xn)) (rstatOp s.cfg addr)

end Sys2Proof.Machine
end

