-- ==== Sys2Proof/Machine/Transport.lean ====
section
/-! DEFINITION. The transport family: XFER (R128). -/

namespace Sys2Proof.Machine

/-- The operation XFER: one transfer, chip-select untouched (R128). -/
def xferOp (outByte : Byte) : Program := xfer (.imm outByte) ++ completeOk .rxb

/-- XFER (R128). -/
def execXfer (outByte xn : Byte) (s : State) : Outcome := accept s (encode (.xfer outByte xn)) (xferOp outByte)

end Sys2Proof.Machine
end

