-- ==== Sys2Proof/Machine/Dispatch.lean ====
section
/-! DEFINITION. The meaning of every command: one arm per constructor of Instr. -/

namespace Sys2Proof.Machine

def exec (i : Instr) (s : State) : Host.Outcome State Fault Refusal :=
  match i with
  | .xfer b n => Sys2Proof.Machine.execXfer b n s
  | .wreg a v => Sys2Proof.Machine.execWreg a v s
  | .rreg a n => Sys2Proof.Machine.execRreg a n s
  | .wburst a n => Sys2Proof.Machine.execWburst a n s
  | .rburst a n => Sys2Proof.Machine.execRburst a n s
  | .strobe c n => Sys2Proof.Machine.execStrobe c n s
  | .rstat a n => Sys2Proof.Machine.execRstat a n s
  | .reset a n => Sys2Proof.Machine.execReset a n s
  | .configure b n => Sys2Proof.Machine.execConfigure b n s
  | .send a n => Sys2Proof.Machine.execSend a n s
  | .setrx a n => Sys2Proof.Machine.execSetrx a n s
  | .chkrx a n => Sys2Proof.Machine.execChkrx a n s
  | .recv a n => Sys2Proof.Machine.execRecv a n s

end Sys2Proof.Machine
end

