-- ==== Sys2Proof/Machine/HostPort.lean ====
section
/-! DEFINITION. The host's moves (R14): the command register, the other host registers, and the accesses to `HB`. -/

namespace Sys2Proof.Machine

/-- A value the spec leaves unspecified, as a host read returns it (V2, V6; log entry 9). -/
def readUnspecified (s : State) : State :=
  { s with hostData := Config.freeWord s.draws, draws := s.draws + 1 }

/-- A host read of a register: `CSR` (1) and `RESULT` (2); register 0 and numbers above 2 return an unspecified value
(R37, R38, R39, R50). -/
def hostReadReg (s : State) (number : Nat) : State :=
  match number with
  | 1 => { s with hostData := s.csr.setWidth 24 }
  | 2 => { s with hostData := s.result.setWidth 24 }
  | _ => readUnspecified s

/-- The number `n` of the bytes `HB[0..n)` that a RECV in progress fills. It is `LEN` once the length byte is in it (R186), also in an abort
after that (R204). It is 0 in the branch with nothing queued, and in an abort before the length is read. While the length byte is still
to come it is not known, and every index a length could reach counts (log entry 9). -/
def recvFills (s : State) : Nat :=
  match s.seq.getLast?, s.seq.any (·.transfers.contains .lenFromRxb), s.seq.contains (.act [] (.complete .timeout .unchanged)) with
  | some (.act [] (.complete .ok .len)), false, _ => s.len.toNat
  | some (.act [] (.complete .ok (.imm _))), _, _ => 0
  | _, _, true => 0
  | _, _, false => 255

/-- `HB[i]` is unspecified to the host at this moment: it is one of the bytes `HB[0..n)` that an RBURST or RECV in progress fills
(R76, V6). -/
def beingFilled (s : State) (i : Byte) : Bool :=
  s.busy &&
    match decode s.cmd with
    | .ok (.rburst _ n) => i.toNat < n.toNat
    | .ok (.recv _ _) => i.toNat < recvFills s
    | _ => false

/-- A host read of `HB[i]` (R76). A byte nothing has written holds no defined value (R237). -/
def hostReadHb (s : State) (i : Byte) : State :=
  match beingFilled s i, s.hb.read i.toNat with
  | false, some v => { s with hostData := v.setWidth 24 }
  | _, _ => readUnspecified s

/-- A host write of `HB[i]` (R76). While `BUSY = 1` it breaks R76; what the byte held is kept, for a `MemRead` still to come may see it
(R82, V5; log entry 7). -/
def hostWriteHb (s : State) (i v : Byte) : State :=
  { s with
    hb := s.hb.write i.toNat v
    stale := if s.busy then (i.toNat, s.hb.read i.toNat) :: s.stale else s.stale }

/-- A host write of `CMD`: the command is decoded and run; an illegal one is accepted and completes with `ILLEGAL_OP`
(R37, R103, R209). -/
def hostCommand (s : State) (w : CmdWord) : Outcome :=
  match decode w with
  | .ok i => exec i s
  | .error _ => acceptIllegal s w

/-- A host write of a register: number 0 is `CMD`; writes to registers 1 and 2 are ignored, and a register above 2 does not exist
(R39). -/
def hostWriteReg (s : State) (number : Nat) (w : CmdWord) : Outcome :=
  match number with
  | 0 => hostCommand s w
  | _ => .next s

/-- One move of the host. -/
def hostMove (s : State) : HostMove → Outcome
  | .writeReg number w => hostWriteReg s number w
  | .readReg number => .next (hostReadReg s number)
  | .writeHb i v => .next (hostWriteHb s i v)
  | .readHb i => .next (hostReadHb s i)

/-- The host's turn: its next move, if it makes one. -/
def hostTurn (s : State) : Outcome :=
  match s.host with
  | [] => .next s
  | m :: ms => hostMove { s with host := ms } m

/-- The controller's turn while `BUSY = 1`, or the host's when `turns` gives it to the host (log entry 1). -/
def busyTurn (s : State) : Outcome :=
  match s.turns with
  | [] => runActions 1 s
  | .controller n :: ts => runActions n { s with turns := ts }
  | .host :: ts => hostTurn { s with turns := ts }

/-- The host's next move is a write of `CMD` with the word `w`, and the block is idle to take it. -/
def placeCommand (s : State) (w : CmdWord) : State := { s with busy := false, host := .writeReg 0 w :: s.host }

end Sys2Proof.Machine
end

