-- ==== Sys2Proof/Machine/Step.lean ====
section
/-! DEFINITION. One step of the machine, and where the next command is placed. -/

namespace Sys2Proof.Machine

/-- One step. An idle block waits for the host (R231): the step is the host's next move. A busy block's step is the controller's, one
primitive action (R14) unless `turns` says otherwise (log entry 1). -/
def step (s : State) : Host.Outcome State Fault Refusal :=
  if s.busy then busyTurn s else hostTurn s

/-- `s` with the command word `w` (its first `nbits` bits, the others 0) as the host's next move, so that the next step runs it
(log entry 13). -/
def State.withFetchWord (s : State) (nbits w : Nat) : State := placeCommand s (BitVec.ofNat 24 (w % 2 ^ nbits))

end Sys2Proof.Machine
end

