-- ==== Sys2Proof/Machine/Core.lean ====
section
/-! DEFINITION. The machine as the host runs it. A run puts weak fairness on the controller and nothing on the environment; the
environment's promises READY_EVENTUALLY and DONE_PULSE are named premises of termination claims (R256, R257, R261, D27): Safety.lean
defines them on runs of this core. -/

def Sys2Proof.core : Host.Core :=
  { State := Sys2Proof.Machine.State, Fault := Sys2Proof.Machine.Fault, Refusal := Sys2Proof.Machine.Refusal,
    step := Sys2Proof.Machine.step, reset := Sys2Proof.Machine.State.reset }
end

