-- ==== Sys2Proof/Machine/Assembler.lean ====
section
/-! DEFINITION. The assembler's lines (R109) and its six pseudo-operations (R110), and the host moves a program of them stands for.
Nothing in the machine's meaning uses them: they say what a line of a program is in terms of commands and `HB` contents. -/

namespace Sys2Proof.Machine

/-- One line of a program: the operands it writes, and no ignored field (R109); the pseudo-operations (R110); `.hb`. -/
inductive AsmLine where
  | xfer (b : Byte)
  | wreg (a v : Byte)
  | rreg (a : Byte)
  | wburst (a n : Byte)
  | rburst (a n : Byte)
  | strobe (c : Byte)
  | rstat (a : Byte)
  | reset
  | configure (band : Byte)
  | send (n : Byte)
  | setrx
  | chkrx
  | recv
  | sres
  | sfrx
  | sftx
  | srx
  | stx
  | rxbytes
  | hb (bytes : List Byte)
deriving DecidableEq, Repr

/-- The command of a line, absent operands 0 (R109); a pseudo-operation is the STROBE or RSTAT with the configured code (R110). The
directive `.hb` is no command. -/
def AsmLine.command (c : Config) : AsmLine → Option Instr
  | .xfer b => some (.xfer b 0#8)
  | .wreg a v => some (.wreg a v)
  | .rreg a => some (.rreg a 0#8)
  | .wburst a n => some (.wburst a n)
  | .rburst a n => some (.rburst a n)
  | .strobe k => some (.strobe k 0#8)
  | .rstat a => some (.rstat a 0#8)
  | .reset => some (.reset 0#8 0#8)
  | .configure b => some (.configure b 0#8)
  | .send n => some (.send 0#8 n)
  | .setrx => some (.setrx 0#8 0#8)
  | .chkrx => some (.chkrx 0#8 0#8)
  | .recv => some (.recv 0#8 0#8)
  | .sres => some (.strobe (c.cmdSres.setWidth 8) 0#8)
  | .sfrx => some (.strobe (c.cmdSfrx.setWidth 8) 0#8)
  | .sftx => some (.strobe (c.cmdSftx.setWidth 8) 0#8)
  | .srx => some (.strobe (c.cmdSrx.setWidth 8) 0#8)
  | .stx => some (.strobe (c.cmdStx.setWidth 8) 0#8)
  | .rxbytes => some (.rstat (c.addrRxBytes.setWidth 8) 0#8)
  | .hb _ => none

/-- The bytes of `.hb b0, b1, …`, written to `HB[0..)` in order (R109). -/
def hbMoves : Nat → List Byte → List HostMove
  | _, [] => []
  | i, b :: bs => .writeHb (BitVec.ofNat 8 i) b :: hbMoves (i + 1) bs

/-- The host moves of a line. -/
def AsmLine.moves (c : Config) : AsmLine → List HostMove
  | .hb bytes => hbMoves 0 bytes
  | l => ((l.command c).map fun i => HostMove.writeReg 0 (encode i)).toList

/-- The host moves of a program, line by line. -/
def assemble (c : Config) (p : List AsmLine) : List HostMove := p.flatMap (·.moves c)

end Sys2Proof.Machine
end

