-- ==== Sys2Proof/Safety.lean ====
section
/-! DEFINITION. The terms claims about runs are stated in: the events of transfers and frames (the notation of 95_test_vectors.md),
the levels an environment answers them with, the state an operation leaves, the invariants a safe run keeps, and what ending rests
on: the controller's fairness and the environment's two promises. -/

namespace Sys2Proof.Machine

/-! ### What a wire transaction looks like in `TRACE` -/

/-- The eight bits of a byte, most significant first (R60). -/
def msbBits (b : Byte) : List Level :=
  [b.getLsbD 7, b.getLsbD 6, b.getLsbD 5, b.getLsbD 4, b.getLsbD 3, b.getLsbD 2, b.getLsbD 1, b.getLsbD 0]

/-- The eight events of one bit: `o` goes out, `i` is sampled before the rising edge (R126, R240). -/
def bitEvents (o i : Level) : List Event :=
  [.set .clock false, .set .dataOut o, .delay .settle, .read .dataIn i, .delay .sample, .set .clock true, .delay .hold,
    .set .clock false]

/-- The 64 events of a transfer that sends `out` and samples `inp`, bit 7 first (R126). -/
def xferEvents (out inp : Byte) : List Event :=
  ((msbBits out).zip (msbBits inp)).flatMap fun b => bitEvents b.1 b.2

/-- The events of transfers one after another: sent byte and sampled byte of each. -/
def xfersEvents (l : List (Byte × Byte)) : List Event := l.flatMap fun b => xferEvents b.1 b.2

/-- The events of a wait for `v` on `l` that misses `p` samples and then ends (R124). -/
def waitEvents (l : SensedLine) (v : Level) (p : Nat) : List Event := List.replicate p (.read l !v) ++ [.read l v]

/-- The events of a frame whose ready wait misses `p` samples (R140 to R142). -/
def frameEvents (p : Nat) (body : List Event) : List Event :=
  .set .chipSelect false :: (waitEvents .dataIn false p ++ body ++ [.set .chipSelect true])

/-- The events of a burst from `HB`, from index `k` on: each byte is read just before its transfer (R82, R147). -/
def burstOutEvents : Nat → List (Byte × Byte) → List Event
  | _, [] => []
  | k, (d, x) :: l => .bufRd (BitVec.ofNat 8 k) d :: (xferEvents d x ++ burstOutEvents (k + 1) l)

/-- The events of a burst into `HB`, from index `k` on: each byte is written just after its transfer (R148). -/
def burstInEvents : Nat → List Byte → List Event
  | _, [] => []
  | k, d :: l => xferEvents dummy d ++ .bufWr (BitVec.ofNat 8 k) d :: burstInEvents (k + 1) l

/-! ### What the environment answers -/

/-- The levels of a wait for `v` that misses `p` samples. -/
def waitLevels (v : Level) (p : Nat) : List Level := List.replicate p (!v) ++ [v]

/-- The levels `DATA_IN` shows in a frame: `p` busy samples, ready, then the bits of the bytes sampled in it. -/
def frameLevels (p : Nat) (ins : List Byte) : List Level := waitLevels false p ++ ins.flatMap msbBits

/-- A wait that misses `p` samples is within the bound (R124). -/
def admits (c : Config) (p : Nat) : Bool := c.pollBound.all (p < ·)

/-! ### The state an operation leaves -/

/-- The block can accept a command: it is idle, and its configuration is well formed (R8, R37). -/
def Accepts (s : State) : Prop := s.busy = false ∧ s.cfg.wellFormed = true

/-- The bytes of `HB` from index `i` on are the bytes `ds`. -/
def Memory.Holds : Memory → Nat → List Byte → Prop
  | _, _, [] => True
  | m, i, d :: ds => m.read i = some d ∧ m.Holds (i + 1) ds

/-- The buffer after the bytes `ds` have been written from index `i` on. -/
def Memory.fill : Memory → Nat → List Byte → Memory
  | m, _, [] => m
  | m, i, d :: ds => (m.write i d).fill (i + 1) ds

/-- `s` after a transfer that sent `out` and sampled `inp` (R126, R127). -/
def State.transferred (s : State) (out inp : Byte) : State :=
  { s with txb := out, rxb := inp, bitcnt := 0#3, clock := false, dataOut := out.getLsbD 0 }

/-- `s` after the transfers `l`, sent byte and sampled byte of each: what the last of them leaves (R126, R143). -/
def State.sent (s : State) (l : List (Byte × Byte)) : State :=
  match l.getLast? with
  | none => s
  | some b => s.transferred b.1 b.2

/-- `s` after a frame with control byte `h` whose ready wait missed `p` samples and whose transfers were `l`; the environment's
remaining levels are `rest` (R140). -/
def State.framed (s : State) (h : Byte) (p : Nat) (l : List (Byte × Byte)) (rest : List Level) : State :=
  { s.sent l with hdr := h, pollcnt := p, chipSelect := true, dataIn := rest }

/-- A single write of CONFIGURE: the pair written, and what the environment shows in its frame (the ready samples missed and the two
bytes sampled). -/
abbrev TableWrite := (Addr × Byte) × (Nat × Byte × Byte)

/-- The transfers of a single write (R145). -/
def TableWrite.transfers (w : TableWrite) : List (Byte × Byte) :=
  [(controlByte w.1.1 0x00#8, w.2.2.1), (w.1.2, w.2.2.2)]

/-- The events of single-write frames one after another (R165). -/
def tableEvents (l : List TableWrite) : List Event := l.flatMap fun w => frameEvents w.2.1 (xfersEvents w.transfers)

/-- The levels `DATA_IN` shows in them. -/
def tableLevels (l : List TableWrite) : List Level := l.flatMap fun w => frameLevels w.2.1 [w.2.2.1, w.2.2.2]

/-- `s` after the single writes `l`: what the last of them leaves. -/
def State.wrote (s : State) (l : List TableWrite) (rest : List Level) : State :=
  match l.getLast? with
  | none => { s with dataIn := rest }
  | some w => s.framed (controlByte w.1.1 0x00#8) w.2.1 w.transfers rest

/-- `u`, with the command `w` accepted in `s` having ended with code `c` and result `r` after the line events `es`. -/
def State.ended (u s : State) (w : CmdWord) (es : List Event) (c : Status) (r : Option Byte) : State :=
  { u with
    cmd := w, busy := false, seq := [], opstate := .idle, status := c, result := r.getD s.result,
    trace := s.trace ++ es ++ [.complete c r], stale := [], turns := s.turnsAfter }

/-- The events of a frame whose ready wait gives up after `k` samples: nothing but the release follows (R141, R204). -/
def lateEvents (k : Nat) : List Event :=
  .set .chipSelect false :: (List.replicate k (.read .dataIn true) ++ [.set .chipSelect true])

/-- `s` after the abort of a frame whose ready wait gave up after `k` samples (R204). -/
def State.late (s : State) (k : Nat) (rest : List Level) : State :=
  { s with chipSelect := true, pollcnt := k, dataIn := rest }

/-- The band selection of CONFIGURE: entry `j` has the discriminant and `ws` are its pairs, or no entry has it and `ws` is empty
(R166). -/
def Selects (c : Config) (discriminant : Byte) : Option (Fin 3) → List (Addr × Byte) → Prop
  | some j, ws => ∃ b, c.bandTable[j.val]? = some b ∧ b.id = discriminant ∧ ws = b.freq
  | none, ws => ws = [] ∧ ∀ b ∈ c.bandTable, b.id ≠ discriminant

/-! ### The host's moves -/

/-- The next step of `s` is the host's move `m`, and `t` is what is left of the model's own lists: the block is idle, or `turns`
gives the host the step (R14; log entry 1). -/
def HostMoves (s : State) (m : HostMove) (t : State) : Prop :=
  s.host = m :: t.host ∧
    ((s.busy = false ∧ t = { s with host := t.host }) ∨
      (s.busy = true ∧ s.turns = .host :: t.turns ∧ t = { s with host := t.host, turns := t.turns }))

/-- The next step of `s` is the controller's action `a` with `rest` behind it; `u` is `s` after the register transfers that go with
the action (R14, R32; log entries 1, 8). -/
def ControllerAt (s u : State) (a : Act) (rest : Program) : Prop :=
  s.busy = true ∧ s.turns = [] ∧ ∃ pre, s.seq = .act pre a :: rest ∧ u = applyAll s pre

/-! ### The framing discipline -/

/-- Where the bus stands, read off the events so far. -/
inductive Phase where
  | released                            -- chip-select is high, no transfer
  | waiting                             -- chip-select is low, no ready sample yet
  | ready                               -- the event just before was the ready sample
  | shifting (framed : Bool) (n : Nat)  -- `n` of a transfer's 64 events are done; in a frame, or XFER's own outside one
  | moving                              -- chip-select is low, the frame's transfers so far are whole
deriving DecidableEq, Repr

/-- A transfer whose 64 events are done is over. -/
def Phase.settled : Phase → Phase
  | .shifting true 64 => .moving
  | .shifting false 64 => .released
  | ph => ph

/-- The event is the one that follows the first `n` of a transfer's 64 (R126). -/
def bitEvent (n : Nat) (e : Event) : Bool :=
  n < 64 && match n % 8, e with
  | 0, .set .clock v | 7, .set .clock v => !v
  | 1, .set .dataOut _ => true
  | 2, .delay d => d == .settle
  | 3, .read .dataIn _ => true
  | 4, .delay d => d == .sample
  | 5, .set .clock v => v
  | 6, .delay d => d == .hold
  | _, _ => false

/-- How an event moves the phase; none where the event breaks the discipline: no frame begins in another (R79, R242), a frame's first
transfer begins directly after a ready sample (R153), chip-select moves in no transfer and is not released between the ready sample and
the end of a transfer (R144, R241), a transfer is the eight bits of a byte whole (R126). -/
def Phase.after (ph : Phase) (e : Event) : Option Phase :=
  match ph.settled, e with
  | .shifting framed n, e => if bitEvent n e then some (.shifting framed (n + 1)) else none
  | .released, .set .chipSelect false => some .waiting
  | .released, .set .clock false => some (.shifting false 1)
  | .released, .delay _ | .released, .read .done _ | .released, .complete _ _ => some .released
  | .waiting, .set .chipSelect true => some .released
  | .waiting, .read .dataIn b => if b then some .waiting else some .ready
  | .waiting, .delay _ => some .waiting
  | .ready, .set .clock false => some (.shifting true 1)
  | .moving, .set .chipSelect true => some .released
  | .moving, .set .clock false => some (.shifting true 1)
  | .moving, .read .dataIn _ | .moving, .bufRd _ _ | .moving, .bufWr _ _ => some .moving
  | _, _ => none

/-- The phase after a trace, none when the trace breaks the discipline. -/
def phaseOf (t : List Event) : Option Phase := t.foldl (fun p e => p.bind (·.after e)) (some .released)

/-- The level of `CHIP_SELECT` in a phase. -/
def Phase.chipSelect : Phase → Level
  | .released | .shifting false _ => true
  | _ => false

/-- The level of `CLOCK` in a phase: high between the sixth and the eighth event of a bit, low at rest (R43, R126). -/
def Phase.clock : Phase → Level
  | .shifting _ n => n % 8 == 6 || n % 8 == 7
  | _ => false

/-- The register transfers `pre` keep `BITCNT` at the bit the transfer stands at, when they go with the event that leads to the phase:
the first event of a transfer loads it, the first event of a later bit counts it down (R27). -/
def Phase.loads : Phase → List Transfer → Bool
  | .shifting _ n, pre =>
    match pre with
    | [.loadTx _] => n == 1
    | [.nextBit] => n != 1 && n % 8 == 1
    | [] => n % 8 != 1
    | _ => false
  | _, _ => true

/-- The places `p` keep the discipline from phase `ph`, and end with chip-select released (R43). -/
def follows : Phase → Program → Bool
  | _, [] => false
  | ph, .act pre a :: rest =>
    let along (e : Event) : Bool :=
      match ph.after e with
      | some ph' => ph'.loads pre && follows ph' rest
      | none => false
    match a with
    | .setLine l v => along (.set l v)
    | .driveBit => along (.set .dataOut false)
    | .sampleBit => (match ph.settled with | .shifting _ _ => along (.read .dataIn false) | _ => false)
    | .delay d => along (.delay d)
    | .waitLine .dataIn v =>
      (match ph.settled with
      | .waiting => !v && follows .ready rest
      | .moving => follows .moving rest
      | _ => false)
    | .waitLine .done _ => ph.settled == .released && follows .released rest
    | .testDone => ph.settled == .released
    | .memRead | .memWrite => ph.settled == .moving && follows .moving rest
    | .complete _ _ => ph.settled == .released
  | ph, .branch pre b :: rest =>
    match b with
    | .moreBits =>
      (match ph with
      | .shifting framed n => pre.isEmpty && 0 < n && n ≤ 64 && n % 8 == 0 && follows (.shifting framed 64) rest
      | _ => false)
    | .burst _ => ph.settled == .moving && follows .moving rest
    | .table _ => ph.settled == .released && follows .released rest
    | .received => ph.settled == .released

/-- The invariant of every step: `HB` is in canonical form (log entry 5); `TRACE` keeps the framing discipline and agrees with the
clock, the chip-select line and, inside a transfer, `BITCNT`; an idle block is at its idle levels with `OPSTATE = Idle` and nothing at
`SEQ` (R34, R43; log entry 4); a busy block has a sequence that keeps the discipline to its end (log entry 8). -/
def Inv (s : State) : Prop :=
  s.hb.wf = true ∧
  ∃ ph, phaseOf s.trace = some ph ∧ s.chipSelect = ph.chipSelect ∧ s.clock = ph.clock ∧
    (∀ framed n, ph = .shifting framed n → s.bitcnt.toNat = 7 - (n - 1) / 8) ∧
    (s.busy = false → ph = .released ∧ s.opstate = .idle ∧ s.seq = []) ∧
    (s.busy = true → follows ph s.seq = true)

/-! ### Which operation is in progress, and the codes it can end with -/

/-- The `OPSTATE` of the operation a command word selects; a SEND that is too long selects none (R34, R177). -/
def opStateFor (w : CmdWord) : OpState :=
  match decode w with
  | .ok (.configure _ _) => .configuring
  | .ok (.send _ n) => if n.toNat ≤ 61 then .sending else .idle
  | .ok (.recv _ _) => .receiving
  | _ => .idle

/-- The transfer sets `OPSTATE`, if at all, to `o`. -/
def Transfer.setsOnly (o : OpState) : Transfer → Bool
  | .setOpState o' => o' == o
  | _ => true

/-- `OPSTATE` is `Idle` when `BUSY = 0`; when `BUSY = 1` it is that of the operation in progress, or it is still `Idle` and the
operation's first action sets it (R34, R170, R175; log entry 8). -/
def OpStateInv (s : State) : Prop :=
  (s.busy = false → s.opstate = .idle) ∧
  (s.busy = true →
    (s.opstate = opStateFor s.cmd ∨
      s.opstate = .idle ∧ ∃ m rest, s.seq = m :: rest ∧ Transfer.setOpState (opStateFor s.cmd) ∈ m.transfers) ∧
    ∀ m ∈ s.seq, ∀ t ∈ m.transfers, t.setsOnly (opStateFor s.cmd) = true)

/-- The place completes, if at all, with a code other than `TIMEOUT`. -/
def Micro.noTimeout : Micro → Bool
  | .act _ (.complete c _) => c != .timeout
  | _ => true

/-- With unbounded waits no completion is a `TIMEOUT` (R212). -/
def NoTimeoutInv (s : State) : Prop :=
  s.cfg.pollBound = none ∧ s.status ≠ .timeout ∧ (∀ m ∈ s.seq, m.noTimeout = true)

/-! ### Fairness and the environment's promises

The controller is weakly fair (R261, D27): it is held by nothing but its own waits. `turns` is a finite list, each step of a busy block
consumes one of its entries, and once it is empty every step of a busy block is an action of the controller (log entry 1; the
statement ControllerFairness). The environment is under no law (R22). READY_EVENTUALLY (R256) and DONE_PULSE (R257) are promises of
the environment, not of the block: the two definitions of those names below, premises of claims of termination only. -/

/-- `t` is reached from `s` by steps. -/
def Reaches (s t : State) : Prop := ∃ n, Host.Core.run Sys2Proof.core n s = .next t

/-- The controller's next action is a sample of a wait for `v` on `l`. -/
def WaitsFor (s : State) (l : SensedLine) (v : Level) : Prop :=
  s.busy = true ∧ ∃ pre rest, (settle s.seq s).seq = .act pre (.waitLine l v) :: rest

/-- The wait is answered after finitely many samples. -/
def Answered (s : State) (l : SensedLine) (v : Level) : Prop :=
  ∃ t p, Reaches s t ∧ t.trace = s.trace ++ waitEvents l v p

/-- READY_EVENTUALLY, from `s` on: "every `waitLine(DATA_IN, 0)` is answered 0 after finitely many samples" (R256). -/
def ReadyEventually (s : State) : Prop := ∀ t, Reaches s t → WaitsFor t .dataIn false → Answered t .dataIn false

/-- DONE_PULSE, from `s` on: `DONE` is sampled 1, and then 0, after finitely many samples, where SEND waits for it; and 0 where CHKRX
does (R257). -/
def DonePulse (s : State) : Prop := ∀ t v, Reaches s t → WaitsFor t .done v → Answered t .done v

/-- The operation in progress ends. -/
def Ends (s : State) : Prop := ∃ t, Reaches s t ∧ t.busy = false

/-- The bytes of `HB`, from index 0 on, that a command sends (R147, R177). -/
def bytesSent : Instr → Nat
  | .wburst a n => if badAddr a then 0 else n.toNat
  | .send _ n => if lengthRejected n then 0 else n.toNat
  | _ => 0

end Sys2Proof.Machine
end

