-- ==== Sys2Proof/Certificates/Slice0/Obligations.lean ====
section
/-! DEFINITION. The statements for the provers. A whole operation is stated as the state `exec` answers when the turn grants the
controller enough actions (`State.grant`, log entry 1) and State's script of levels (log entry 2) answers its samples: every field of
that state is said, so each such statement is the result, the frame and the completion of its command at once. What the rules leave
dead or open after an operation is left open in it: `BITCNT` after a transfer (R27; log entry 8), `IDX` after the count is loaded
and `TBLIDX` after a table (R24). -/

open Sys2Proof Sys2Proof.Machine

/-! ### Encodings -/

/-- R94, R102: no bit of a command is dropped by its word, whatever its operands, and the word is of no other command. -/
def Obligations.DecodeEncode : Prop := ∀ i : Instr, decode (encode i) = .ok i

/-- R94, R102: a word that is a command is that command's word. -/
def Obligations.EncodeDecode : Prop := ∀ (w : CmdWord) (i : Instr), decode w = .ok i → encode i = w

/-- R102, R103: exactly the thirteen values of `OP` are commands; the other 243 are illegal. -/
def Obligations.ThirteenOpcodes : Prop :=
  ∀ w : CmdWord, (∃ i, decode w = .ok i) ↔
    (w.toNat / 65536) ∈ [0x00, 0x10, 0x11, 0x12, 0x13, 0x14, 0x15, 0x20, 0x21, 0x30, 0x31, 0x32, 0x33]

/-- The example words of the operation rules (R128, R145 to R150, R161, R165, R177, R181, R183, R186) decode to their commands. -/
def Obligations.ExampleWords : Prop :=
  decode 0x00A500#24 = .ok (.xfer 0xA5#8 0#8) ∧ decode 0x10022E#24 = .ok (.wreg 0x02#8 0x2E#8) ∧
  decode 0x110200#24 = .ok (.rreg 0x02#8 0#8) ∧ decode 0x123E02#24 = .ok (.wburst 0x3E#8 2#8) ∧
  decode 0x133F03#24 = .ok (.rburst 0x3F#8 3#8) ∧ decode 0x143A00#24 = .ok (.strobe 0x3A#8 0#8) ∧
  decode 0x153B00#24 = .ok (.rstat 0x3B#8 0#8) ∧ decode 0x200000#24 = .ok (.reset 0#8 0#8) ∧
  decode 0x210000#24 = .ok (.configure 0#8 0#8) ∧ decode 0x300006#24 = .ok (.send 0#8 6#8) ∧
  decode 0x310000#24 = .ok (.setrx 0#8 0#8) ∧ decode 0x320000#24 = .ok (.chkrx 0#8 0#8) ∧
  decode 0x330000#24 = .ok (.recv 0#8 0#8) ∧ decode 0x160000#24 = .error (.illegalOp 0x16#8)

/-- R97: for a checked operand the control byte is `A | flags`. -/
def Obligations.ControlByte : Prop :=
  ∀ a f : Byte, a.extractLsb' 6 2 = 0#2 → controlByte (addrOf a) f = a ||| f

/-- R110: the six pseudo-operations are the STROBE and RSTAT commands with the configured codes. -/
def Obligations.PseudoOperations : Prop :=
  ∀ c : Config,
    (∀ k : Addr, ∀ l : AsmLine, (l, k) ∈ [(.sres, c.cmdSres), (.sfrx, c.cmdSfrx), (.sftx, c.cmdSftx), (.srx, c.cmdSrx), (.stx, c.cmdStx)] →
      l.moves c = (AsmLine.strobe (k.setWidth 8)).moves c) ∧
    AsmLine.rxbytes.moves c = (AsmLine.rstat (c.addrRxBytes.setWidth 8)).moves c

/-! ### Reset -/

/-- R42, R230: what the power-on reset leaves, for every value the spec gives. -/
def Obligations.ResetValues : Prop :=
  State.reset.clock = false ∧ State.reset.chipSelect = true ∧ State.reset.dataOut = false ∧ State.reset.busy = false ∧
  State.reset.opstate = .idle ∧ State.reset.status = .ok ∧ State.reset.result = 0#8 ∧ State.reset.trace = [] ∧
  State.reset.csr = 0#8

/-- The invariants hold at reset, whatever the configuration. -/
def Obligations.ResetInvariants : Prop :=
  ∀ c : Config, Inv { State.reset with cfg := c } ∧ OpStateInv { State.reset with cfg := c } ∧
    (c.pollBound = none → NoTimeoutInv { State.reset with cfg := c })

/-! ### A step -/

/-- R37, R103: when the host's move is a write of `CMD`, the step runs the decoded command; a word that is no command is accepted
and goes on to nothing but its completion with `ILLEGAL_OP`. (`t` and `turns` are the model's own, log entry 1.) -/
def Obligations.StepRunsCommand : Prop :=
  ∀ (s t : State) (w : CmdWord), s.busy = false → HostMoves s (.writeReg 0 w) t →
    (∀ i, decode w = .ok i → step s = exec i t) ∧
    (∀ e, decode w = .error e → t.cfg.wellFormed = true →
      (0 < t.grant → step s = .next (t.ended t w [] .illegalOp none)) ∧
      (t.grant = 0 → ∃ p, step s = .next { t with cmd := w, busy := true, seq := p, stale := [], turns := t.turnsAfter }))

/-- R37: an accepted command is latched, `BUSY` rises, and nothing else has happened before the first action. That `OPSTATE` is then
still `Idle` is what R170 says of CONFIGURE; for SEND and RECV, whose rules put it at "the start of the operation" (R34), it is the
model's choice (log entry 8). The model's own lists: `turns` (log entry 1) and `stale`, emptied (log entry 7). -/
def Obligations.Acceptance : Prop :=
  ∀ (i : Instr) (s : State), Accepts s → s.grant = 0 →
    ∃ p, p ≠ [] ∧ exec i s = .next { s with cmd := encode i, busy := true, seq := p, stale := [], turns := s.turnsAfter }

/-- R231: an idle block does nothing until the host makes a move. -/
def Obligations.IdleWaits : Prop := ∀ s : State, s.busy = false → s.host = [] → step s = .next s

/-- R121, R123: `setLine` sets its line and records the event, whatever level the line had; `delay` records its event and changes
nothing else. Each is one step. -/
def Obligations.SetLineAndDelay : Prop :=
  ∀ (s u : State) (rest : Program),
    (∀ v, ControllerAt s u (.setLine .clock v) rest →
      step s = .next { u with clock := v, trace := u.trace ++ [.set .clock v], seq := rest }) ∧
    (∀ v, ControllerAt s u (.setLine .dataOut v) rest →
      step s = .next { u with dataOut := v, trace := u.trace ++ [.set .dataOut v], seq := rest }) ∧
    (∀ v, ControllerAt s u (.setLine .chipSelect v) rest →
      step s = .next { u with chipSelect := v, trace := u.trace ++ [.set .chipSelect v], seq := rest }) ∧
    (∀ d, ControllerAt s u (.delay d) rest →
      step s = .next { u with trace := u.trace ++ [.delay d], seq := rest })

/-- R122: a sample may be 0 or 1, appends its event and changes no state of the CORE. Whatever level the environment presents
(scripted or the free value of log entry 2), only the model's record of the environment changes beside `TRACE`. -/
def Obligations.ReadLine : Prop :=
  ∀ (s : State) (l : SensedLine), ∃ (b : Level) (d e : List Level) (k : Nat),
    readLine s l = (b, { s with dataIn := d, done := e, draws := k, trace := s.trace ++ [.read l b] }) ∧
    (∀ c r, s.dataIn = c :: r → l = .dataIn → b = c ∧ d = r ∧ e = s.done ∧ k = s.draws) ∧
    (∀ c r, s.done = c :: r → l = .done → b = c ∧ e = r ∧ d = s.dataIn ∧ k = s.draws)

/-- R200, R210: `complete(c)` writes `STATUS`, `OPSTATE` and `BUSY`, `RESULT` when a value is given, appends its event, and nothing
else (`SEQ` is meaningless after it, R32). -/
def Obligations.CompleteAction : Prop :=
  ∀ (s u : State) (c : Status) (r : ResultSrc) (rest : Program), ControllerAt s u (.complete c r) rest →
    step s = .next { u with
      status := c, opstate := .idle, busy := false, seq := [], result := (r.eval u).getD u.result,
      trace := u.trace ++ [.complete c (r.eval u)] }

/-- R12, R120: each action of the controller appends exactly one event. -/
def Obligations.OneEventPerAction : Prop :=
  ∀ s s' : State, s.busy = true → s.turns = [] → step s = .next s' → ∃ e, s'.trace = s.trace ++ [e]

/-- R54: `TRACE` is only ever appended to. -/
def Obligations.TraceOnlyGrows : Prop := ∀ s s' : State, step s = .next s' → ∃ es, s'.trace = s.trace ++ es

/-- R44, R235: no step writes the configuration. -/
def Obligations.ConfigurationFixed : Prop := ∀ s s' : State, step s = .next s' → s'.cfg = s.cfg

/-- R37: the latched command is stable for the whole operation. -/
def Obligations.CommandStable : Prop := ∀ s s' : State, s.busy = true → step s = .next s' → s'.cmd = s.cmd

/-- R35, R38: `STATUS` and `RESULT` hold their values while `BUSY = 1`, and where a step changes them it ended with the `Complete`
event that carries them. -/
def Obligations.OnlyCompleteWritesStatus : Prop :=
  ∀ s s' : State, step s = .next s' →
    (s'.busy = true → s'.status = s.status ∧ s'.result = s.result) ∧
    (¬ (s'.status = s.status ∧ s'.result = s.result) →
      ∃ r, s'.trace.getLast? = some (.complete s'.status r) ∧ s'.result = r.getD s.result)

/-- The step granularity is the model's own (log entry 1): a command with a turn of `n` actions is the command with none and then
`n` single steps. -/
def Obligations.TurnIsSingleSteps : Prop :=
  ∀ (i : Instr) (s : State) (n : Nat), Accepts s → s.host = [] → s.turns = [] →
    ∃ t, exec i s = .next t ∧ exec i { s with turns := [.controller n] } = Host.Core.run Sys2Proof.core n t

/-- R124, R204, R32: the polling wait. A matching sample after `p` that miss ends it; with a bound `k` it gives up after `k` samples that
miss, and the abort of R204 follows; unbounded it samples for ever, `BUSY` staying 1 and no completion being appended. The actions are
taken in one turn (log entry 1). That the places the abort leaves undone stay at `SEQ` behind its completion is the model's choice (log
entry 8); they are not performed, for the completion ends the operation and empties `SEQ` (`CompleteAction`). -/
def Obligations.PollingWait : Prop :=
  ∀ (s : State) (l : SensedLine) (v : Level) (rest : Program) (n : Nat) (ts : List Turn) (r : List Level),
    s.busy = true → s.turns = .controller n :: ts → s.seq = waitLine l v ++ rest →
    let after (q : List Level) (es : List Event) (k : Nat) (p : Program) : State :=
      { s with
        dataIn := if l = .dataIn then q else s.dataIn, done := if l = .done then q else s.done,
        trace := s.trace ++ es, pollcnt := k, seq := p, turns := ts }
    let script := if l = .dataIn then s.dataIn else s.done
    (∀ p, n = p + 1 → script = List.replicate p (!v) ++ v :: r → (∀ k, s.cfg.pollBound = some k → p < k) →
      step s = .next (after r (List.replicate p (.read l !v) ++ [.read l v]) p rest)) ∧
    (∀ k, 1 ≤ k → n = k → script = List.replicate k (!v) ++ r → s.cfg.pollBound = some k →
      step s = .next (after r (List.replicate k (.read l !v)) k
        ((if s.chipSelect then [] else [.act [] (.setLine .chipSelect true)]) ++
          .act [] (.complete .timeout .unchanged) :: rest))) ∧
    (1 ≤ n → script = List.replicate n (!v) ++ r → s.cfg.pollBound = none →
      step s = .next (after r (List.replicate n (.read l !v)) n (.act [] (.waitLine l v) :: rest)))

/-! ### Commands that do not run -/

/-- R201, R103, R104, R105: the three operand faults. The command makes no line action and no `HB` access, changes neither `OPSTATE`
nor `RESULT`, and appends only its `Complete` event: of an idle block every field stays but `CMD`, `STATUS` and `TRACE` (and the
model's own lists `stale` and `turns`, log entries 7 and 1). -/
def Obligations.OperandFaults : Prop :=
  ∀ (s : State), Accepts s → s.opstate = .idle → s.seq = [] → 0 < s.grant →
    let rejected (i : Instr) (c : Status) : Outcome := .next { s with
      cmd := encode i, status := c, trace := s.trace ++ [.complete c none], stale := [], turns := s.turnsAfter }
    (∀ a n : Byte, a.extractLsb' 6 2 ≠ 0#2 →
      exec (.wreg a n) s = rejected (.wreg a n) .badAddr ∧ exec (.rreg a n) s = rejected (.rreg a n) .badAddr ∧
      exec (.wburst a n) s = rejected (.wburst a n) .badAddr ∧ exec (.rburst a n) s = rejected (.rburst a n) .badAddr ∧
      exec (.strobe a n) s = rejected (.strobe a n) .badAddr ∧ exec (.rstat a n) s = rejected (.rstat a n) .badAddr) ∧
    (∀ a n : Byte, 61 < n.toNat → exec (.send a n) s = rejected (.send a n) .lenReject) ∧
    (∀ (s' : State) (w : CmdWord) (e : DecodeError), HostMoves s' (.writeReg 0 w) s → s'.busy = false → decode w = .error e →
      step s' = .next { s with
        cmd := w, status := .illegalOp, trace := s.trace ++ [.complete .illegalOp none], stale := [], turns := s.turnsAfter })

/-- The model's choice (log entries 6, 10): a command while `BUSY = 1`, "a move the host does not have" (R37, R245), and a command
to a machine whose configuration breaks R8 are refused by name. -/
def Obligations.CommandsRefused : Prop :=
  ∀ (i : Instr) (s : State),
    (s.busy = true → exec i s = .refused .commandWhileBusy) ∧
    (s.busy = false → s.cfg.wellFormed = false → exec i s = .refused .illFormedConfiguration)

/-- R82, V5, V4: `MemRead`. That the byte goes into `TXB` at this action, before the transfer that sends it starts, is the model's choice
(log entry 8; R25 has `TXB` written at the transfer's start). A byte the host has left alone since the command is sent as `HB` holds it, its event recorded, `HB`
unchanged; one that nothing has written is refused (the model's choice, log entry 5). Of a byte the host has written since, "either the
old or the new byte" is sent, whichever the free value names: the one it holds or one it held (any byte where it held none; log entry
7). -/
def Obligations.MemReadAction : Prop :=
  ∀ (s u : State) (rest : Program), ControllerAt s u .memRead rest →
    ((∀ c ∈ u.stale, c.1 ≠ u.idx.toNat) →
      (∀ d, u.hb.read u.idx.toNat = some d →
        step s = .next { u with txb := d, trace := u.trace ++ [.bufRd u.idx d], seq := rest }) ∧
      (u.hb.read u.idx.toNat = none → step s = .refused .unwrittenBufferByte)) ∧
    ((∃ c ∈ u.stale, c.1 = u.idx.toNat) →
      ∃ d k, step s = .next { u with txb := d, trace := u.trace ++ [.bufRd u.idx d], draws := k, seq := rest } ∧
        ((∃ old, (u.idx.toNat, old) ∈ u.stale ∧ old.all (· = d)) ∨ (u.hb.read u.idx.toNat).all (· = d)))

/-! ### Transport -/

/-- R128, R126, R127: XFER drives the eight bits of its operand, samples eight levels before the rising edges and returns them,
bit 7 first; chip-select is not touched. -/
def Obligations.Xfer : Prop :=
  ∀ (s : State) (b xn x : Byte) (r : List Level), Accepts s → s.dataIn = msbBits x ++ r → 64 < s.grant →
    ∃ j, exec (.xfer b xn) s =
      .next (State.ended { s with txb := b, rxb := x, bitcnt := j, clock := false, dataOut := b.getLsbD 0, dataIn := r }
        s (encode (.xfer b xn)) (xferEvents b x) .ok (some x))

/-! ### Protocol: each one frame, its ready wait met after `p` busy samples, or given up at the bound `k` -/

/-- R145: WREG. -/
def Obligations.Wreg : Prop :=
  ∀ (s : State) (a v : Byte), Accepts s →
    (64 ≤ a.toNat → 0 < s.grant → exec (.wreg a v) s = .next (s.ended s (encode (.wreg a v)) [] .badAddr none)) ∧
    (a.toNat < 64 →
      (∀ p x y r, s.dataIn = frameLevels p [x, y] ++ r → admits s.cfg p = true → p + 132 ≤ s.grant →
        ∃ j, exec (.wreg a v) s =
          .next (State.ended { s.framed a p [(a, x), (v, y)] r with bitcnt := j } s (encode (.wreg a v))
            (frameEvents p (xferEvents a x ++ xferEvents v y)) .ok none)) ∧
      (∀ k r, s.cfg.pollBound = some k → s.dataIn = List.replicate k true ++ r → k + 3 ≤ s.grant →
        exec (.wreg a v) s =
          .next (State.ended { s.late k r with hdr := a } s (encode (.wreg a v)) (lateEvents k) .timeout none)))

/-- R146: RREG. -/
def Obligations.Rreg : Prop :=
  ∀ (s : State) (a xn : Byte), Accepts s →
    (64 ≤ a.toNat → 0 < s.grant → exec (.rreg a xn) s = .next (s.ended s (encode (.rreg a xn)) [] .badAddr none)) ∧
    (a.toNat < 64 →
      (∀ p x v r, s.dataIn = frameLevels p [x, v] ++ r → admits s.cfg p = true → p + 132 ≤ s.grant →
        ∃ j, exec (.rreg a xn) s =
          .next (State.ended { s.framed (a ||| 0x80#8) p [(a ||| 0x80#8, x), (0#8, v)] r with bitcnt := j } s
            (encode (.rreg a xn)) (frameEvents p (xferEvents (a ||| 0x80#8) x ++ xferEvents 0#8 v)) .ok (some v))) ∧
      (∀ k r, s.cfg.pollBound = some k → s.dataIn = List.replicate k true ++ r → k + 3 ≤ s.grant →
        exec (.rreg a xn) s =
          .next (State.ended { s.late k r with hdr := a ||| 0x80#8 } s (encode (.rreg a xn)) (lateEvents k) .timeout none)))

/-- R147: WBURST. `l` pairs each byte of `HB[0..N)` with the byte the line shows while it is sent; every count 0 to 255. `IDX`
is left open, after the burst and after a wait that is given up (R24; log entry 8). -/
def Obligations.Wburst : Prop :=
  ∀ (s : State) (a n : Byte), Accepts s →
    (64 ≤ a.toNat → 0 < s.grant → exec (.wburst a n) s = .next (s.ended s (encode (.wburst a n)) [] .badAddr none)) ∧
    (a.toNat < 64 →
      (∀ p x l r, l.length = n.toNat → s.hb.Holds 0 (l.map (·.1)) → s.dataIn = frameLevels p (x :: l.map (·.2)) ++ r →
        admits s.cfg p = true → p + 68 + 65 * n.toNat ≤ s.grant →
        ∃ k j, exec (.wburst a n) s =
          .next (State.ended { s.framed (a ||| 0x40#8) p ((a ||| 0x40#8, x) :: l) r with cnt := n, idx := k, bitcnt := j }
            s (encode (.wburst a n)) (frameEvents p (xferEvents (a ||| 0x40#8) x ++ burstOutEvents 0 l)) .ok none)) ∧
      (∀ k r, s.cfg.pollBound = some k → s.dataIn = List.replicate k true ++ r → k + 3 ≤ s.grant →
        ∃ i, exec (.wburst a n) s =
          .next (State.ended { s.late k r with hdr := a ||| 0x40#8, cnt := n, idx := i } s (encode (.wburst a n))
            (lateEvents k) .timeout none)))

/-- R148: RBURST. `ins` are the bytes the line shows during the dummy transfers; they fill `HB[0..N)`; the rest of `HB` is as
before (`HbFill` says so byte by byte). `IDX` is left open, after the burst and after a wait that is given up (R24; log entry 8). -/
def Obligations.Rburst : Prop :=
  ∀ (s : State) (a n : Byte), Accepts s →
    (64 ≤ a.toNat → 0 < s.grant → exec (.rburst a n) s = .next (s.ended s (encode (.rburst a n)) [] .badAddr none)) ∧
    (a.toNat < 64 →
      (∀ p x ins r, ins.length = n.toNat → s.dataIn = frameLevels p (x :: ins) ++ r →
        admits s.cfg p = true → p + 68 + 65 * n.toNat ≤ s.grant →
        ∃ k j, exec (.rburst a n) s =
          .next (State.ended
            { s.framed (a ||| 0xC0#8) p ((a ||| 0xC0#8, x) :: ins.map (0#8, ·)) r with
              cnt := n, idx := k, bitcnt := j, hb := s.hb.fill 0 ins }
            s (encode (.rburst a n)) (frameEvents p (xferEvents (a ||| 0xC0#8) x ++ burstInEvents 0 ins)) .ok none)) ∧
      (∀ k r, s.cfg.pollBound = some k → s.dataIn = List.replicate k true ++ r → k + 3 ≤ s.grant →
        ∃ i, exec (.rburst a n) s =
          .next (State.ended { s.late k r with hdr := a ||| 0xC0#8, cnt := n, idx := i } s (encode (.rburst a n))
            (lateEvents k) .timeout none)))

/-- R149: STROBE. -/
def Obligations.Strobe : Prop :=
  ∀ (s : State) (c xn : Byte), Accepts s →
    (64 ≤ c.toNat → 0 < s.grant → exec (.strobe c xn) s = .next (s.ended s (encode (.strobe c xn)) [] .badAddr none)) ∧
    (c.toNat < 64 →
      (∀ p x r, s.dataIn = frameLevels p [x] ++ r → admits s.cfg p = true → p + 68 ≤ s.grant →
        ∃ j, exec (.strobe c xn) s =
          .next (State.ended { s.framed c p [(c, x)] r with bitcnt := j } s (encode (.strobe c xn))
            (frameEvents p (xferEvents c x)) .ok none)) ∧
      (∀ k r, s.cfg.pollBound = some k → s.dataIn = List.replicate k true ++ r → k + 3 ≤ s.grant →
        exec (.strobe c xn) s =
          .next (State.ended { s.late k r with hdr := c } s (encode (.strobe c xn)) (lateEvents k) .timeout none)))

/-- R150: RSTAT, with the configured flags. -/
def Obligations.Rstat : Prop :=
  ∀ (s : State) (a xn : Byte), Accepts s →
    (64 ≤ a.toNat → 0 < s.grant → exec (.rstat a xn) s = .next (s.ended s (encode (.rstat a xn)) [] .badAddr none)) ∧
    (a.toNat < 64 →
      (∀ p x v r, s.dataIn = frameLevels p [x, v] ++ r → admits s.cfg p = true → p + 132 ≤ s.grant →
        ∃ j, exec (.rstat a xn) s =
          .next (State.ended
            { s.framed (a ||| s.cfg.statusModeFlags) p [(a ||| s.cfg.statusModeFlags, x), (0#8, v)] r with bitcnt := j } s
            (encode (.rstat a xn)) (frameEvents p (xferEvents (a ||| s.cfg.statusModeFlags) x ++ xferEvents 0#8 v)) .ok (some v))) ∧
      (∀ k r, s.cfg.pollBound = some k → s.dataIn = List.replicate k true ++ r → k + 3 ≤ s.grant →
        exec (.rstat a xn) s =
          .next (State.ended { s.late k r with hdr := a ||| s.cfg.statusModeFlags } s (encode (.rstat a xn)) (lateEvents k)
            .timeout none)))

/-! ### Lifecycle -/

/-- R161, R162: RESET, both ready waits met; or the first, or the second, given up at the bound. -/
def Obligations.Reset : Prop :=
  ∀ (s : State) (xa xn : Byte), Accepts s →
    let code : Byte := s.cfg.cmdSres.setWidth 8
    let pulse : List Event :=
      [.set .chipSelect false, .delay .rstA, .set .chipSelect true, .delay .rstB, .set .chipSelect false]
    let w := encode (.reset xa xn)
    (∀ p q x r, s.dataIn = waitLevels false p ++ (msbBits x ++ (waitLevels false q ++ r)) →
      admits s.cfg p = true → admits s.cfg q = true → p + q + 73 ≤ s.grant →
      ∃ j, exec (.reset xa xn) s =
        .next (State.ended { s.transferred code x with bitcnt := j, chipSelect := true, pollcnt := q, dataIn := r } s w
          (pulse ++ waitEvents .dataIn false p ++ xferEvents code x ++ waitEvents .dataIn false q ++ [.set .chipSelect true])
          .ok none)) ∧
    (∀ k r, s.cfg.pollBound = some k → s.dataIn = List.replicate k true ++ r → k + 7 ≤ s.grant →
      exec (.reset xa xn) s =
        .next ((s.late k r).ended s w (pulse ++ List.replicate k (.read .dataIn true) ++ [.set .chipSelect true]) .timeout none)) ∧
    (∀ k p x r, s.cfg.pollBound = some k → s.dataIn = waitLevels false p ++ (msbBits x ++ (List.replicate k true ++ r)) →
      admits s.cfg p = true → p + k + 72 ≤ s.grant →
      ∃ j, exec (.reset xa xn) s =
        .next (State.ended { s.transferred code x with bitcnt := j, chipSelect := true, pollcnt := k, dataIn := r } s w
          (pulse ++ waitEvents .dataIn false p ++ xferEvents code x ++ List.replicate k (.read .dataIn true) ++
            [.set .chipSelect true]) .timeout none))

/-- R165, R166, R167: CONFIGURE. `pre`, `band` and `post` are the pairs of `CFG_PRE`, of the selected band (none for an
unrecognized one) and of `CFG_POST`, each with what the environment shows in its frame; `l` pairs the amplitude bytes with theirs.
The frames are exactly these, 28 or 25 with the burst. `IDX` and `TBLIDX` after it are left open (R24). -/
def Obligations.Configure : Prop :=
  ∀ (s : State) (band xn : Byte) (sel : Option (Fin 3)) (ws : List (Addr × Byte)) (pre mid post : List TableWrite)
    (p : Nat) (y : Byte) (l : List (Byte × Byte)) (r : List Level),
    Accepts s → Selects s.cfg band sel ws → pre.map (·.1) = s.cfg.cfgPre → mid.map (·.1) = ws →
    post.map (·.1) = s.cfg.cfgPost → l.map (·.1) = s.cfg.paTable →
    s.dataIn = tableLevels (pre ++ mid ++ post) ++ (frameLevels p (y :: l.map (·.2)) ++ r) →
    (∀ w ∈ pre ++ mid ++ post, admits s.cfg w.2.1 = true) → admits s.cfg p = true →
    let h : Byte := s.cfg.addrPaTable.setWidth 8 ||| 0x40#8
    let es := tableEvents (pre ++ mid ++ post) ++ frameEvents p (xferEvents h y ++ xfersEvents l)
    es.length < s.grant →
    (pre ++ mid ++ post).length = (if sel = none then 24 else 27) ∧
    ∃ k j i, exec (.configure band xn) s =
      .next (State.ended { s.framed h p ((h, y) :: l) r with cnt := 8#8, idx := k, tblidx := j, bandsel := sel, bitcnt := i }
        s (encode (.configure band xn)) es .ok none)

/-- R204, R239: a CONFIGURE whose ready wait gives up sends nothing more: in the frame of the pair `w`, the pairs `sent` having been
written; or in the frame of the amplitude burst, all the pairs having been. -/
def Obligations.ConfigureTimeout : Prop :=
  ∀ (s : State) (band xn : Byte) (sel : Option (Fin 3)) (ws : List (Addr × Byte)) (sent : List TableWrite) (k : Nat) (r : List Level),
    Accepts s → Selects s.cfg band sel ws → s.cfg.pollBound = some k →
    s.dataIn = tableLevels sent ++ (List.replicate k true ++ r) → (∀ v ∈ sent, admits s.cfg v.2.1 = true) →
    (tableEvents sent ++ lateEvents k).length < s.grant →
    (∀ w, (sent.map (·.1) ++ [w]) <+: (s.cfg.cfgPre ++ ws ++ s.cfg.cfgPost) →
      ∃ j b i, exec (.configure band xn) s =
        .next (State.ended { (s.wrote sent r).late k r with hdr := w.1.setWidth 8, tblidx := j, bandsel := b, bitcnt := i } s
          (encode (.configure band xn)) (tableEvents sent ++ lateEvents k) .timeout none)) ∧
    (sent.map (·.1) = s.cfg.cfgPre ++ ws ++ s.cfg.cfgPost →
      ∃ m j i, exec (.configure band xn) s =
        .next (State.ended
          { (s.wrote sent r).late k r with
            hdr := s.cfg.addrPaTable.setWidth 8 ||| 0x40#8, cnt := 8#8, idx := m, tblidx := j, bandsel := sel, bitcnt := i } s
          (encode (.configure band xn)) (tableEvents sent ++ lateEvents k) .timeout none))

/-! ### Packets -/

/-- R177, R178, R179, R180: SEND of 0 to 61 bytes: the length frame, the payload frame, the start strobe, the rise and the fall of
`DONE`, the flush. `IDX` after it is left open (R24). -/
def Obligations.Send : Prop :=
  ∀ (s : State) (xa n : Byte) (p₁ p₂ p₃ p₄ q₁ q₂ : Nat) (x₁ x₂ y z u : Byte) (l : List (Byte × Byte)) (r d : List Level),
    Accepts s → n.toNat ≤ 61 → l.length = n.toNat → s.hb.Holds 0 (l.map (·.1)) →
    s.dataIn = frameLevels p₁ [x₁, x₂] ++ (frameLevels p₂ (y :: l.map (·.2)) ++ (frameLevels p₃ [z] ++ (frameLevels p₄ [u] ++ r))) →
    s.done = waitLevels true q₁ ++ (waitLevels false q₂ ++ d) →
    (∀ p ∈ [p₁, p₂, p₃, p₄, q₁, q₂], admits s.cfg p = true) →
    let fifo : Byte := s.cfg.addrTxFifo.setWidth 8
    let stx : Byte := s.cfg.cmdStx.setWidth 8
    let sftx : Byte := s.cfg.cmdSftx.setWidth 8
    let es :=
      frameEvents p₁ (xferEvents fifo x₁ ++ xferEvents n x₂) ++
      frameEvents p₂ (xferEvents (fifo ||| 0x40#8) y ++ burstOutEvents 0 l) ++
      frameEvents p₃ (xferEvents stx z) ++ waitEvents .done true q₁ ++ waitEvents .done false q₂ ++
      frameEvents p₄ (xferEvents sftx u)
    es.length < s.grant →
    ∃ k j, exec (.send xa n) s =
      .next (State.ended { s.framed sftx p₄ [(sftx, u)] r with len := n, cnt := n, idx := k, bitcnt := j, done := d }
        s (encode (.send xa n)) es .ok none)

/-- R177, R204, R211: a SEND given up at the bound `k` sends no further frame and flushes nothing, and chip-select is high at its end.
The six waits that can give up: the ready waits of the length, payload, start and flush frames, the rise and the fall of `DONE`. -/
def Obligations.SendTimeout : Prop :=
  ∀ (s : State) (xa n : Byte) (k p₁ p₂ p₃ q₁ q₂ : Nat) (x₁ x₂ y z : Byte) (l : List (Byte × Byte)) (r d : List Level),
    Accepts s → n.toNat ≤ 61 → s.cfg.pollBound = some k →
    let fifo : Byte := s.cfg.addrTxFifo.setWidth 8
    let stx : Byte := s.cfg.cmdStx.setWidth 8
    let sftx : Byte := s.cfg.cmdSftx.setWidth 8
    let w := encode (.send xa n)
    let lengthFrame := frameEvents p₁ (xferEvents fifo x₁ ++ xferEvents n x₂)
    let payloadFrame := frameEvents p₂ (xferEvents (fifo ||| 0x40#8) y ++ burstOutEvents 0 l)
    let startFrame := frameEvents p₃ (xferEvents stx z)
    let payload := l.length = n.toNat ∧ s.hb.Holds 0 (l.map (·.1))
    let late := List.replicate k true
    (s.dataIn = late ++ r → k + 3 ≤ s.grant →
      exec (.send xa n) s = .next (State.ended { s.late k r with hdr := fifo, len := n } s w (lateEvents k) .timeout none)) ∧
    (s.dataIn = frameLevels p₁ [x₁, x₂] ++ (late ++ r) → admits s.cfg p₁ = true →
      (lengthFrame ++ lateEvents k).length < s.grant →
      ∃ i j, exec (.send xa n) s =
        .next (State.ended
          { (s.framed fifo p₁ [(fifo, x₁), (n, x₂)] r).late k r with
            hdr := fifo ||| 0x40#8, len := n, cnt := n, idx := i, bitcnt := j }
          s w (lengthFrame ++ lateEvents k) .timeout none)) ∧
    (s.dataIn = frameLevels p₁ [x₁, x₂] ++ (frameLevels p₂ (y :: l.map (·.2)) ++ (late ++ r)) → payload →
      (∀ p ∈ [p₁, p₂], admits s.cfg p = true) → (lengthFrame ++ payloadFrame ++ lateEvents k).length < s.grant →
      ∃ i j, exec (.send xa n) s =
        .next (State.ended
          { (s.framed (fifo ||| 0x40#8) p₂ ((fifo ||| 0x40#8, y) :: l) r).late k r with
            hdr := stx, len := n, cnt := n, idx := i, bitcnt := j }
          s w (lengthFrame ++ payloadFrame ++ lateEvents k) .timeout none)) ∧
    (s.dataIn = frameLevels p₁ [x₁, x₂] ++ (frameLevels p₂ (y :: l.map (·.2)) ++ (frameLevels p₃ [z] ++ r)) → payload →
      (∀ p ∈ [p₁, p₂, p₃], admits s.cfg p = true) →
      let sent : State := { s.framed stx p₃ [(stx, z)] r with len := n, cnt := n }
      (s.done = List.replicate k false ++ d →
        let es := lengthFrame ++ payloadFrame ++ startFrame ++ List.replicate k (.read .done false)
        es.length < s.grant →
        ∃ i j, exec (.send xa n) s =
          .next (State.ended { sent with idx := i, bitcnt := j, pollcnt := k, done := d } s w es .timeout none)) ∧
      (s.done = waitLevels true q₁ ++ (late ++ d) → admits s.cfg q₁ = true →
        let es := lengthFrame ++ payloadFrame ++ startFrame ++ waitEvents .done true q₁ ++ List.replicate k (.read .done true)
        es.length < s.grant →
        ∃ i j, exec (.send xa n) s =
          .next (State.ended { sent with idx := i, bitcnt := j, pollcnt := k, done := d } s w es .timeout none)) ∧
      (∀ r', r = late ++ r' → s.done = waitLevels true q₁ ++ (waitLevels false q₂ ++ d) → admits s.cfg q₁ = true →
        admits s.cfg q₂ = true →
        let es := lengthFrame ++ payloadFrame ++ startFrame ++ waitEvents .done true q₁ ++ waitEvents .done false q₂ ++ lateEvents k
        es.length < s.grant →
        ∃ i j, exec (.send xa n) s =
          .next (State.ended { sent.late k r' with hdr := sftx, idx := i, bitcnt := j, done := d } s w es .timeout none)))

/-- R181: SETRX. -/
def Obligations.Setrx : Prop :=
  ∀ (s : State) (xa xn : Byte), Accepts s →
    let srx : Byte := s.cfg.cmdSrx.setWidth 8
    (∀ p x r, s.dataIn = frameLevels p [x] ++ r → admits s.cfg p = true → p + 68 ≤ s.grant →
      ∃ j, exec (.setrx xa xn) s =
        .next (State.ended { s.framed srx p [(srx, x)] r with bitcnt := j } s (encode (.setrx xa xn))
          (frameEvents p (xferEvents srx x)) .ok none)) ∧
    (∀ k r, s.cfg.pollBound = some k → s.dataIn = List.replicate k true ++ r → k + 3 ≤ s.grant →
      exec (.setrx xa xn) s =
        .next (State.ended { s.late k r with hdr := srx } s (encode (.setrx xa xn)) (lateEvents k) .timeout none))

/-- R182: SETRX is the STROBE of `CMD_SRX`: whatever the one leaves, the other leaves, the latched word apart. -/
def Obligations.SetrxIsStrobe : Prop :=
  ∀ (s t : State) (xa xn xn' : Byte),
    let i := Instr.strobe (s.cfg.cmdSrx.setWidth 8) xn'
    exec (.setrx xa xn) s = .next t → exec i s = .next { t with cmd := encode i }

/-- R183, R185: CHKRX. One sample of `DONE`; low: result 0 at once; high: a wait for the fall, then result 1, or the bound `k` is
reached. No line is driven (chip-select is high, as `FramingInvariant` keeps it while the block is idle). -/
def Obligations.Chkrx : Prop :=
  ∀ (s : State) (xa xn : Byte), Accepts s →
    let w := encode (.chkrx xa xn)
    (∀ d, s.done = false :: d → 2 ≤ s.grant →
      exec (.chkrx xa xn) s = .next (State.ended { s with done := d } s w [.read .done false] .ok (some 0x00#8))) ∧
    (∀ p d, s.done = true :: (waitLevels false p ++ d) → admits s.cfg p = true → p + 3 ≤ s.grant →
      exec (.chkrx xa xn) s =
        .next (State.ended { s with done := d, pollcnt := p } s w (.read .done true :: waitEvents .done false p) .ok
          (some 0x01#8))) ∧
    (∀ k d, s.chipSelect = true → s.cfg.pollBound = some k → s.done = true :: (List.replicate k true ++ d) → k + 2 ≤ s.grant →
      exec (.chkrx xa xn) s =
        .next (State.ended { s with done := d, pollcnt := k } s w (List.replicate (k + 1) (.read .done true)) .timeout none))

/-- R186, R187, R188: RECV with a byte queued: count, length, payload into `HB[0..LEN)`, trailer, flush. `x₁` is the count byte,
`x₂` the length byte, `ins` the payload, `t₁` and `t₂` the trailer; the `y` are what the line shows during the control bytes.
`IDX` after it is left open (R24). -/
def Obligations.RecvQueued : Prop :=
  ∀ (s : State) (xa xn : Byte) (p₁ p₂ p₃ p₄ p₅ : Nat) (y₁ x₁ y₂ x₂ y₃ y₄ t₁ t₂ y₅ : Byte) (ins : List Byte) (r : List Level),
    Accepts s → x₁ &&& s.cfg.rxBytesMask ≠ 0#8 → ins.length = x₂.toNat →
    s.dataIn = frameLevels p₁ [y₁, x₁] ++ (frameLevels p₂ [y₂, x₂] ++ (frameLevels p₃ (y₃ :: ins) ++
      (frameLevels p₄ [y₄, t₁, t₂] ++ (frameLevels p₅ [y₅] ++ r)))) →
    (∀ p ∈ [p₁, p₂, p₃, p₄, p₅], admits s.cfg p = true) →
    let count : Byte := s.cfg.addrRxBytes.setWidth 8 ||| s.cfg.statusModeFlags
    let fifo : Byte := s.cfg.addrRxFifo.setWidth 8
    let sfrx : Byte := s.cfg.cmdSfrx.setWidth 8
    let es :=
      frameEvents p₁ (xferEvents count y₁ ++ xferEvents 0#8 x₁) ++
      frameEvents p₂ (xferEvents (fifo ||| 0x80#8) y₂ ++ xferEvents 0#8 x₂) ++
      frameEvents p₃ (xferEvents (fifo ||| 0xC0#8) y₃ ++ burstInEvents 0 ins) ++
      frameEvents p₄ (xferEvents (fifo ||| 0xC0#8) y₄ ++ xferEvents 0#8 t₁ ++ xferEvents 0#8 t₂) ++
      frameEvents p₅ (xferEvents sfrx y₅)
    es.length < s.grant →
    ∃ k j, exec (.recv xa xn) s =
      .next (State.ended
        { s.framed sfrx p₅ [(sfrx, y₅)] r with
          rxc := x₁, len := x₂, cnt := 2#8, idx := k, bitcnt := j, drain := t₂, hb := s.hb.fill 0 ins }
        s (encode (.recv xa xn)) es .ok (some x₂))

/-- R186, R187: RECV with nothing queued: the count, the flush, result 0; `HB` untouched. -/
def Obligations.RecvEmpty : Prop :=
  ∀ (s : State) (xa xn : Byte) (p₁ p₂ : Nat) (y₁ x₁ y₂ : Byte) (r : List Level),
    Accepts s → x₁ &&& s.cfg.rxBytesMask = 0#8 →
    s.dataIn = frameLevels p₁ [y₁, x₁] ++ (frameLevels p₂ [y₂] ++ r) →
    admits s.cfg p₁ = true → admits s.cfg p₂ = true → p₁ + p₂ + 199 ≤ s.grant →
    let count : Byte := s.cfg.addrRxBytes.setWidth 8 ||| s.cfg.statusModeFlags
    let sfrx : Byte := s.cfg.cmdSfrx.setWidth 8
    ∃ j, exec (.recv xa xn) s =
      .next (State.ended { s.framed sfrx p₂ [(sfrx, y₂)] r with rxc := x₁, bitcnt := j } s (encode (.recv xa xn))
        (frameEvents p₁ (xferEvents count y₁ ++ xferEvents 0#8 x₁) ++ frameEvents p₂ (xferEvents sfrx y₂)) .ok (some 0x00#8))

/-- R204: a RECV whose ready wait gives up in the trailer's frame ends there, the flush left out; the payload stays written. -/
def Obligations.RecvTrailerTimeout : Prop :=
  ∀ (s : State) (xa xn : Byte) (p₁ p₂ p₃ k : Nat) (y₁ x₁ y₂ x₂ y₃ : Byte) (ins : List Byte) (r : List Level),
    Accepts s → x₁ &&& s.cfg.rxBytesMask ≠ 0#8 → ins.length = x₂.toNat → s.cfg.pollBound = some k →
    s.dataIn = frameLevels p₁ [y₁, x₁] ++ (frameLevels p₂ [y₂, x₂] ++ (frameLevels p₃ (y₃ :: ins) ++
      (List.replicate k true ++ r))) →
    (∀ p ∈ [p₁, p₂, p₃], admits s.cfg p = true) →
    let count : Byte := s.cfg.addrRxBytes.setWidth 8 ||| s.cfg.statusModeFlags
    let fifo : Byte := s.cfg.addrRxFifo.setWidth 8
    let es :=
      frameEvents p₁ (xferEvents count y₁ ++ xferEvents 0#8 x₁) ++
      frameEvents p₂ (xferEvents (fifo ||| 0x80#8) y₂ ++ xferEvents 0#8 x₂) ++
      frameEvents p₃ (xferEvents (fifo ||| 0xC0#8) y₃ ++ burstInEvents 0 ins) ++ lateEvents k
    es.length < s.grant →
    ∃ j i, exec (.recv xa xn) s =
      .next (State.ended
        { (s.framed (fifo ||| 0xC0#8) p₃ ((fifo ||| 0xC0#8, y₃) :: ins.map (0#8, ·)) r).late k r with
          rxc := x₁, len := x₂, cnt := 2#8, idx := j, bitcnt := i, hb := s.hb.fill 0 ins }
        s (encode (.recv xa xn)) es .timeout none)

/-- R186, R204: a RECV whose ready wait gives up in the frame of the count, of the length, of the payload or of the flush (behind a
payload or with nothing queued) ends there; a payload already in `HB` stays written. (`RecvTrailerTimeout` is the trailer's.) -/
def Obligations.RecvTimeout : Prop :=
  ∀ (s : State) (xa xn : Byte) (k p₁ p₂ p₃ p₄ : Nat) (y₁ x₁ y₂ x₂ y₃ y₄ t₁ t₂ : Byte) (ins : List Byte) (r : List Level),
    Accepts s → s.cfg.pollBound = some k →
    let count : Byte := s.cfg.addrRxBytes.setWidth 8 ||| s.cfg.statusModeFlags
    let fifo : Byte := s.cfg.addrRxFifo.setWidth 8
    let sfrx : Byte := s.cfg.cmdSfrx.setWidth 8
    let w := encode (.recv xa xn)
    let countFrame := frameEvents p₁ (xferEvents count y₁ ++ xferEvents 0#8 x₁)
    let lengthFrame := frameEvents p₂ (xferEvents (fifo ||| 0x80#8) y₂ ++ xferEvents 0#8 x₂)
    let payloadFrame := frameEvents p₃ (xferEvents (fifo ||| 0xC0#8) y₃ ++ burstInEvents 0 ins)
    let trailerFrame := frameEvents p₄ (xferEvents (fifo ||| 0xC0#8) y₄ ++ xferEvents 0#8 t₁ ++ xferEvents 0#8 t₂)
    let late := List.replicate k true
    (s.dataIn = late ++ r → k + 3 ≤ s.grant →
      exec (.recv xa xn) s = .next (State.ended { s.late k r with hdr := count } s w (lateEvents k) .timeout none)) ∧
    (s.dataIn = frameLevels p₁ [y₁, x₁] ++ (late ++ r) → admits s.cfg p₁ = true →
      (countFrame ++ lateEvents k).length < s.grant →
      ∃ j, exec (.recv xa xn) s =
        .next (State.ended
          { (s.framed count p₁ [(count, y₁), (0#8, x₁)] r).late k r with
            hdr := if x₁ &&& s.cfg.rxBytesMask = 0#8 then sfrx else fifo ||| 0x80#8, rxc := x₁, bitcnt := j }
          s w (countFrame ++ lateEvents k) .timeout none)) ∧
    (x₁ &&& s.cfg.rxBytesMask ≠ 0#8 →
      s.dataIn = frameLevels p₁ [y₁, x₁] ++ (frameLevels p₂ [y₂, x₂] ++ (late ++ r)) → (∀ p ∈ [p₁, p₂], admits s.cfg p = true) →
      (countFrame ++ lengthFrame ++ lateEvents k).length < s.grant →
      ∃ i j, exec (.recv xa xn) s =
        .next (State.ended
          { (s.framed (fifo ||| 0x80#8) p₂ [(fifo ||| 0x80#8, y₂), (0#8, x₂)] r).late k r with
            hdr := fifo ||| 0xC0#8, rxc := x₁, len := x₂, cnt := x₂, idx := i, bitcnt := j }
          s w (countFrame ++ lengthFrame ++ lateEvents k) .timeout none)) ∧
    (x₁ &&& s.cfg.rxBytesMask ≠ 0#8 → ins.length = x₂.toNat →
      s.dataIn = frameLevels p₁ [y₁, x₁] ++ (frameLevels p₂ [y₂, x₂] ++ (frameLevels p₃ (y₃ :: ins) ++
        (frameLevels p₄ [y₄, t₁, t₂] ++ (late ++ r)))) →
      (∀ p ∈ [p₁, p₂, p₃, p₄], admits s.cfg p = true) →
      let es := countFrame ++ lengthFrame ++ payloadFrame ++ trailerFrame ++ lateEvents k
      es.length < s.grant →
      ∃ i j, exec (.recv xa xn) s =
        .next (State.ended
          { (s.framed (fifo ||| 0xC0#8) p₄ [(fifo ||| 0xC0#8, y₄), (0#8, t₁), (0#8, t₂)] r).late k r with
            hdr := sfrx, rxc := x₁, len := x₂, cnt := 2#8, idx := i, bitcnt := j, drain := t₂, hb := s.hb.fill 0 ins }
          s w es .timeout none))

/-! ### What commands leave alone -/

/-- R95: the fields marked "-" are ignored: a command that differs only in them leaves the same, the latched word apart. -/
def Obligations.IgnoredFields : Prop :=
  ∀ (s t : State) (a n b m : Byte) (i j : Instr),
    (i, j) ∈ ([(.xfer a n, .xfer a m), (.rreg a n, .rreg a m), (.strobe a n, .strobe a m), (.rstat a n, .rstat a m),
      (.reset a n, .reset b m), (.configure a n, .configure a m), (.send a n, .send b n), (.setrx a n, .setrx b m),
      (.chkrx a n, .chkrx b m), (.recv a n, .recv b m)] : List (Instr × Instr)) →
    exec i s = .next t → exec j s = .next { t with cmd := encode j }

/-- R34, R38, R51, R95, R208: what a command leaves alone, however far it has run when its turn ends. Only RBURST and RECV write
`HB`, RBURST no byte at or above its count, RECV none at or above its length (R71); `OPSTATE` is `Configuring`, `Sending` (a SEND of at
most 61 bytes) or `Receiving` from the first action of its operation to the completion, and `Idle` otherwise (T29; that it is still `Idle` between acceptance and the first action, with a grant of 0, is the
model's choice for SEND and RECV, log entry 8); only SEND and CHKRX sample `DONE`; only
SEND and RECV write `LEN`, only RECV `RXC` and `DRAIN`, only CONFIGURE the table registers; CHKRX drives no line and XFER no
chip-select; none writes the configuration or the host's side. -/
def Obligations.OperationFrame : Prop :=
  ∀ (i : Instr) (s t : State), s.opstate = .idle → s.chipSelect = true → exec i s = .next t →
    t.cfg = s.cfg ∧ t.host = s.host ∧ t.hostData = s.hostData ∧
    (match i with | .rburst _ _ | .recv _ _ => True | _ => t.hb = s.hb) ∧
    (∀ a n, i = .rburst a n → ∀ k, n.toNat ≤ k → t.hb.read k = s.hb.read k) ∧
    (∀ a n, i = .recv a n → ∀ k, t.len.toNat ≤ k → t.hb.read k = s.hb.read k) ∧
    (t.opstate =
      if t.busy = true ∧ 0 < s.grant then
        match i with
        | .configure _ _ => .configuring
        | .send _ n => if n.toNat ≤ 61 then .sending else .idle
        | .recv _ _ => .receiving
        | _ => .idle
      else .idle) ∧
    (match i with
      | .send _ _ | .chkrx _ _ => True
      | _ => t.done = s.done ∧ ∃ es, t.trace = s.trace ++ es ∧ ∀ b, Event.read .done b ∉ es) ∧
    (match i with | .send _ _ | .recv _ _ => True | _ => t.len = s.len) ∧
    (match i with | .recv _ _ => True | _ => t.rxc = s.rxc ∧ t.drain = s.drain) ∧
    (match i with | .configure _ _ => True | _ => t.tblidx = s.tblidx ∧ t.bandsel = s.bandsel) ∧
    (match i with
      | .chkrx _ _ => t.clock = s.clock ∧ t.dataOut = s.dataOut ∧ t.chipSelect = s.chipSelect
      | .xfer _ _ => t.chipSelect = s.chipSelect
      | _ => True)

/-! ### The host port and the buffer -/

/-- R39, R38, R50: the host reads `CSR` as `BUSY` at bit 7, `OPSTATE` at 6:5, 0 at 4:3, `STATUS` at 2:0, and `RESULT` as it is; its
writes to registers 1 and 2, and to those that do not exist, have no effect; a read of register 0 or of one that does not exist
returns some value and changes nothing of the block. -/
def Obligations.HostRegisters : Prop :=
  ∀ (s t : State) (k : Nat) (w : CmdWord),
    let o : Nat := match s.opstate with | .idle => 0 | .configuring => 1 | .sending => 2 | .receiving => 3
    let c : Nat := match s.status with | .ok => 0 | .timeout => 1 | .illegalOp => 2 | .badAddr => 3 | .lenReject => 4
    (HostMoves s (.readReg 1) t →
      step s = .next { t with hostData := BitVec.ofNat 24 ((if s.busy then 128 else 0) + 32 * o + c) }) ∧
    (HostMoves s (.readReg 2) t → step s = .next { t with hostData := BitVec.ofNat 24 s.result.toNat }) ∧
    (HostMoves s (.readReg k) t → k ≠ 1 → k ≠ 2 → ∃ v d, step s = .next { t with hostData := v, draws := d }) ∧
    (HostMoves s (.writeReg k w) t → k ≠ 0 → step s = .next t)

/-- R76, R49, R82, V5, V6: the host's accesses to `HB`. A write changes that byte and no other; while `BUSY = 1` what the byte held is
kept beside it, in the model's own list, for a `MemRead` still to come (log entry 7; `MemReadAction` says which byte is sent). A read
returns what is there, or some value where the byte holds none (log entry 9). While `BUSY = 1` a byte that an RBURST or RECV in progress
fills reads as some value; every byte that is not being filled reads as it is: all those of any other operation, those from `N` on of an
RBURST, of a RECV those from `LEN` on once the length is read (its last place completes with `LEN` and no place still loads it), an abort
after that included; all of them in its branch with nothing queued (its last place completes with 0) and in an abort before the length is
read; and `HB[255]`, which no length reaches. -/
def Obligations.HostBuffer : Prop :=
  ∀ (s t : State) (i v : Byte),
    (HostMoves s (.writeHb i v) t →
      ∃ m, m.read i.toNat = some v ∧ (∀ k, k ≠ i.toNat → m.read k = s.hb.read k) ∧
        (s.busy = false → step s = .next { t with hb := m }) ∧
        (s.busy = true → step s = .next { t with hb := m, stale := (i.toNat, s.hb.read i.toNat) :: s.stale })) ∧
    (HostMoves s (.readHb i) t →
      let asItIs : Prop := ∀ d, s.hb.read i.toNat = some d → step s = .next { t with hostData := BitVec.ofNat 24 d.toNat }
      (∃ x k, step s = .next { t with hostData := x, draws := k }) ∧
      (s.busy = false → asItIs) ∧
      ((∀ a n, decode s.cmd ≠ .ok (.rburst a n)) → (∀ a n, decode s.cmd ≠ .ok (.recv a n)) → asItIs) ∧
      (∀ a n, decode s.cmd = .ok (.rburst a n) → n.toNat ≤ i.toNat → asItIs) ∧
      (∀ a n, decode s.cmd = .ok (.recv a n) →
        (s.seq.getLast? = some (.act [] (.complete .ok .len)) → (∀ m ∈ s.seq, Transfer.lenFromRxb ∉ m.transfers) →
          s.len.toNat ≤ i.toNat → asItIs) ∧
        (s.seq.getLast? = some (.act [] (.complete .ok (.imm 0x00#8))) → asItIs) ∧
        (.act [] (.complete .timeout .unchanged) ∈ s.seq →
          (s.seq.getLast? ≠ some (.act [] (.complete .ok .len)) ∨ ∃ m ∈ s.seq, Transfer.lenFromRxb ∈ m.transfers) → asItIs) ∧
        (i = 255#8 → asItIs)))

/-- The canonical form of `HB` (log entry 5): equal contents are equal data, and a write keeps the form. -/
def Obligations.HbCanonical : Prop :=
  ∀ m m' : Memory, m.wf = true → m'.wf = true →
    ((∀ k, m.read k = m'.read k) → m = m') ∧ (∀ i v, i < 256 → (m.write i v).wf = true)

/-- R148: after the bytes `ds` have been written from index 0 on, byte `k` below their number is the `k`-th of them, and every other
byte is as before. -/
def Obligations.HbFill : Prop :=
  ∀ (m : Memory) (ds : List Byte) (k : Nat),
    (m.fill 0 ds).read k = if h : k < ds.length then some ds[k] else m.read k

/-! ### Invariants of every step -/

/-- R34, R43, R79, R126, R144, R153, R241, R242: every step keeps the framing discipline. In the whole trace a frame's first transfer
begins directly after a ready sample, a transfer is its eight bits whole with chip-select unmoved, and no frame begins inside another
(XFER's transfer, asked for by the host, stands outside a frame); an idle block is at its idle levels. The canonical form of `HB` is the
model's (log entry 5), and so are what stands at `SEQ` and `BITCNT`'s place in a transfer (log entries 4, 8). -/
def Obligations.FramingInvariant : Prop := ∀ s s' : State, Inv s → step s = .next s' → Inv s'

/-- R34, R165, R170, R175, R177, R186: `OPSTATE` is `Idle` whenever `BUSY = 0`, and every step keeps the invariant that it is that of the
operation in progress or is set by its next action (between acceptance and the first action it is still `Idle`, log entry 8). A block that
is busy after a step that took an action has it at `Configuring`, `Sending` (of at most 61 bytes), `Receiving` or `Idle` as `opStateFor`
reads off the latched command. -/
def Obligations.OpStateInvariant : Prop :=
  ∀ s s' : State, OpStateInv s → step s = .next s' →
    OpStateInv s' ∧ (s'.busy = true → s'.trace ≠ s.trace → s'.opstate = opStateFor s'.cmd)

/-- R212: with unbounded waits no step ends an operation with `TIMEOUT`. -/
def Obligations.NoTimeoutInvariant : Prop := ∀ s s' : State, NoTimeoutInv s → step s = .next s' → NoTimeoutInv s'

/-- From a state of the framing invariant the machine never stops with its own fault (log entry 15): a busy block always has a
move (R14), and refusals are only the named ones. -/
def Obligations.NeverLost : Prop := ∀ s : State, Inv s → ∀ f, step s ≠ .fault f

/-! ### Fairness and termination -/

/-- R261, D27: weak fairness of the controller. A busy block's controller acts within as many steps as `turns` has entries and one more
(the step granularity is the model's, log entry 1): it is held by nothing but its own waits, whose samples are actions too. -/
def Obligations.ControllerFairness : Prop :=
  ∀ s t : State, s.busy = true → Host.Core.run Sys2Proof.core (s.turns.length + 1) s = .next t → ∃ e es, t.trace = s.trace ++ e :: es

/-- R261, R256, R257: termination rests on the environment alone. An accepted command, the bytes it sends being written (R237), ends: with
unbounded waits if and only if the environment keeps READY_EVENTUALLY and DONE_PULSE, that is, each of its waits is answered; with a bound
whatever the environment does. (The host makes no move meanwhile and no turn of its own, log entry 1.) -/
def Obligations.Termination : Prop :=
  ∀ (i : Instr) (s t : State), Accepts s → s.host = [] → s.turns = [] → (∀ k, k < bytesSent i → s.hb.read k ≠ none) →
    exec i s = .next t →
    (s.cfg.pollBound = none → (Ends t ↔ ReadyEventually t ∧ DonePulse t)) ∧ (s.cfg.pollBound ≠ none → Ends t)
end

