-- ==== Sys2Proof/Laws/Encoding.lean ====
section
/-! SUPPORT. The fields of a command word: what the encoder puts where, and that a word is its three fields. -/

namespace Sys2Proof

theorem opField_append (o a n : Byte) : opField (o ++ a ++ n : BitVec (8 + 8 + 8)) = o := by
  refine BitVec.eq_of_getLsbD_eq fun i hi => ?_
  have h1 : ¬ 16 + i < 8 := by omega
  have h2 : ¬ 16 + i - 8 < 8 := by omega
  have h3 : 16 + i - 8 - 8 = i := by omega
  simp only [opField, BitVec.getLsbD_append, BitVec.getLsbD_extractLsb', h1, h2, h3, hi, decide_true, Bool.true_and,
    if_false]

theorem aField_append (o a n : Byte) : aField (o ++ a ++ n : BitVec (8 + 8 + 8)) = a := by
  refine BitVec.eq_of_getLsbD_eq fun i hi => ?_
  have h1 : ¬ 8 + i < 8 := by omega
  have h2 : 8 + i - 8 = i := by omega
  simp only [aField, BitVec.getLsbD_append, BitVec.getLsbD_extractLsb', h1, h2, hi, decide_true, Bool.true_and,
    if_false, if_true]

theorem nField_append (o a n : Byte) : nField (o ++ a ++ n : BitVec (8 + 8 + 8)) = n := by
  refine BitVec.eq_of_getLsbD_eq fun i hi => ?_
  simp only [nField, BitVec.getLsbD_append, BitVec.getLsbD_extractLsb', Nat.zero_add, hi, decide_true, Bool.true_and,
    if_true]

@[simp] theorem opField_encode (i : Instr) : opField (encode i) = opcode i := opField_append ..
@[simp] theorem aField_encode (i : Instr) : aField (encode i) = (operands i).1 := aField_append ..
@[simp] theorem nField_encode (i : Instr) : nField (encode i) = (operands i).2 := nField_append ..

/-- A word is determined by its three fields. -/
theorem word_eq_fields (w : CmdWord) : w = (opField w ++ aField w ++ nField w : BitVec (8 + 8 + 8)) := by
  refine BitVec.eq_of_getLsbD_eq fun i hi => ?_
  simp only [opField, aField, nField, BitVec.getLsbD_append, BitVec.getLsbD_extractLsb']
  by_cases h1 : i < 8
  · simp [h1]
  · by_cases h2 : i - 8 < 8
    · simp [h1, h2]; congr 1; omega
    · have : i - 8 - 8 < 8 := by omega
      simp [h1, h2, this]; congr 1; omega

end Sys2Proof
end

