-- ==== Sys2Proof/Laws/Memory.lean ====
section
/-! SUPPORT. The laws of `HB`: read after write, that every operation keeps the canonical form, and which bytes a RECV fills. -/

namespace Sys2Proof.Machine

@[simp] theorem Memory.read_nil (i : Nat) : Memory.read [] i = none := rfl

@[simp] theorem Memory.read_write_same (m : Memory) (i : Nat) (v : Byte) : (m.write i v).read i = some v := by
  induction m with
  | nil => simp [Memory.write, Memory.read]
  | cons c rest ih =>
    obtain ⟨a, w⟩ := c
    simp only [Memory.write]
    split
    · simp [Memory.read]
    · split
      · simp [Memory.read]
      · rename_i h1 h2
        simp [Memory.read, Ne.symm h2, ih]

theorem Memory.read_write_other (m : Memory) (i j : Nat) (v : Byte) (h : j ≠ i) : (m.write i v).read j = m.read j := by
  induction m with
  | nil => simp [Memory.write, Memory.read, Ne.symm h]
  | cons c rest ih =>
    obtain ⟨a, w⟩ := c
    simp only [Memory.write]
    split
    · simp [Memory.read, Ne.symm h]
    · split
      · rename_i h1 h2; subst h2; simp [Memory.read, Ne.symm h]
      · simp [Memory.read, ih]

/-- The addresses after a write are the old ones and the one written. -/
theorem Memory.mem_write (m : Memory) (i : Nat) (v : Byte) (c : Host.Cell) (h : c ∈ m.write i v) : c ∈ m ∨ c.1 = i := by
  induction m with
  | nil => simp [Memory.write] at h; simp [h]
  | cons d rest ih =>
    obtain ⟨a, w⟩ := d
    simp only [Memory.write] at h
    split at h
    · rcases List.mem_cons.1 h with h | h
      · simp [h]
      · exact .inl h
    · split at h
      · rcases List.mem_cons.1 h with h | h
        · simp [h]
        · exact .inl (List.mem_cons_of_mem _ h)
      · rcases List.mem_cons.1 h with h | h
        · simp [h]
        · rcases ih h with h | h
          · exact .inl (List.mem_cons_of_mem _ h)
          · exact .inr h

/-- A write keeps the canonical form. -/
theorem Memory.write_wf (m : Memory) (i : Nat) (v : Byte) (hi : i < 256) (h : m.wf = true) : (m.write i v).wf = true := by
  induction m with
  | nil => simp [Memory.write, Memory.wf, hi]
  | cons d rest ih =>
    obtain ⟨a, w⟩ := d
    simp only [Memory.wf, Bool.and_eq_true, decide_eq_true_eq, List.all_eq_true] at h
    obtain ⟨⟨ha, hall⟩, hrest⟩ := h
    simp only [Memory.write]
    split
    · rename_i hlt
      simp only [Memory.wf, Bool.and_eq_true, decide_eq_true_eq, List.all_eq_true]
      refine ⟨⟨hi, fun c hc => ?_⟩, ⟨ha, hall⟩, hrest⟩
      rcases List.mem_cons.1 hc with rfl | hc
      · exact hlt
      · exact lt_trans hlt (hall c hc)
    · split
      · rename_i heq
        simp only [Memory.wf, Bool.and_eq_true, decide_eq_true_eq, List.all_eq_true]
        exact ⟨⟨hi, fun c hc => heq ▸ hall c hc⟩, hrest⟩
      · simp only [Memory.wf, Bool.and_eq_true, decide_eq_true_eq, List.all_eq_true]
        refine ⟨⟨ha, fun c hc => ?_⟩, ih hrest⟩
        rcases Memory.mem_write rest i v c hc with hc | hc
        · exact hall c hc
        · omega

@[simp] theorem Memory.reset_wf : State.reset.hb.wf = true := rfl

/-- A byte below the ones filled reads as before. -/
theorem Memory.read_fill_below (ds : List Byte) (m : Memory) (i j : Nat) (h : j < i) : (m.fill i ds).read j = m.read j := by
  induction ds generalizing m i with
  | nil => rfl
  | cons d ds ih => rw [Memory.fill, ih _ _ (by omega), Memory.read_write_other _ _ _ _ (by omega)]

/-- A byte above the ones filled reads as before. -/
theorem Memory.read_fill_above (ds : List Byte) (m : Memory) (i j : Nat) (h : i + ds.length ≤ j) :
    (m.fill i ds).read j = m.read j := by
  induction ds generalizing m i with
  | nil => rfl
  | cons d ds ih =>
    simp only [List.length_cons] at h
    rw [Memory.fill, ih _ _ (by omega), Memory.read_write_other _ _ _ _ (by omega)]

/-- A byte that was filled holds its value. -/
theorem Memory.fill_holds (ds : List Byte) (m : Memory) (i : Nat) : (m.fill i ds).Holds i ds := by
  induction ds generalizing m i with
  | nil => trivial
  | cons d ds ih =>
    refine ⟨?_, ih _ _⟩
    rw [Memory.fill, Memory.read_fill_below _ _ _ _ (by omega), Memory.read_write_same]

/-- Filling within the buffer keeps the canonical form. -/
theorem Memory.fill_wf (ds : List Byte) (m : Memory) (i : Nat) (hi : i + ds.length ≤ 256) (h : m.wf = true) :
    (m.fill i ds).wf = true := by
  induction ds generalizing m i with
  | nil => exact h
  | cons d ds ih =>
    simp only [List.length_cons] at hi
    exact ih _ _ (by omega) (Memory.write_wf _ _ _ (by omega) h)

/-! ### What a RECV in progress fills (R76), case by case -/

/-- The length is read: `LEN` bytes, an abort or not. -/
theorem recvFills_read {s : State} (h : s.seq.getLast? = some (.act [] (.complete .ok .len)))
    (hl : ∀ m ∈ s.seq, Transfer.lenFromRxb ∉ m.transfers) : recvFills s = s.len.toNat := by
  have : s.seq.any (·.transfers.contains .lenFromRxb) = false := by simpa using hl
  simp only [recvFills, h, this]

/-- Nothing is queued: none. -/
theorem recvFills_empty {s : State} {b : Byte} (h : s.seq.getLast? = some (.act [] (.complete .ok (.imm b)))) : recvFills s = 0 := by
  simp only [recvFills, h]

/-- Given up before the length is read: none. -/
theorem recvFills_aborted {s : State} (h : .act [] (.complete .timeout .unchanged) ∈ s.seq)
    (hl : s.seq.getLast? ≠ some (.act [] (.complete .ok .len)) ∨ ∃ m ∈ s.seq, Transfer.lenFromRxb ∈ m.transfers) : recvFills s = 0 := by
  have : s.seq.contains (.act [] (.complete .timeout .unchanged)) = true := by simpa using h
  simp only [recvFills, this]
  split
  · rename_i h1 h2
    rcases hl with hl | hl
    · exact absurd h1 hl
    · have : s.seq.any (·.transfers.contains .lenFromRxb) = true := by simpa using hl
      rw [this] at h2; cases h2
  · rfl
  · rfl
  · contradiction

/-- Never more than a length can be. -/
theorem recvFills_le (s : State) : recvFills s ≤ 255 := by
  simp only [recvFills]
  have := s.len.isLt
  split <;> omega

end Sys2Proof.Machine
end

