-- ==== Sys2Proof/Laws/State.lean ====
section
/-! SUPPORT. One lemma per field and update: what each shared update of State leaves in each field. -/

namespace Sys2Proof.Machine

variable (s : State)

/-! ### `emit`: only `TRACE` changes -/

@[simp] theorem emit_clock (e : Event) : (s.emit e).clock = s.clock := rfl
@[simp] theorem emit_dataOut (e : Event) : (s.emit e).dataOut = s.dataOut := rfl
@[simp] theorem emit_chipSelect (e : Event) : (s.emit e).chipSelect = s.chipSelect := rfl
@[simp] theorem emit_txb (e : Event) : (s.emit e).txb = s.txb := rfl
@[simp] theorem emit_rxb (e : Event) : (s.emit e).rxb = s.rxb := rfl
@[simp] theorem emit_bitcnt (e : Event) : (s.emit e).bitcnt = s.bitcnt := rfl
@[simp] theorem emit_hdr (e : Event) : (s.emit e).hdr = s.hdr := rfl
@[simp] theorem emit_cnt (e : Event) : (s.emit e).cnt = s.cnt := rfl
@[simp] theorem emit_idx (e : Event) : (s.emit e).idx = s.idx := rfl
@[simp] theorem emit_len (e : Event) : (s.emit e).len = s.len := rfl
@[simp] theorem emit_rxc (e : Event) : (s.emit e).rxc = s.rxc := rfl
@[simp] theorem emit_drain (e : Event) : (s.emit e).drain = s.drain := rfl
@[simp] theorem emit_pollcnt (e : Event) : (s.emit e).pollcnt = s.pollcnt := rfl
@[simp] theorem emit_tblidx (e : Event) : (s.emit e).tblidx = s.tblidx := rfl
@[simp] theorem emit_bandsel (e : Event) : (s.emit e).bandsel = s.bandsel := rfl
@[simp] theorem emit_seq (e : Event) : (s.emit e).seq = s.seq := rfl
@[simp] theorem emit_busy (e : Event) : (s.emit e).busy = s.busy := rfl
@[simp] theorem emit_opstate (e : Event) : (s.emit e).opstate = s.opstate := rfl
@[simp] theorem emit_status (e : Event) : (s.emit e).status = s.status := rfl
@[simp] theorem emit_result (e : Event) : (s.emit e).result = s.result := rfl
@[simp] theorem emit_cmd (e : Event) : (s.emit e).cmd = s.cmd := rfl
@[simp] theorem emit_hb (e : Event) : (s.emit e).hb = s.hb := rfl
@[simp] theorem emit_trace (e : Event) : (s.emit e).trace = s.trace ++ [e] := rfl
@[simp] theorem emit_cfg (e : Event) : (s.emit e).cfg = s.cfg := rfl
@[simp] theorem emit_dataIn (e : Event) : (s.emit e).dataIn = s.dataIn := rfl
@[simp] theorem emit_done (e : Event) : (s.emit e).done = s.done := rfl
@[simp] theorem emit_draws (e : Event) : (s.emit e).draws = s.draws := rfl
@[simp] theorem emit_host (e : Event) : (s.emit e).host = s.host := rfl
@[simp] theorem emit_hostData (e : Event) : (s.emit e).hostData = s.hostData := rfl
@[simp] theorem emit_stale (e : Event) : (s.emit e).stale = s.stale := rfl
@[simp] theorem emit_turns (e : Event) : (s.emit e).turns = s.turns := rfl

/-! ### `drive`: only the line changes -/

@[simp] theorem drive_clock_clock (v : Level) : (s.drive .clock v).clock = v := rfl
@[simp] theorem drive_clock_dataOut (v : Level) : (s.drive .clock v).dataOut = s.dataOut := rfl
@[simp] theorem drive_clock_chipSelect (v : Level) : (s.drive .clock v).chipSelect = s.chipSelect := rfl
@[simp] theorem drive_dataOut_clock (v : Level) : (s.drive .dataOut v).clock = s.clock := rfl
@[simp] theorem drive_dataOut_dataOut (v : Level) : (s.drive .dataOut v).dataOut = v := rfl
@[simp] theorem drive_dataOut_chipSelect (v : Level) : (s.drive .dataOut v).chipSelect = s.chipSelect := rfl
@[simp] theorem drive_chipSelect_clock (v : Level) : (s.drive .chipSelect v).clock = s.clock := rfl
@[simp] theorem drive_chipSelect_dataOut (v : Level) : (s.drive .chipSelect v).dataOut = s.dataOut := rfl
@[simp] theorem drive_chipSelect_chipSelect (v : Level) : (s.drive .chipSelect v).chipSelect = v := rfl
@[simp] theorem drive_txb (l : DrivenLine) (v : Level) : (s.drive l v).txb = s.txb := by cases l <;> rfl
@[simp] theorem drive_rxb (l : DrivenLine) (v : Level) : (s.drive l v).rxb = s.rxb := by cases l <;> rfl
@[simp] theorem drive_bitcnt (l : DrivenLine) (v : Level) : (s.drive l v).bitcnt = s.bitcnt := by cases l <;> rfl
@[simp] theorem drive_hdr (l : DrivenLine) (v : Level) : (s.drive l v).hdr = s.hdr := by cases l <;> rfl
@[simp] theorem drive_cnt (l : DrivenLine) (v : Level) : (s.drive l v).cnt = s.cnt := by cases l <;> rfl
@[simp] theorem drive_idx (l : DrivenLine) (v : Level) : (s.drive l v).idx = s.idx := by cases l <;> rfl
@[simp] theorem drive_len (l : DrivenLine) (v : Level) : (s.drive l v).len = s.len := by cases l <;> rfl
@[simp] theorem drive_rxc (l : DrivenLine) (v : Level) : (s.drive l v).rxc = s.rxc := by cases l <;> rfl
@[simp] theorem drive_drain (l : DrivenLine) (v : Level) : (s.drive l v).drain = s.drain := by cases l <;> rfl
@[simp] theorem drive_pollcnt (l : DrivenLine) (v : Level) : (s.drive l v).pollcnt = s.pollcnt := by cases l <;> rfl
@[simp] theorem drive_tblidx (l : DrivenLine) (v : Level) : (s.drive l v).tblidx = s.tblidx := by cases l <;> rfl
@[simp] theorem drive_bandsel (l : DrivenLine) (v : Level) : (s.drive l v).bandsel = s.bandsel := by cases l <;> rfl
@[simp] theorem drive_seq (l : DrivenLine) (v : Level) : (s.drive l v).seq = s.seq := by cases l <;> rfl
@[simp] theorem drive_busy (l : DrivenLine) (v : Level) : (s.drive l v).busy = s.busy := by cases l <;> rfl
@[simp] theorem drive_opstate (l : DrivenLine) (v : Level) : (s.drive l v).opstate = s.opstate := by cases l <;> rfl
@[simp] theorem drive_status (l : DrivenLine) (v : Level) : (s.drive l v).status = s.status := by cases l <;> rfl
@[simp] theorem drive_result (l : DrivenLine) (v : Level) : (s.drive l v).result = s.result := by cases l <;> rfl
@[simp] theorem drive_cmd (l : DrivenLine) (v : Level) : (s.drive l v).cmd = s.cmd := by cases l <;> rfl
@[simp] theorem drive_hb (l : DrivenLine) (v : Level) : (s.drive l v).hb = s.hb := by cases l <;> rfl
@[simp] theorem drive_trace (l : DrivenLine) (v : Level) : (s.drive l v).trace = s.trace := by cases l <;> rfl
@[simp] theorem drive_cfg (l : DrivenLine) (v : Level) : (s.drive l v).cfg = s.cfg := by cases l <;> rfl
@[simp] theorem drive_dataIn (l : DrivenLine) (v : Level) : (s.drive l v).dataIn = s.dataIn := by cases l <;> rfl
@[simp] theorem drive_done (l : DrivenLine) (v : Level) : (s.drive l v).done = s.done := by cases l <;> rfl
@[simp] theorem drive_draws (l : DrivenLine) (v : Level) : (s.drive l v).draws = s.draws := by cases l <;> rfl
@[simp] theorem drive_host (l : DrivenLine) (v : Level) : (s.drive l v).host = s.host := by cases l <;> rfl
@[simp] theorem drive_hostData (l : DrivenLine) (v : Level) : (s.drive l v).hostData = s.hostData := by cases l <;> rfl
@[simp] theorem drive_stale (l : DrivenLine) (v : Level) : (s.drive l v).stale = s.stale := by cases l <;> rfl
@[simp] theorem drive_turns (l : DrivenLine) (v : Level) : (s.drive l v).turns = s.turns := by cases l <;> rfl

/-! ### `sense` and `readLine`: only the environment's lists, the counter and `TRACE` change -/

@[simp] theorem sense_clock (l : SensedLine) : (sense s l).2.clock = s.clock := by cases l <;> simp only [sense] <;> split <;> rfl
@[simp] theorem sense_dataOut (l : SensedLine) : (sense s l).2.dataOut = s.dataOut := by cases l <;> simp only [sense] <;> split <;> rfl
@[simp] theorem sense_chipSelect (l : SensedLine) : (sense s l).2.chipSelect = s.chipSelect := by cases l <;> simp only [sense] <;> split <;> rfl
@[simp] theorem sense_txb (l : SensedLine) : (sense s l).2.txb = s.txb := by cases l <;> simp only [sense] <;> split <;> rfl
@[simp] theorem sense_rxb (l : SensedLine) : (sense s l).2.rxb = s.rxb := by cases l <;> simp only [sense] <;> split <;> rfl
@[simp] theorem sense_bitcnt (l : SensedLine) : (sense s l).2.bitcnt = s.bitcnt := by cases l <;> simp only [sense] <;> split <;> rfl
@[simp] theorem sense_hdr (l : SensedLine) : (sense s l).2.hdr = s.hdr := by cases l <;> simp only [sense] <;> split <;> rfl
@[simp] theorem sense_cnt (l : SensedLine) : (sense s l).2.cnt = s.cnt := by cases l <;> simp only [sense] <;> split <;> rfl
@[simp] theorem sense_idx (l : SensedLine) : (sense s l).2.idx = s.idx := by cases l <;> simp only [sense] <;> split <;> rfl
@[simp] theorem sense_len (l : SensedLine) : (sense s l).2.len = s.len := by cases l <;> simp only [sense] <;> split <;> rfl
@[simp] theorem sense_rxc (l : SensedLine) : (sense s l).2.rxc = s.rxc := by cases l <;> simp only [sense] <;> split <;> rfl
@[simp] theorem sense_drain (l : SensedLine) : (sense s l).2.drain = s.drain := by cases l <;> simp only [sense] <;> split <;> rfl
@[simp] theorem sense_pollcnt (l : SensedLine) : (sense s l).2.pollcnt = s.pollcnt := by cases l <;> simp only [sense] <;> split <;> rfl
@[simp] theorem sense_tblidx (l : SensedLine) : (sense s l).2.tblidx = s.tblidx := by cases l <;> simp only [sense] <;> split <;> rfl
@[simp] theorem sense_bandsel (l : SensedLine) : (sense s l).2.bandsel = s.bandsel := by cases l <;> simp only [sense] <;> split <;> rfl
@[simp] theorem sense_seq (l : SensedLine) : (sense s l).2.seq = s.seq := by cases l <;> simp only [sense] <;> split <;> rfl
@[simp] theorem sense_busy (l : SensedLine) : (sense s l).2.busy = s.busy := by cases l <;> simp only [sense] <;> split <;> rfl
@[simp] theorem sense_opstate (l : SensedLine) : (sense s l).2.opstate = s.opstate := by cases l <;> simp only [sense] <;> split <;> rfl
@[simp] theorem sense_status (l : SensedLine) : (sense s l).2.status = s.status := by cases l <;> simp only [sense] <;> split <;> rfl
@[simp] theorem sense_result (l : SensedLine) : (sense s l).2.result = s.result := by cases l <;> simp only [sense] <;> split <;> rfl
@[simp] theorem sense_cmd (l : SensedLine) : (sense s l).2.cmd = s.cmd := by cases l <;> simp only [sense] <;> split <;> rfl
@[simp] theorem sense_hb (l : SensedLine) : (sense s l).2.hb = s.hb := by cases l <;> simp only [sense] <;> split <;> rfl
@[simp] theorem sense_trace (l : SensedLine) : (sense s l).2.trace = s.trace := by cases l <;> simp only [sense] <;> split <;> rfl
@[simp] theorem sense_cfg (l : SensedLine) : (sense s l).2.cfg = s.cfg := by cases l <;> simp only [sense] <;> split <;> rfl
@[simp] theorem sense_host (l : SensedLine) : (sense s l).2.host = s.host := by cases l <;> simp only [sense] <;> split <;> rfl
@[simp] theorem sense_hostData (l : SensedLine) : (sense s l).2.hostData = s.hostData := by cases l <;> simp only [sense] <;> split <;> rfl
@[simp] theorem sense_stale (l : SensedLine) : (sense s l).2.stale = s.stale := by cases l <;> simp only [sense] <;> split <;> rfl
@[simp] theorem sense_turns (l : SensedLine) : (sense s l).2.turns = s.turns := by cases l <;> simp only [sense] <;> split <;> rfl
@[simp] theorem readLine_clock (l : SensedLine) : (readLine s l).2.clock = s.clock := by simp [readLine]
@[simp] theorem readLine_dataOut (l : SensedLine) : (readLine s l).2.dataOut = s.dataOut := by simp [readLine]
@[simp] theorem readLine_chipSelect (l : SensedLine) : (readLine s l).2.chipSelect = s.chipSelect := by simp [readLine]
@[simp] theorem readLine_txb (l : SensedLine) : (readLine s l).2.txb = s.txb := by simp [readLine]
@[simp] theorem readLine_rxb (l : SensedLine) : (readLine s l).2.rxb = s.rxb := by simp [readLine]
@[simp] theorem readLine_bitcnt (l : SensedLine) : (readLine s l).2.bitcnt = s.bitcnt := by simp [readLine]
@[simp] theorem readLine_hdr (l : SensedLine) : (readLine s l).2.hdr = s.hdr := by simp [readLine]
@[simp] theorem readLine_cnt (l : SensedLine) : (readLine s l).2.cnt = s.cnt := by simp [readLine]
@[simp] theorem readLine_idx (l : SensedLine) : (readLine s l).2.idx = s.idx := by simp [readLine]
@[simp] theorem readLine_len (l : SensedLine) : (readLine s l).2.len = s.len := by simp [readLine]
@[simp] theorem readLine_rxc (l : SensedLine) : (readLine s l).2.rxc = s.rxc := by simp [readLine]
@[simp] theorem readLine_drain (l : SensedLine) : (readLine s l).2.drain = s.drain := by simp [readLine]
@[simp] theorem readLine_pollcnt (l : SensedLine) : (readLine s l).2.pollcnt = s.pollcnt := by simp [readLine]
@[simp] theorem readLine_tblidx (l : SensedLine) : (readLine s l).2.tblidx = s.tblidx := by simp [readLine]
@[simp] theorem readLine_bandsel (l : SensedLine) : (readLine s l).2.bandsel = s.bandsel := by simp [readLine]
@[simp] theorem readLine_seq (l : SensedLine) : (readLine s l).2.seq = s.seq := by simp [readLine]
@[simp] theorem readLine_busy (l : SensedLine) : (readLine s l).2.busy = s.busy := by simp [readLine]
@[simp] theorem readLine_opstate (l : SensedLine) : (readLine s l).2.opstate = s.opstate := by simp [readLine]
@[simp] theorem readLine_status (l : SensedLine) : (readLine s l).2.status = s.status := by simp [readLine]
@[simp] theorem readLine_result (l : SensedLine) : (readLine s l).2.result = s.result := by simp [readLine]
@[simp] theorem readLine_cmd (l : SensedLine) : (readLine s l).2.cmd = s.cmd := by simp [readLine]
@[simp] theorem readLine_hb (l : SensedLine) : (readLine s l).2.hb = s.hb := by simp [readLine]
@[simp] theorem readLine_cfg (l : SensedLine) : (readLine s l).2.cfg = s.cfg := by simp [readLine]
@[simp] theorem readLine_host (l : SensedLine) : (readLine s l).2.host = s.host := by simp [readLine]
@[simp] theorem readLine_hostData (l : SensedLine) : (readLine s l).2.hostData = s.hostData := by simp [readLine]
@[simp] theorem readLine_stale (l : SensedLine) : (readLine s l).2.stale = s.stale := by simp [readLine]
@[simp] theorem readLine_turns (l : SensedLine) : (readLine s l).2.turns = s.turns := by simp [readLine]
@[simp] theorem readLine_trace (l : SensedLine) : (readLine s l).2.trace = s.trace ++ [.read l (readLine s l).1] := by simp [readLine]

/-! ### `applyAll`: a register transfer leaves the lines, the host-visible state, `HB`, `TRACE` and the model's own fields -/

@[simp] theorem apply_clock (t : Transfer) : (t.apply s).clock = s.clock := by cases t <;> rfl
@[simp] theorem apply_dataOut (t : Transfer) : (t.apply s).dataOut = s.dataOut := by cases t <;> rfl
@[simp] theorem apply_chipSelect (t : Transfer) : (t.apply s).chipSelect = s.chipSelect := by cases t <;> rfl
@[simp] theorem apply_rxb (t : Transfer) : (t.apply s).rxb = s.rxb := by cases t <;> rfl
@[simp] theorem apply_seq (t : Transfer) : (t.apply s).seq = s.seq := by cases t <;> rfl
@[simp] theorem apply_busy (t : Transfer) : (t.apply s).busy = s.busy := by cases t <;> rfl
@[simp] theorem apply_status (t : Transfer) : (t.apply s).status = s.status := by cases t <;> rfl
@[simp] theorem apply_result (t : Transfer) : (t.apply s).result = s.result := by cases t <;> rfl
@[simp] theorem apply_cmd (t : Transfer) : (t.apply s).cmd = s.cmd := by cases t <;> rfl
@[simp] theorem apply_hb (t : Transfer) : (t.apply s).hb = s.hb := by cases t <;> rfl
@[simp] theorem apply_trace (t : Transfer) : (t.apply s).trace = s.trace := by cases t <;> rfl
@[simp] theorem apply_cfg (t : Transfer) : (t.apply s).cfg = s.cfg := by cases t <;> rfl
@[simp] theorem apply_dataIn (t : Transfer) : (t.apply s).dataIn = s.dataIn := by cases t <;> rfl
@[simp] theorem apply_done (t : Transfer) : (t.apply s).done = s.done := by cases t <;> rfl
@[simp] theorem apply_draws (t : Transfer) : (t.apply s).draws = s.draws := by cases t <;> rfl
@[simp] theorem apply_host (t : Transfer) : (t.apply s).host = s.host := by cases t <;> rfl
@[simp] theorem apply_hostData (t : Transfer) : (t.apply s).hostData = s.hostData := by cases t <;> rfl
@[simp] theorem apply_stale (t : Transfer) : (t.apply s).stale = s.stale := by cases t <;> rfl
@[simp] theorem apply_turns (t : Transfer) : (t.apply s).turns = s.turns := by cases t <;> rfl
@[simp] theorem applyAll_clock (ts : List Transfer) (s : State) : (applyAll s ts).clock = s.clock := by
  induction ts generalizing s with
  | nil => rfl
  | cons t ts ih => exact (ih _).trans (apply_clock s t)
@[simp] theorem applyAll_dataOut (ts : List Transfer) (s : State) : (applyAll s ts).dataOut = s.dataOut := by
  induction ts generalizing s with
  | nil => rfl
  | cons t ts ih => exact (ih _).trans (apply_dataOut s t)
@[simp] theorem applyAll_chipSelect (ts : List Transfer) (s : State) : (applyAll s ts).chipSelect = s.chipSelect := by
  induction ts generalizing s with
  | nil => rfl
  | cons t ts ih => exact (ih _).trans (apply_chipSelect s t)
@[simp] theorem applyAll_rxb (ts : List Transfer) (s : State) : (applyAll s ts).rxb = s.rxb := by
  induction ts generalizing s with
  | nil => rfl
  | cons t ts ih => exact (ih _).trans (apply_rxb s t)
@[simp] theorem applyAll_seq (ts : List Transfer) (s : State) : (applyAll s ts).seq = s.seq := by
  induction ts generalizing s with
  | nil => rfl
  | cons t ts ih => exact (ih _).trans (apply_seq s t)
@[simp] theorem applyAll_busy (ts : List Transfer) (s : State) : (applyAll s ts).busy = s.busy := by
  induction ts generalizing s with
  | nil => rfl
  | cons t ts ih => exact (ih _).trans (apply_busy s t)
@[simp] theorem applyAll_status (ts : List Transfer) (s : State) : (applyAll s ts).status = s.status := by
  induction ts generalizing s with
  | nil => rfl
  | cons t ts ih => exact (ih _).trans (apply_status s t)
@[simp] theorem applyAll_result (ts : List Transfer) (s : State) : (applyAll s ts).result = s.result := by
  induction ts generalizing s with
  | nil => rfl
  | cons t ts ih => exact (ih _).trans (apply_result s t)
@[simp] theorem applyAll_cmd (ts : List Transfer) (s : State) : (applyAll s ts).cmd = s.cmd := by
  induction ts generalizing s with
  | nil => rfl
  | cons t ts ih => exact (ih _).trans (apply_cmd s t)
@[simp] theorem applyAll_hb (ts : List Transfer) (s : State) : (applyAll s ts).hb = s.hb := by
  induction ts generalizing s with
  | nil => rfl
  | cons t ts ih => exact (ih _).trans (apply_hb s t)
@[simp] theorem applyAll_trace (ts : List Transfer) (s : State) : (applyAll s ts).trace = s.trace := by
  induction ts generalizing s with
  | nil => rfl
  | cons t ts ih => exact (ih _).trans (apply_trace s t)
@[simp] theorem applyAll_cfg (ts : List Transfer) (s : State) : (applyAll s ts).cfg = s.cfg := by
  induction ts generalizing s with
  | nil => rfl
  | cons t ts ih => exact (ih _).trans (apply_cfg s t)
@[simp] theorem applyAll_dataIn (ts : List Transfer) (s : State) : (applyAll s ts).dataIn = s.dataIn := by
  induction ts generalizing s with
  | nil => rfl
  | cons t ts ih => exact (ih _).trans (apply_dataIn s t)
@[simp] theorem applyAll_done (ts : List Transfer) (s : State) : (applyAll s ts).done = s.done := by
  induction ts generalizing s with
  | nil => rfl
  | cons t ts ih => exact (ih _).trans (apply_done s t)
@[simp] theorem applyAll_draws (ts : List Transfer) (s : State) : (applyAll s ts).draws = s.draws := by
  induction ts generalizing s with
  | nil => rfl
  | cons t ts ih => exact (ih _).trans (apply_draws s t)
@[simp] theorem applyAll_host (ts : List Transfer) (s : State) : (applyAll s ts).host = s.host := by
  induction ts generalizing s with
  | nil => rfl
  | cons t ts ih => exact (ih _).trans (apply_host s t)
@[simp] theorem applyAll_hostData (ts : List Transfer) (s : State) : (applyAll s ts).hostData = s.hostData := by
  induction ts generalizing s with
  | nil => rfl
  | cons t ts ih => exact (ih _).trans (apply_hostData s t)
@[simp] theorem applyAll_stale (ts : List Transfer) (s : State) : (applyAll s ts).stale = s.stale := by
  induction ts generalizing s with
  | nil => rfl
  | cons t ts ih => exact (ih _).trans (apply_stale s t)
@[simp] theorem applyAll_turns (ts : List Transfer) (s : State) : (applyAll s ts).turns = s.turns := by
  induction ts generalizing s with
  | nil => rfl
  | cons t ts ih => exact (ih _).trans (apply_turns s t)

/-! ### `goto`: only `SEQ` changes -/

@[simp] theorem goto_clock (p : Program) : (s.goto p).clock = s.clock := rfl
@[simp] theorem goto_dataOut (p : Program) : (s.goto p).dataOut = s.dataOut := rfl
@[simp] theorem goto_chipSelect (p : Program) : (s.goto p).chipSelect = s.chipSelect := rfl
@[simp] theorem goto_txb (p : Program) : (s.goto p).txb = s.txb := rfl
@[simp] theorem goto_rxb (p : Program) : (s.goto p).rxb = s.rxb := rfl
@[simp] theorem goto_bitcnt (p : Program) : (s.goto p).bitcnt = s.bitcnt := rfl
@[simp] theorem goto_hdr (p : Program) : (s.goto p).hdr = s.hdr := rfl
@[simp] theorem goto_cnt (p : Program) : (s.goto p).cnt = s.cnt := rfl
@[simp] theorem goto_idx (p : Program) : (s.goto p).idx = s.idx := rfl
@[simp] theorem goto_len (p : Program) : (s.goto p).len = s.len := rfl
@[simp] theorem goto_rxc (p : Program) : (s.goto p).rxc = s.rxc := rfl
@[simp] theorem goto_drain (p : Program) : (s.goto p).drain = s.drain := rfl
@[simp] theorem goto_pollcnt (p : Program) : (s.goto p).pollcnt = s.pollcnt := rfl
@[simp] theorem goto_tblidx (p : Program) : (s.goto p).tblidx = s.tblidx := rfl
@[simp] theorem goto_bandsel (p : Program) : (s.goto p).bandsel = s.bandsel := rfl
@[simp] theorem goto_seq (p : Program) : (s.goto p).seq = p := rfl
@[simp] theorem goto_busy (p : Program) : (s.goto p).busy = s.busy := rfl
@[simp] theorem goto_opstate (p : Program) : (s.goto p).opstate = s.opstate := rfl
@[simp] theorem goto_status (p : Program) : (s.goto p).status = s.status := rfl
@[simp] theorem goto_result (p : Program) : (s.goto p).result = s.result := rfl
@[simp] theorem goto_cmd (p : Program) : (s.goto p).cmd = s.cmd := rfl
@[simp] theorem goto_hb (p : Program) : (s.goto p).hb = s.hb := rfl
@[simp] theorem goto_trace (p : Program) : (s.goto p).trace = s.trace := rfl
@[simp] theorem goto_cfg (p : Program) : (s.goto p).cfg = s.cfg := rfl
@[simp] theorem goto_dataIn (p : Program) : (s.goto p).dataIn = s.dataIn := rfl
@[simp] theorem goto_done (p : Program) : (s.goto p).done = s.done := rfl
@[simp] theorem goto_draws (p : Program) : (s.goto p).draws = s.draws := rfl
@[simp] theorem goto_host (p : Program) : (s.goto p).host = s.host := rfl
@[simp] theorem goto_hostData (p : Program) : (s.goto p).hostData = s.hostData := rfl
@[simp] theorem goto_stale (p : Program) : (s.goto p).stale = s.stale := rfl
@[simp] theorem goto_turns (p : Program) : (s.goto p).turns = s.turns := rfl
@[simp] theorem goto_goto (p q : Program) : (s.goto p).goto q = s.goto q := rfl
@[simp] theorem goto_self : s.goto s.seq = s := rfl

/-! ### `complete`: the code, the result, `OPSTATE`, `BUSY`, `SEQ` and `TRACE` change (R210) -/

@[simp] theorem complete_clock (c : Status) (r : Option Byte) : (complete s c r).clock = s.clock := rfl
@[simp] theorem complete_dataOut (c : Status) (r : Option Byte) : (complete s c r).dataOut = s.dataOut := rfl
@[simp] theorem complete_chipSelect (c : Status) (r : Option Byte) : (complete s c r).chipSelect = s.chipSelect := rfl
@[simp] theorem complete_txb (c : Status) (r : Option Byte) : (complete s c r).txb = s.txb := rfl
@[simp] theorem complete_rxb (c : Status) (r : Option Byte) : (complete s c r).rxb = s.rxb := rfl
@[simp] theorem complete_bitcnt (c : Status) (r : Option Byte) : (complete s c r).bitcnt = s.bitcnt := rfl
@[simp] theorem complete_hdr (c : Status) (r : Option Byte) : (complete s c r).hdr = s.hdr := rfl
@[simp] theorem complete_cnt (c : Status) (r : Option Byte) : (complete s c r).cnt = s.cnt := rfl
@[simp] theorem complete_idx (c : Status) (r : Option Byte) : (complete s c r).idx = s.idx := rfl
@[simp] theorem complete_len (c : Status) (r : Option Byte) : (complete s c r).len = s.len := rfl
@[simp] theorem complete_rxc (c : Status) (r : Option Byte) : (complete s c r).rxc = s.rxc := rfl
@[simp] theorem complete_drain (c : Status) (r : Option Byte) : (complete s c r).drain = s.drain := rfl
@[simp] theorem complete_pollcnt (c : Status) (r : Option Byte) : (complete s c r).pollcnt = s.pollcnt := rfl
@[simp] theorem complete_tblidx (c : Status) (r : Option Byte) : (complete s c r).tblidx = s.tblidx := rfl
@[simp] theorem complete_bandsel (c : Status) (r : Option Byte) : (complete s c r).bandsel = s.bandsel := rfl
@[simp] theorem complete_seq (c : Status) (r : Option Byte) : (complete s c r).seq = [] := rfl
@[simp] theorem complete_busy (c : Status) (r : Option Byte) : (complete s c r).busy = false := rfl
@[simp] theorem complete_opstate (c : Status) (r : Option Byte) : (complete s c r).opstate = .idle := rfl
@[simp] theorem complete_status (c : Status) (r : Option Byte) : (complete s c r).status = c := rfl
@[simp] theorem complete_result (c : Status) (r : Option Byte) : (complete s c r).result = r.getD s.result := rfl
@[simp] theorem complete_cmd (c : Status) (r : Option Byte) : (complete s c r).cmd = s.cmd := rfl
@[simp] theorem complete_hb (c : Status) (r : Option Byte) : (complete s c r).hb = s.hb := rfl
@[simp] theorem complete_trace (c : Status) (r : Option Byte) : (complete s c r).trace = s.trace ++ [.complete c r] := rfl
@[simp] theorem complete_cfg (c : Status) (r : Option Byte) : (complete s c r).cfg = s.cfg := rfl
@[simp] theorem complete_dataIn (c : Status) (r : Option Byte) : (complete s c r).dataIn = s.dataIn := rfl
@[simp] theorem complete_done (c : Status) (r : Option Byte) : (complete s c r).done = s.done := rfl
@[simp] theorem complete_draws (c : Status) (r : Option Byte) : (complete s c r).draws = s.draws := rfl
@[simp] theorem complete_host (c : Status) (r : Option Byte) : (complete s c r).host = s.host := rfl
@[simp] theorem complete_hostData (c : Status) (r : Option Byte) : (complete s c r).hostData = s.hostData := rfl
@[simp] theorem complete_stale (c : Status) (r : Option Byte) : (complete s c r).stale = s.stale := rfl
@[simp] theorem complete_turns (c : Status) (r : Option Byte) : (complete s c r).turns = s.turns := rfl

/-! ### `accepted`: `CMD`, `BUSY`, `SEQ` and the turns change (R37) -/

@[simp] theorem accepted_clock (w : CmdWord) (p : Program) : (accepted s w p).clock = s.clock := rfl
@[simp] theorem accepted_dataOut (w : CmdWord) (p : Program) : (accepted s w p).dataOut = s.dataOut := rfl
@[simp] theorem accepted_chipSelect (w : CmdWord) (p : Program) : (accepted s w p).chipSelect = s.chipSelect := rfl
@[simp] theorem accepted_txb (w : CmdWord) (p : Program) : (accepted s w p).txb = s.txb := rfl
@[simp] theorem accepted_rxb (w : CmdWord) (p : Program) : (accepted s w p).rxb = s.rxb := rfl
@[simp] theorem accepted_bitcnt (w : CmdWord) (p : Program) : (accepted s w p).bitcnt = s.bitcnt := rfl
@[simp] theorem accepted_hdr (w : CmdWord) (p : Program) : (accepted s w p).hdr = s.hdr := rfl
@[simp] theorem accepted_cnt (w : CmdWord) (p : Program) : (accepted s w p).cnt = s.cnt := rfl
@[simp] theorem accepted_idx (w : CmdWord) (p : Program) : (accepted s w p).idx = s.idx := rfl
@[simp] theorem accepted_len (w : CmdWord) (p : Program) : (accepted s w p).len = s.len := rfl
@[simp] theorem accepted_rxc (w : CmdWord) (p : Program) : (accepted s w p).rxc = s.rxc := rfl
@[simp] theorem accepted_drain (w : CmdWord) (p : Program) : (accepted s w p).drain = s.drain := rfl
@[simp] theorem accepted_pollcnt (w : CmdWord) (p : Program) : (accepted s w p).pollcnt = s.pollcnt := rfl
@[simp] theorem accepted_tblidx (w : CmdWord) (p : Program) : (accepted s w p).tblidx = s.tblidx := rfl
@[simp] theorem accepted_bandsel (w : CmdWord) (p : Program) : (accepted s w p).bandsel = s.bandsel := rfl
@[simp] theorem accepted_seq (w : CmdWord) (p : Program) : (accepted s w p).seq = p := rfl
@[simp] theorem accepted_busy (w : CmdWord) (p : Program) : (accepted s w p).busy = true := rfl
@[simp] theorem accepted_opstate (w : CmdWord) (p : Program) : (accepted s w p).opstate = s.opstate := rfl
@[simp] theorem accepted_status (w : CmdWord) (p : Program) : (accepted s w p).status = s.status := rfl
@[simp] theorem accepted_result (w : CmdWord) (p : Program) : (accepted s w p).result = s.result := rfl
@[simp] theorem accepted_cmd (w : CmdWord) (p : Program) : (accepted s w p).cmd = w := rfl
@[simp] theorem accepted_hb (w : CmdWord) (p : Program) : (accepted s w p).hb = s.hb := rfl
@[simp] theorem accepted_trace (w : CmdWord) (p : Program) : (accepted s w p).trace = s.trace := rfl
@[simp] theorem accepted_cfg (w : CmdWord) (p : Program) : (accepted s w p).cfg = s.cfg := rfl
@[simp] theorem accepted_dataIn (w : CmdWord) (p : Program) : (accepted s w p).dataIn = s.dataIn := rfl
@[simp] theorem accepted_done (w : CmdWord) (p : Program) : (accepted s w p).done = s.done := rfl
@[simp] theorem accepted_draws (w : CmdWord) (p : Program) : (accepted s w p).draws = s.draws := rfl
@[simp] theorem accepted_host (w : CmdWord) (p : Program) : (accepted s w p).host = s.host := rfl
@[simp] theorem accepted_hostData (w : CmdWord) (p : Program) : (accepted s w p).hostData = s.hostData := rfl
@[simp] theorem accepted_stale (w : CmdWord) (p : Program) : (accepted s w p).stale = [] := rfl
@[simp] theorem accepted_turns (w : CmdWord) (p : Program) : (accepted s w p).turns = s.turnsAfter := rfl

end Sys2Proof.Machine
end

