-- ==== Sys2Proof/Laws/Run.lean ====
section
/-! SUPPORT. What the shared operations of the controller do: a turn in parts, one action, a choice, a transfer, a wait. Each lemma
moves a turn past one of them, so that an operation's run is a chain of rewrites. -/

namespace Sys2Proof.Machine

/-! ### Turns -/

@[simp] theorem runActions_zero (s : State) : runActions 0 s = .next s := rfl

/-- An idle controller takes no action. -/
theorem runActions_idle (n : Nat) (s : State) (h : s.busy = false) : runActions n s = .next s := by
  cases n <;> simp [runActions, h]

/-- A turn goes on after its first action. -/
theorem runActions_next {s t : State} (n : Nat) (hb : s.busy = true) (h : controllerStep s = .next t) :
    runActions (n + 1) s = runActions n t := by
  simp [runActions, hb, h]

/-- A turn of `m + n` actions is a turn of `m` and then a turn of `n`. -/
theorem runActions_add (m n : Nat) (s t : State) (h : runActions m s = .next t) :
    runActions (m + n) s = runActions n t := by
  induction m generalizing s with
  | zero => simp only [runActions_zero, Host.Outcome.next.injEq] at h; simp [h]
  | succ m ih =>
    cases hb : s.busy with
    | false =>
      rw [runActions_idle _ _ hb, Host.Outcome.next.injEq] at h
      subst h
      rw [runActions_idle _ _ hb, runActions_idle _ _ hb]
    | true =>
      rw [Nat.add_right_comm]
      simp only [runActions, hb, if_true] at h ⊢
      split at h
      · exact ih _ h
      all_goals simp at h

/-! ### One action, one choice -/

/-- A register transfer does not look at `SEQ`. -/
theorem apply_goto (s : State) (p : Program) (t : Transfer) : Transfer.apply (s.goto p) t = (Transfer.apply s t).goto p := by
  cases t with
  | loadCount c => cases c <;> rfl
  | loadTx src => cases src <;> rfl
  | _ => rfl

theorem applyAll_goto (ts : List Transfer) (s : State) (p : Program) : applyAll (s.goto p) ts = (applyAll s ts).goto p := by
  induction ts generalizing s with
  | nil => rfl
  | cons t ts ih => simp only [applyAll, List.foldl_cons, apply_goto] at ih ⊢; exact ih _

/-- A choice does not look at `SEQ`. -/
theorem expand_goto (s : State) (p : Program) (b : Branch) : b.expand (s.goto p) = b.expand s := by
  cases b with
  | burst k => cases k <;> rfl
  | table t => cases t <;> rfl
  | _ => rfl

/-- `settle` does not look at `SEQ`. -/
theorem settle_goto (p : Program) (s : State) (q : Program) : settle p (s.goto q) = settle p s := by
  induction p generalizing s with
  | nil => rfl
  | cons m p ih =>
    cases m with
    | act pre a => rfl
    | branch pre b =>
      simp only [settle, applyAll_goto, expand_goto]
      split
      · exact ih _
      · rfl

/-- A read of a line does not look at `SEQ`. -/
theorem readLine_goto (s : State) (p : Program) (l : SensedLine) :
    readLine (s.goto p) l = ((readLine s l).1, (readLine s l).2.goto p) := by
  cases l
  · cases h : s.dataIn <;> simp [readLine, sense, h, State.emit, State.goto]
  · cases h : s.done <;> simp [readLine, sense, h, State.emit, State.goto]

/-- A `MemRead` of a byte the host has left alone during the operation sees what `HB` holds (R76). -/
theorem memRead_quiet {s : State} {i : Nat} (h : s.heldBefore i = []) : memRead s i = (s.hb.read i).map (·, s) := by
  simp only [memRead, h]

theorem heldBefore_quiet {s : State} (h : s.stale = []) (i : Nat) : s.heldBefore i = [] := by simp [State.heldBefore, h]

/-- Whatever a `MemRead` answers, only the counter of the free values may change with it. -/
theorem memRead_cases {s s' : State} {i : Nat} {d : Byte} (h : memRead s i = some (d, s')) : ∃ k, s' = { s with draws := k } := by
  simp only [memRead] at h
  split at h
  · simp only [Option.map_eq_some_iff, Prod.mk.injEq] at h
    obtain ⟨_, _, _, rfl⟩ := h
    exact ⟨s.draws, rfl⟩
  · simp only [Option.some.injEq, Prod.mk.injEq] at h
    exact ⟨_, h.2.symm⟩

theorem memRead_goto (s : State) (p : Program) (i : Nat) :
    memRead (s.goto p) i = (memRead s i).map fun x => (x.1, x.2.goto p) := by
  have : (s.goto p).heldBefore i = s.heldBefore i := rfl
  simp only [memRead, this]
  split
  · cases h : s.hb.read i <;> simp [h]
  · rfl

/-- An action does not look at `SEQ`: it puts what follows there. -/
theorem perform_goto (s : State) (p : Program) (a : Act) (rest : Program) : perform (s.goto p) a rest = perform s a rest := by
  cases a with
  | setLine l v => cases l <;> rfl
  | sampleBit => simp only [perform, readLine_goto, goto_rxb, goto_bitcnt]; rfl
  | waitLine l v => simp only [perform, waitSample, readLine_goto, goto_pollcnt, goto_cfg, goto_chipSelect]; rfl
  | testDone => simp only [perform, readLine_goto]; rfl
  | memRead => simp only [perform, memRead_goto, goto_idx]; cases memRead s s.idx.toNat <;> rfl
  | complete c r => cases r <;> rfl
  | _ => rfl

/-- The controller at an action performs it, after its register transfers. -/
theorem controllerStep_act (s : State) (pre : List Transfer) (a : Act) (rest : Program) :
    controllerStep (s.goto (.act pre a :: rest)) = perform (applyAll s pre) a rest := by
  simp only [controllerStep, goto_seq, settle, goto_goto, applyAll_goto, perform_goto]

/-- The controller at a choice that puts places in front. -/
theorem controllerStep_expand (s : State) (pre pre' : List Transfer) (b : Branch) (a : Act) (ms rest : Program)
    (h : b.expand (applyAll s pre) = .act pre' a :: ms) :
    controllerStep (s.goto (.branch pre b :: rest)) =
      controllerStep ((applyAll s pre).goto (.act pre' a :: ms ++ rest)) := by
  simp only [controllerStep, goto_seq, settle, applyAll_goto, expand_goto, h, goto_goto, List.cons_append]

/-- The controller at a choice to go on. -/
theorem controllerStep_pass (s : State) (pre : List Transfer) (b : Branch) (rest : Program)
    (h : b.expand (applyAll s pre) = []) :
    controllerStep (s.goto (.branch pre b :: rest)) = controllerStep ((applyAll s pre).goto rest) := by
  simp only [controllerStep, goto_seq, settle_goto, settle, h]

theorem runActions_congr {s t : State} (n : Nat) (hs : s.busy = true) (ht : t.busy = true)
    (h : controllerStep s = controllerStep t) : runActions (n + 1) s = runActions (n + 1) t := by
  simp only [runActions, hs, ht, h, if_true]

/-- A turn at a choice that puts places in front goes on with them. -/
theorem runActions_expand (n : Nat) (s : State) (pre pre' : List Transfer) (b : Branch) (a : Act) (ms rest : Program)
    (hb : s.busy = true) (h : b.expand (applyAll s pre) = .act pre' a :: ms) :
    runActions (n + 1) (s.goto (.branch pre b :: rest)) =
      runActions (n + 1) ((applyAll s pre).goto (.act pre' a :: ms ++ rest)) :=
  runActions_congr n hb (by simpa using hb) (controllerStep_expand s pre pre' b a ms rest h)

/-- The same, the places given as one program that begins with an action. -/
theorem runActions_expand_program (n : Nat) (s : State) (b : Branch) (p rest : Program) (hb : s.busy = true)
    (h : b.expand s = p) (hp : ∃ pre a ms, p = .act pre a :: ms) :
    runActions (n + 1) (s.goto (.branch [] b :: rest)) = runActions (n + 1) (s.goto (p ++ rest)) := by
  obtain ⟨pre, a, ms, rfl⟩ := hp
  exact runActions_expand n s [] pre b a ms rest hb h

/-- A turn at a choice to go on goes on with the rest. -/
theorem runActions_pass (n : Nat) (s : State) (pre : List Transfer) (b : Branch) (rest : Program)
    (hb : s.busy = true) (h : b.expand (applyAll s pre) = []) :
    runActions (n + 1) (s.goto (.branch pre b :: rest)) = runActions (n + 1) ((applyAll s pre).goto rest) :=
  runActions_congr n hb (by simpa using hb) (controllerStep_pass s pre b rest h)

/-- The register transfers in front of an action may be made beforehand. -/
theorem runActions_transfers (n : Nat) (s : State) (pre : List Transfer) (a : Act) (rest : Program) (hb : s.busy = true) :
    runActions (n + 1) (s.goto (.act pre a :: rest)) = runActions (n + 1) ((applyAll s pre).goto (.act [] a :: rest)) := by
  refine runActions_congr n hb (by simpa using hb) ?_
  rw [controllerStep_act, controllerStep_act]
  rfl

/-- A turn at an action that ends in a next state goes on with the rest. -/
theorem runActions_act {s t : State} (n : Nat) (a : Act) (rest : Program) (hb : s.busy = true)
    (h : perform s a rest = .next t) :
    runActions (n + 1) (s.goto (.act [] a :: rest)) = runActions n t :=
  runActions_next n hb (by rw [controllerStep_act]; exact h)

theorem runActions_setLine (n : Nat) (s : State) (l : DrivenLine) (v : Level) (rest : Program) (hb : s.busy = true) :
    runActions (n + 1) (s.goto (.act [] (.setLine l v) :: rest)) = runActions n ((setLine s l v).goto rest) :=
  runActions_act n _ _ hb (by cases l <;> rfl)

theorem runActions_delay (n : Nat) (s : State) (d : DelayName) (rest : Program) (hb : s.busy = true) :
    runActions (n + 1) (s.goto (.act [] (.delay d) :: rest)) = runActions n ((s.emit (.delay d)).goto rest) :=
  runActions_act n _ _ hb rfl

/-- A `MemRead` of a byte the host has left alone takes it into the transfer (R82). -/
theorem runActions_memRead (n : Nat) (s : State) (d : Byte) (rest : Program) (hb : s.busy = true) (hq : s.stale = [])
    (hm : s.hb.read s.idx.toNat = some d) :
    runActions (n + 1) (s.goto (.act [] .memRead :: rest)) =
      runActions n ({ s.emit (.bufRd s.idx d) with txb := d }.goto rest) :=
  runActions_act n _ _ hb (by simp only [perform, memRead_quiet (heldBefore_quiet hq _), hm]; rfl)

/-- A completion ends the turn (R210). -/
theorem runActions_complete (n : Nat) (s : State) (c : Status) (r : ResultSrc) (rest : Program) (hb : s.busy = true) :
    runActions (n + 1) (s.goto (.act [] (.complete c r) :: rest)) = .next (complete s c (r.eval s)) := by
  rw [runActions_act n (t := complete s c (r.eval s)) _ _ hb (by cases r <;> rfl)]
  exact runActions_idle _ _ rfl

/-- A step at the controller's action performs it. -/
theorem step_controllerAt {s u : State} {a : Act} {rest : Program} (h : ControllerAt s u a rest) : step s = perform u a rest := by
  obtain ⟨hb, ht, pre, hs, rfl⟩ := h
  have hg : s = s.goto (.act pre a :: rest) := by rw [← hs]; rfl
  have hc : controllerStep s = perform (applyAll s pre) a rest := by rw [hg, controllerStep_act, ← hg]
  simp only [step, hb, if_true, busyTurn, ht, runActions, hc]
  cases perform (applyAll s pre) a rest <;> rfl

/-- A step that is the host's move makes it. -/
theorem step_hostMoves {s t : State} {m : HostMove} (h : HostMoves s m t) : step s = hostMove t m := by
  obtain ⟨hh, ⟨hb, ht⟩ | ⟨hb, htu, ht⟩⟩ := h
  · rw [ht]; simp [step, hb, hostTurn, hh]
  · rw [ht]; simp [step, hb, busyTurn, htu, hostTurn, hh]

/-! ### Sampling and waiting -/

theorem readLine_scripted_dataIn (s : State) (b : Level) (r : List Level) (h : s.dataIn = b :: r) :
    readLine s .dataIn = (b, { s with dataIn := r, trace := s.trace ++ [.read .dataIn b] }) := by
  simp only [readLine, sense, h, State.emit]

theorem readLine_scripted_done (s : State) (b : Level) (r : List Level) (h : s.done = b :: r) :
    readLine s .done = (b, { s with done := r, trace := s.trace ++ [.read .done b] }) := by
  simp only [readLine, sense, h, State.emit]

/-- The levels the environment has scripted for a line. -/
def State.script (s : State) : SensedLine → List Level
  | .dataIn => s.dataIn
  | .done => s.done

/-- `s` after the samples `bs` of a line, `r` being the levels left. -/
def State.sampled (s : State) (l : SensedLine) (bs : List Level) (r : List Level) : State :=
  match l with
  | .dataIn => { s with dataIn := r, trace := s.trace ++ bs.map (.read .dataIn) }
  | .done => { s with done := r, trace := s.trace ++ bs.map (.read .done) }

theorem readLine_scripted (s : State) (l : SensedLine) (b : Level) (r : List Level) (h : s.script l = b :: r) :
    readLine s l = (b, s.sampled l [b] r) := by
  cases l
  · exact readLine_scripted_dataIn s b r h
  · exact readLine_scripted_done s b r h

/-- A matching sample ends the wait (R124). -/
theorem runActions_wait_match (n : Nat) (s : State) (l : SensedLine) (v : Level) (r : List Level) (rest : Program)
    (hb : s.busy = true) (h : s.script l = v :: r) :
    runActions (n + 1) (s.goto (.act [] (.waitLine l v) :: rest)) = runActions n ((s.sampled l [v] r).goto rest) := by
  refine runActions_act n _ _ hb ?_
  simp only [perform, waitSample, readLine_scripted _ _ _ _ h, if_true]

/-- A sample that misses is counted, and the wait goes on at its place or is given up (R124, R204). -/
theorem runActions_wait_miss (n : Nat) (s : State) (l : SensedLine) (v : Level) (r : List Level) (rest : Program)
    (hb : s.busy = true) (h : s.script l = (!v) :: r) :
    runActions (n + 1) (s.goto (.act [] (.waitLine l v) :: rest)) =
      runActions n ({ s.sampled l [!v] r with pollcnt := s.pollcnt + 1 }.goto
        (if boundReached s.cfg (s.pollcnt + 1) then abort s.chipSelect ++ rest else .act [] (.waitLine l v) :: rest)) := by
  refine runActions_act n _ _ hb ?_
  have hv : ¬ (!v) = v := by cases v <;> decide
  simp only [perform, waitSample, readLine_scripted _ _ _ _ h, hv, if_false]

/-- The samples of a wait that misses `p` times, none of which reaches the bound. -/
theorem runActions_wait_misses (p n : Nat) (s : State) (l : SensedLine) (v : Level) (r : List Level) (rest : Program)
    (hb : s.busy = true) (h : s.script l = List.replicate p (!v) ++ r)
    (hk : ∀ q, q < p → boundReached s.cfg (s.pollcnt + q + 1) = false) :
    runActions (n + p) (s.goto (.act [] (.waitLine l v) :: rest)) =
      runActions n ({ s.sampled l (List.replicate p (!v)) r with pollcnt := s.pollcnt + p }.goto
        (.act [] (.waitLine l v) :: rest)) := by
  induction p generalizing s with
  | zero =>
    have : { s.sampled l (List.replicate 0 (!v)) r with pollcnt := s.pollcnt + 0 } = s := by
      cases l <;> simp [State.sampled] <;> simp only [State.script, List.replicate_zero, List.nil_append] at h <;> rw [← h]
    rw [this]; rfl
  | succ p ih =>
    rw [← Nat.add_assoc, runActions_wait_miss (n + p) s l v (List.replicate p (!v) ++ r) rest hb
      (by rw [h, List.replicate_succ, List.cons_append])]
    have h0 := hk 0 (by omega)
    rw [Nat.add_zero] at h0
    rw [h0, if_neg (by decide), ih]
    · congr 1
      cases l <;>
        simp [State.sampled, State.goto, List.replicate_succ, Nat.add_assoc, Nat.add_comm 1 p]
    · cases l <;> exact hb
    · cases l <;> rfl
    · intro q hq
      have := hk (q + 1) (by omega)
      cases l <;> simpa [State.sampled, Nat.add_assoc, Nat.add_comm 1 q] using this

theorem boundReached_of_admits (c : Config) (p q : Nat) (h : admits c p = true) (hq : q ≤ p) : boundReached c q = false := by
  cases hk : c.pollBound with
  | none => simp [boundReached, hk]
  | some k => simp [admits, hk] at h; simp [boundReached, hk]; omega

/-- A whole wait: `p` samples miss, the next matches (R124). -/
theorem runActions_waitLine (p n : Nat) (s : State) (l : SensedLine) (v : Level) (r : List Level) (rest : Program)
    (hb : s.busy = true) (h : s.script l = waitLevels v p ++ r) (hk : admits s.cfg p = true) :
    runActions (n + p + 1) (s.goto (waitLine l v ++ rest)) =
      runActions n ({ s.sampled l (waitLevels v p) r with pollcnt := p }.goto rest) := by
  simp only [waitLine, List.cons_append, List.nil_append]
  rw [runActions_transfers _ _ _ _ _ hb, Nat.add_right_comm,
    runActions_wait_misses p (n + 1) _ l v (v :: r) rest (by simpa using hb)
      (by cases l <;> simpa [State.script, applyAll, Transfer.apply, waitLevels] using h)]
  · rw [runActions_wait_match n _ l v r rest]
    · congr 1
      cases l <;> simp [State.sampled, State.goto, applyAll, Transfer.apply, waitLevels]
    · cases l <;> simpa [State.sampled] using hb
    · cases l <;> rfl
  · intro q hq
    refine boundReached_of_admits _ p _ (by simpa using hk) ?_
    simp [applyAll, Transfer.apply]; omega

/-- A wait given up: `k` samples miss, and `k` is the bound (R124, R204). -/
theorem runActions_waitLine_late (k n : Nat) (s : State) (l : SensedLine) (v : Level) (r : List Level) (rest : Program)
    (hb : s.busy = true) (h : s.script l = List.replicate k (!v) ++ r) (hk : s.cfg.pollBound = some k) (h1 : 1 ≤ k) :
    runActions (n + k) (s.goto (waitLine l v ++ rest)) =
      runActions n ({ s.sampled l (List.replicate k (!v)) r with pollcnt := k }.goto (abort s.chipSelect ++ rest)) := by
  obtain ⟨j, rfl⟩ : ∃ j, k = j + 1 := ⟨k - 1, by omega⟩
  simp only [waitLine, List.cons_append, List.nil_append]
  rw [← Nat.add_assoc, runActions_transfers _ _ _ _ _ hb, Nat.add_right_comm,
    runActions_wait_misses j (n + 1) _ l v ((!v) :: r) rest (by simpa using hb)
      (by cases l <;> simpa [State.script, applyAll, Transfer.apply, List.replicate_succ', List.append_assoc] using h)]
  · rw [runActions_wait_miss n _ l v r rest]
    · congr 1
      cases l <;>
        simp [State.sampled, State.goto, applyAll, Transfer.apply, boundReached, hk, List.replicate_succ']
    · cases l <;> simpa [State.sampled] using hb
    · cases l <;> rfl
  · intro q hq
    simp [boundReached, hk, applyAll, Transfer.apply]; omega

end Sys2Proof.Machine
end

