-- ==== Sys2Proof/Laws/Transfer.lean ====
section
/-! SUPPORT. What a transfer, a frame and a burst do to a turn: each ends with the state the wire notation of Safety.lean names. -/

namespace Sys2Proof.Machine

/-! ### Bits -/

/-- The byte `v` with the levels `bs` set from bit `k` downwards. -/
def bitsInto (v : Byte) : Nat → List Level → Byte
  | _, [] => v
  | 0, b :: _ => setBit v 0#3 b
  | k + 1, b :: bs => bitsInto (setBit v (BitVec.ofNat 3 (k + 1)) b) k bs

/-- The events of the bits of `out` from bit `k` downwards. -/
def bitsEvents (out : Byte) : Nat → List Level → List Event
  | _, [] => []
  | 0, b :: _ => bitEvents (bitOf out 0#3) b
  | k + 1, b :: bs => bitEvents (bitOf out (BitVec.ofNat 3 (k + 1))) b ++ bitsEvents out k bs

/-- Eight levels set from bit 7 downwards are the byte they spell, whatever stood there before (R17 b, R26). -/
theorem bitsInto_msbBits (v x : Byte) : bitsInto v 7 (msbBits x) = x := by
  refine BitVec.eq_of_getLsbD_eq fun i hi => ?_
  have : i = 0 ∨ i = 1 ∨ i = 2 ∨ i = 3 ∨ i = 4 ∨ i = 5 ∨ i = 6 ∨ i = 7 := by omega
  rcases this with rfl | rfl | rfl | rfl | rfl | rfl | rfl | rfl <;>
    simp [bitsInto, msbBits, setBit]

theorem bitsEvents_msbBits (out x : Byte) : bitsEvents out 7 (msbBits x) = xferEvents out x := by
  simp [bitsEvents, msbBits, xferEvents, bitOf]

/-- `s` after the bit at `BITCNT`, the level sampled being `b`. -/
def State.afterBit (s : State) (b : Level) (r : List Level) : State :=
  { s with
    clock := false, dataOut := bitOf s.txb s.bitcnt, rxb := setBit s.rxb s.bitcnt b, dataIn := r,
    trace := s.trace ++ bitEvents (bitOf s.txb s.bitcnt) b }

/-- The eight actions of one bit (R126). -/
theorem runActions_bitStep (n : Nat) (s : State) (b : Level) (r : List Level) (rest : Program)
    (hb : s.busy = true) (hd : s.dataIn = b :: r) :
    runActions (n + 8) (s.goto (bitStep [] ++ rest)) =
      runActions n ((s.afterBit b r).goto (.branch [] .moreBits :: rest)) := by
  obtain ⟨⟩ := s
  simp only at hb hd
  subst hb hd
  simp only [bitStep, List.cons_append, List.nil_append]
  rw [runActions_setLine _ _ _ _ _ rfl, runActions_act _ _ _ rfl rfl, runActions_delay _ _ _ _ rfl,
    runActions_act _ _ _ rfl rfl, runActions_delay _ _ _ _ rfl, runActions_setLine _ _ _ _ _ rfl,
    runActions_delay _ _ _ _ rfl, runActions_setLine _ _ _ _ _ rfl]
  simp [State.afterBit, State.goto, setLine, State.drive, State.emit, readLine, sense, bitEvents]

/-- The bits from bit `k` downwards. -/
theorem runActions_bits (k n : Nat) (s : State) (bs r : List Level) (rest : Program) (hk : k < 8)
    (hb : s.busy = true) (hc : s.bitcnt = BitVec.ofNat 3 k) (hl : bs.length = k + 1) (hd : s.dataIn = bs ++ r) :
    runActions (n + 1 + 8 * (k + 1)) (s.goto (bitStep [] ++ rest)) =
      runActions (n + 1)
        ({ s with
            clock := false, dataOut := bitOf s.txb 0#3, rxb := bitsInto s.rxb k bs, bitcnt := 0#3, dataIn := r,
            trace := s.trace ++ bitsEvents s.txb k bs }.goto rest) := by
  induction k generalizing s bs n with
  | zero =>
    obtain ⟨b, rfl⟩ := List.length_eq_one_iff.1 hl
    rw [Nat.zero_add, Nat.mul_one, runActions_bitStep (n + 1) s b r rest hb (by simpa using hd),
      runActions_pass n _ _ _ _ (by simpa [State.afterBit] using hb)
        (by simp [Branch.expand, applyAll, State.afterBit, hc])]
    congr 1
    simp [applyAll, State.afterBit, hc, bitsInto, bitsEvents, State.goto]
  | succ k ih =>
    cases bs with
    | nil => simp at hl
    | cons b bs =>
      rw [show n + 1 + 8 * (k + 1 + 1) = n + 1 + 8 * (k + 1) + 8 by omega,
        runActions_bitStep _ s b (bs ++ r) rest hb (by simpa using hd),
        show n + 1 + 8 * (k + 1) = (n + 8 * (k + 1)) + 1 by omega,
        runActions_expand _ _ [] [.nextBit] .moreBits (.setLine .clock false)
          [.act [] .driveBit, .act [] (.delay .settle), .act [] .sampleBit, .act [] (.delay .sample),
            .act [] (.setLine .clock true), .act [] (.delay .hold), .act [] (.setLine .clock false),
            .branch [] .moreBits] rest (by simpa [State.afterBit] using hb)]
      · simp only [List.cons_append]
        rw [runActions_transfers _ _ _ _ _ (by simpa [State.afterBit] using hb)]
        have := ih n (applyAll (applyAll (s.afterBit b (bs ++ r)) []) [.nextBit]) bs (by omega)
          (by simpa [State.afterBit] using hb)
          (by
            simp only [applyAll, List.foldl, Transfer.apply, State.afterBit, hc]
            refine BitVec.eq_of_toNat_eq ?_
            simp only [BitVec.toNat_sub, BitVec.toNat_ofNat]
            omega)
          (by simpa using hl) rfl
        simp only [bitStep, List.cons_append, List.nil_append] at this
        rw [show n + 8 * (k + 1) + 1 = n + 1 + 8 * (k + 1) by omega, List.nil_append, this]
        congr 1
        simp [applyAll, Transfer.apply, State.afterBit, hc, bitsInto, bitsEvents, State.goto]
      · have h0 : ¬ s.bitcnt = 0#3 := by
          rw [hc]; intro h
          have := congrArg BitVec.toNat h
          simp only [BitVec.toNat_ofNat] at this
          omega
        simp [Branch.expand, applyAll, State.afterBit, h0, bitStep]

/-- A transfer: 64 actions, the byte sent and the byte sampled (R126). -/
theorem runActions_xfer (n : Nat) (s : State) (src : ByteSrc) (x : Byte) (r : List Level) (rest : Program)
    (hb : s.busy = true) (hd : s.dataIn = msbBits x ++ r) :
    runActions (n + 1 + 64) (s.goto (xfer src ++ rest)) =
      runActions (n + 1)
        ({ s.transferred (src.eval s) x with dataIn := r, trace := s.trace ++ xferEvents (src.eval s) x }.goto rest) := by
  have h := runActions_bits 7 n (applyAll s [.loadTx src]) (msbBits x) r rest (by omega) (by simpa using hb) rfl rfl
    (by simpa using hd)
  simp only [xfer, bitStep, List.cons_append, List.nil_append] at h ⊢
  rw [show n + 1 + 64 = (n + 64) + 1 by omega, runActions_transfers _ _ _ _ _ hb,
    show n + 64 + 1 = n + 1 + 8 * (7 + 1) by omega, h]
  congr 1
  simp only [applyAll, List.foldl, Transfer.apply, bitsInto_msbBits, bitsEvents_msbBits, State.transferred, bitOf]
  rfl

/-! ### Several transfers -/

@[simp] theorem sent_nil (s : State) : s.sent [] = s := rfl

theorem sent_singleton (s : State) (b : Byte × Byte) : s.sent [b] = s.transferred b.1 b.2 := rfl

theorem sent_cons (s : State) (b : Byte × Byte) (l : List (Byte × Byte)) :
    s.sent (b :: l) = (s.transferred b.1 b.2).sent l := by
  simp only [State.sent, List.getLast?_cons]
  cases h : l.getLast? <;> simp [State.transferred]

/-- The transfers leave every field but those of the transport (R127). -/
theorem sent_eq (s : State) (l : List (Byte × Byte)) :
    s.sent l = { s with
      txb := (s.sent l).txb, rxb := (s.sent l).rxb, bitcnt := (s.sent l).bitcnt, clock := (s.sent l).clock,
      dataOut := (s.sent l).dataOut } := by
  simp only [State.sent]
  cases l.getLast? <;> rfl

@[simp] theorem sent_busy (s : State) (l : List (Byte × Byte)) : (s.sent l).busy = s.busy := by rw [sent_eq]
@[simp] theorem sent_trace (s : State) (l : List (Byte × Byte)) : (s.sent l).trace = s.trace := by rw [sent_eq]
@[simp] theorem sent_hb (s : State) (l : List (Byte × Byte)) : (s.sent l).hb = s.hb := by rw [sent_eq]
@[simp] theorem sent_stale (s : State) (l : List (Byte × Byte)) : (s.sent l).stale = s.stale := by rw [sent_eq]
@[simp] theorem sent_cfg (s : State) (l : List (Byte × Byte)) : (s.sent l).cfg = s.cfg := by rw [sent_eq]
@[simp] theorem sent_idx (s : State) (l : List (Byte × Byte)) : (s.sent l).idx = s.idx := by rw [sent_eq]
@[simp] theorem sent_cnt (s : State) (l : List (Byte × Byte)) : (s.sent l).cnt = s.cnt := by rw [sent_eq]

/-- What an `HB` burst's bytes beyond its transfers change: the index, the environment's levels, `HB`, `DRAIN` and `TRACE`. The
transfers commute with it. -/
def State.moved (s : State) (idx : Byte) (r : List Level) (hb : Memory) (drain : Byte) (t : List Event) : State :=
  { s with idx := idx, dataIn := r, hb := hb, drain := drain, trace := t }

theorem sent_moved (s : State) (l : List (Byte × Byte)) (i : Byte) (r : List Level) (hb : Memory) (dr : Byte)
    (t : List Event) : (s.moved i r hb dr t).sent l = (s.sent l).moved i r hb dr t := by
  simp only [State.sent]
  cases l.getLast? <;> rfl

/-- The frame's beginning: chip-select low, then the ready wait (R141). -/
theorem runActions_frameBegin (p n : Nat) (s : State) (pre : List Transfer) (r : List Level) (rest : Program)
    (hb : s.busy = true) (hd : s.dataIn = waitLevels false p ++ r) (hk : admits s.cfg p = true) :
    runActions (n + p + 2) (s.goto (frameBegin pre ++ rest)) =
      runActions n
        ({ applyAll s pre with
            chipSelect := false, pollcnt := p, dataIn := r,
            trace := s.trace ++ Event.set .chipSelect false :: waitEvents .dataIn false p }.goto rest) := by
  simp only [frameBegin, List.cons_append]
  rw [show n + p + 2 = (n + p + 1) + 1 by omega, runActions_transfers _ _ _ _ _ hb,
    runActions_setLine _ _ _ _ _ (by simpa using hb),
    runActions_waitLine p n _ .dataIn false r rest (by simpa [setLine] using hb)
      (by simpa [State.script, setLine] using hd) (by simpa [setLine] using hk)]
  congr 1
  simp [State.sampled, setLine, State.drive, State.emit, State.goto, waitLevels, waitEvents]

theorem burst_index_lt {s : State} {k : Nat} (h : s.cnt.toNat = s.idx.toNat + (k + 1)) : s.idx.toNat < s.cnt.toNat := by omega

theorem burst_index_next {s : State} {k : Nat} (h : s.cnt.toNat = s.idx.toNat + (k + 1)) :
    s.cnt.toNat = (s.idx + 1#8).toNat + k ∧ (s.idx + 1#8).toNat = s.idx.toNat + 1 := by
  have := s.cnt.isLt
  simp only [BitVec.toNat_add, BitVec.toNat_ofNat]
  omega

theorem burst_index_end {s : State} (h : s.cnt.toNat = s.idx.toNat) : s.cnt = s.idx := BitVec.eq_of_toNat_eq h

/-- The register transfers in front of a choice may be made beforehand. -/
theorem runActions_branch_transfers (n : Nat) (s : State) (pre : List Transfer) (b : Branch) (rest : Program)
    (hb : s.busy = true) :
    runActions (n + 1) (s.goto (.branch pre b :: rest)) = runActions (n + 1) ((applyAll s pre).goto (.branch [] b :: rest)) := by
  refine runActions_congr n hb (by simpa using hb) ?_
  simp only [controllerStep, goto_seq, settle_goto, settle]
  rfl

/-- A burst whose bytes are all moved goes on (R147, R148). -/
theorem runActions_burst_end (n : Nat) (s : State) (k : Burst) (rest : Program) (hb : s.busy = true)
    (hc : s.cnt.toNat = s.idx.toNat) :
    runActions (n + 1) (s.goto (.branch [] (.burst k) :: rest)) =
      runActions (n + 1) ((s.moved s.cnt s.dataIn s.hb s.drain s.trace).goto rest) := by
  rw [runActions_pass n s _ _ _ hb (by simp [Branch.expand, applyAll, hc])]
  congr 2
  have h := burst_index_end hc
  obtain ⟨⟩ := s
  simp only at h
  subst h
  rfl

/-- One byte of a burst from `HB` (R82, R147). -/
theorem runActions_outHb_byte (n : Nat) (s : State) (d x : Byte) (r : List Level) (rest : Program) (hb : s.busy = true)
    (hc : s.idx.toNat < s.cnt.toNat) (hq : s.stale = []) (hm : s.hb.read s.idx.toNat = some d)
    (hd : s.dataIn = msbBits x ++ r) :
    runActions (n + 1 + 65) (s.goto (.branch [] (.burst .outHb) :: rest)) =
      runActions (n + 1)
        (((s.transferred d x).moved (s.idx + 1#8) r s.hb s.drain
          (s.trace ++ .bufRd s.idx d :: xferEvents d x)).goto (.branch [] (.burst .outHb) :: rest)) := by
  rw [show n + 1 + 65 = (n + 65) + 1 by omega,
    runActions_expand _ s [] [] (.burst .outHb) .memRead (xfer .txb ++ [.branch [.nextIndex] (.burst .outHb)]) rest hb
      (by simp [Branch.expand, applyAll, hc, burstNext, burstByte])]
  obtain ⟨⟩ := s
  simp only at hb hc hq hm hd
  subst hb hd hq
  simp only [List.cons_append, List.append_assoc, List.nil_append, applyAll, List.foldl]
  rw [runActions_memRead _ _ _ _ rfl rfl hm, show n + 65 = n + 1 + 64 by omega,
    runActions_xfer n _ .txb x r _ rfl rfl, runActions_branch_transfers _ _ _ _ _ rfl]
  congr 1
  simp [applyAll, Transfer.apply, State.transferred, State.moved, State.goto, State.emit, ByteSrc.eval]

/-- A burst from `HB`: its bytes are read and sent in index order (R147). -/
theorem runActions_burstOut (l : List (Byte × Byte)) (n : Nat) (s : State) (r : List Level) (rest : Program)
    (hb : s.busy = true) (hc : s.cnt.toNat = s.idx.toNat + l.length) (hq : s.stale = [])
    (hm : s.hb.Holds s.idx.toNat (l.map (·.1)))
    (hd : s.dataIn = l.flatMap (fun b => msbBits b.2) ++ r) :
    runActions (n + 1 + 65 * l.length) (s.goto (.branch [] (.burst .outHb) :: rest)) =
      runActions (n + 1)
        (((s.sent l).moved s.cnt r s.hb s.drain (s.trace ++ burstOutEvents s.idx.toNat l)).goto rest) := by
  induction l generalizing s n with
  | nil =>
    simp only [List.flatMap_nil, List.nil_append] at hd
    rw [List.length_nil, Nat.mul_zero, Nat.add_zero, runActions_burst_end n s _ _ hb (by simpa using hc)]
    simp [burstOutEvents, hd]
  | cons b l ih =>
    obtain ⟨d, x⟩ := b
    simp only [List.length_cons] at hc
    obtain ⟨hn1, hn2⟩ := burst_index_next hc
    obtain ⟨hm1, hm2⟩ := hm
    rw [List.length_cons, show n + 1 + 65 * (l.length + 1) = (n + 65 * l.length) + 1 + 65 by omega,
      runActions_outHb_byte _ s d x (l.flatMap (fun b => msbBits b.2) ++ r) rest hb (burst_index_lt hc) hq hm1
        (by simpa using hd),
      show n + 65 * l.length + 1 = n + 1 + 65 * l.length by omega,
      ih n ((s.transferred d x).moved (s.idx + 1#8) (l.flatMap (fun b => msbBits b.2) ++ r) s.hb s.drain _) hb hn1 hq
        (by show s.hb.Holds (s.idx + 1#8).toNat _; rw [hn2]; exact hm2) rfl,
      sent_moved, sent_cons]
    congr 2
    simp only [State.moved, hn2, burstOutEvents, BitVec.ofNat_toNat, BitVec.setWidth_eq, List.append_assoc, List.cons_append,
      State.transferred]

/-- The bytes of `PA_TABLE` from index `k` on are the bytes `ds`. -/
def paHolds (c : Config) : Nat → List Byte → Prop
  | _, [] => True
  | k, d :: ds => c.paTable[k]? = some d ∧ paHolds c (k + 1) ds

/-- One byte of a burst from `PA_TABLE` (R147, R165). -/
theorem runActions_outPa_byte (n : Nat) (s : State) (d x : Byte) (r : List Level) (rest : Program) (hb : s.busy = true)
    (hc : s.idx.toNat < s.cnt.toNat) (hm : s.cfg.paTable[s.idx.toNat]? = some d) (hd : s.dataIn = msbBits x ++ r) :
    runActions (n + 1 + 64) (s.goto (.branch [] (.burst .outPa) :: rest)) =
      runActions (n + 1)
        (((s.transferred d x).moved (s.idx + 1#8) r s.hb s.drain (s.trace ++ xferEvents d x)).goto
          (.branch [] (.burst .outPa) :: rest)) := by
  rw [show n + 1 + 64 = (n + 64) + 1 by omega,
    runActions_expand_program _ s (.burst .outPa) (burstByte .outPa d) rest hb
      (by simp only [Branch.expand, hc, if_true, burstNext, hm]) ⟨_, _, _, rfl⟩]
  simp only [burstByte, List.append_assoc, List.cons_append, List.nil_append]
  rw [show n + 64 + 1 = n + 1 + 64 by omega, runActions_xfer n s (.imm d) x r _ hb hd,
    runActions_branch_transfers _ _ _ _ _ (by exact hb)]
  rfl

/-- A burst from `PA_TABLE` (R147, R165). -/
theorem runActions_burstPa (l : List (Byte × Byte)) (n : Nat) (s : State) (r : List Level) (rest : Program)
    (hb : s.busy = true) (hc : s.cnt.toNat = s.idx.toNat + l.length) (hm : paHolds s.cfg s.idx.toNat (l.map (·.1)))
    (hd : s.dataIn = l.flatMap (fun b => msbBits b.2) ++ r) :
    runActions (n + 1 + 64 * l.length) (s.goto (.branch [] (.burst .outPa) :: rest)) =
      runActions (n + 1) (((s.sent l).moved s.cnt r s.hb s.drain (s.trace ++ xfersEvents l)).goto rest) := by
  induction l generalizing s n with
  | nil =>
    simp only [List.flatMap_nil, List.nil_append] at hd
    rw [List.length_nil, Nat.mul_zero, Nat.add_zero, runActions_burst_end n s _ _ hb (by simpa using hc)]
    simp [xfersEvents, hd]
  | cons b l ih =>
    obtain ⟨d, x⟩ := b
    simp only [List.length_cons] at hc
    obtain ⟨hn1, hn2⟩ := burst_index_next hc
    obtain ⟨hm1, hm2⟩ := hm
    rw [List.length_cons, show n + 1 + 64 * (l.length + 1) = (n + 64 * l.length) + 1 + 64 by omega,
      runActions_outPa_byte _ s d x (l.flatMap (fun b => msbBits b.2) ++ r) rest hb (burst_index_lt hc) hm1
        (by simpa using hd),
      show n + 64 * l.length + 1 = n + 1 + 64 * l.length by omega,
      ih n ((s.transferred d x).moved (s.idx + 1#8) (l.flatMap (fun b => msbBits b.2) ++ r) s.hb s.drain _) hb hn1
        (by show paHolds s.cfg (s.idx + 1#8).toNat _; rw [hn2]; exact hm2) rfl,
      sent_moved, sent_cons]
    congr 2
    simp only [State.moved, xfersEvents, List.flatMap_cons, List.append_assoc, State.transferred]

/-- One byte of a burst into `HB` (R148). -/
theorem runActions_inHb_byte (n : Nat) (s : State) (x : Byte) (r : List Level) (rest : Program) (hb : s.busy = true)
    (hc : s.idx.toNat < s.cnt.toNat) (hd : s.dataIn = msbBits x ++ r) :
    runActions (n + 1 + 65) (s.goto (.branch [] (.burst .inHb) :: rest)) =
      runActions (n + 1)
        (((s.transferred dummy x).moved (s.idx + 1#8) r (s.hb.write s.idx.toNat x) s.drain
          (s.trace ++ (xferEvents dummy x ++ [.bufWr s.idx x]))).goto (.branch [] (.burst .inHb) :: rest)) := by
  rw [show n + 1 + 65 = (n + 65) + 1 by omega,
    runActions_expand_program _ s (.burst .inHb) (burstByte .inHb dummy) rest hb
      (by simp only [Branch.expand, hc, if_true, burstNext]) ⟨_, _, _, rfl⟩]
  simp only [burstByte, List.append_assoc, List.cons_append, List.nil_append]
  rw [show n + 65 + 1 = n + 1 + 1 + 64 by omega, runActions_xfer (n + 1) s (.imm dummy) x r _ hb hd,
    runActions_act _ _ _ (by exact hb) rfl]
  rw [runActions_branch_transfers _ _ _ _ _ (by exact hb)]
  congr 1
  simp [applyAll, Transfer.apply, State.transferred, State.moved, State.goto, State.emit, ByteSrc.eval]

/-- A burst into `HB`: the bytes sampled are stored in index order (R148). -/
theorem runActions_burstIn (l : List Byte) (n : Nat) (s : State) (r : List Level) (rest : Program)
    (hb : s.busy = true) (hc : s.cnt.toNat = s.idx.toNat + l.length) (hd : s.dataIn = l.flatMap msbBits ++ r) :
    runActions (n + 1 + 65 * l.length) (s.goto (.branch [] (.burst .inHb) :: rest)) =
      runActions (n + 1)
        (((s.sent (l.map (dummy, ·))).moved s.cnt r (s.hb.fill s.idx.toNat l) s.drain
          (s.trace ++ burstInEvents s.idx.toNat l)).goto rest) := by
  induction l generalizing s n with
  | nil =>
    simp only [List.flatMap_nil, List.nil_append] at hd
    rw [List.length_nil, Nat.mul_zero, Nat.add_zero, runActions_burst_end n s _ _ hb (by simpa using hc)]
    simp [burstInEvents, Memory.fill, hd]
  | cons x l ih =>
    simp only [List.length_cons] at hc
    obtain ⟨hn1, hn2⟩ := burst_index_next hc
    rw [List.length_cons, show n + 1 + 65 * (l.length + 1) = (n + 65 * l.length) + 1 + 65 by omega,
      runActions_inHb_byte _ s x (l.flatMap msbBits ++ r) rest hb (burst_index_lt hc) (by simpa using hd),
      show n + 65 * l.length + 1 = n + 1 + 65 * l.length by omega,
      ih n ((s.transferred dummy x).moved (s.idx + 1#8) (l.flatMap msbBits ++ r) (s.hb.write s.idx.toNat x) s.drain _) hb
        hn1 rfl,
      sent_moved, List.map_cons, sent_cons]
    congr 2
    simp only [State.moved, hn2, burstInEvents, Memory.fill, BitVec.ofNat_toNat, BitVec.setWidth_eq, List.append_assoc,
      List.cons_append, List.nil_append, State.transferred]

/-- One byte of a burst into `DRAIN` (R148, R186). -/
theorem runActions_inDrain_byte (n : Nat) (s : State) (x : Byte) (r : List Level) (rest : Program) (hb : s.busy = true)
    (hc : s.idx.toNat < s.cnt.toNat) (hd : s.dataIn = msbBits x ++ r) :
    runActions (n + 1 + 64) (s.goto (.branch [] (.burst .inDrain) :: rest)) =
      runActions (n + 1)
        (((s.transferred dummy x).moved (s.idx + 1#8) r s.hb x (s.trace ++ xferEvents dummy x)).goto
          (.branch [] (.burst .inDrain) :: rest)) := by
  rw [show n + 1 + 64 = (n + 64) + 1 by omega,
    runActions_expand_program _ s (.burst .inDrain) (burstByte .inDrain dummy) rest hb
      (by simp only [Branch.expand, hc, if_true, burstNext]) ⟨_, _, _, rfl⟩]
  simp only [burstByte, List.append_assoc, List.cons_append, List.nil_append]
  rw [show n + 64 + 1 = n + 1 + 64 by omega, runActions_xfer n s (.imm dummy) x r _ hb hd,
    runActions_branch_transfers _ _ _ _ _ (by exact hb)]
  congr 2
  simp [applyAll, Transfer.apply, State.transferred, State.moved, ByteSrc.eval]

/-- The two bytes of the trailer, each into `DRAIN` (R186). -/
theorem runActions_trailer (n : Nat) (s : State) (x y : Byte) (r : List Level) (rest : Program) (hb : s.busy = true)
    (hc : s.cnt = nTrailer) (hi : s.idx = 0#8) (hd : s.dataIn = msbBits x ++ (msbBits y ++ r)) :
    runActions (n + 1 + 128) (s.goto (.branch [] (.burst .inDrain) :: rest)) =
      runActions (n + 1)
        (((s.sent [(dummy, x), (dummy, y)]).moved nTrailer r s.hb y
          (s.trace ++ xfersEvents [(dummy, x), (dummy, y)])).goto rest) := by
  rw [show n + 1 + 128 = (n + 64) + 1 + 64 by omega,
    runActions_inDrain_byte _ s x (msbBits y ++ r) rest hb (by rw [hc, hi]; decide) hd,
    show n + 64 + 1 = n + 1 + 64 by omega,
    runActions_inDrain_byte n _ y r rest (by exact hb) (by show (s.idx + 1#8).toNat < s.cnt.toNat; rw [hc, hi]; decide) rfl,
    runActions_burst_end _ _ _ _ (by exact hb) (by show s.cnt.toNat = (s.idx + 1#8 + 1#8).toNat; rw [hc, hi]; decide)]
  congr 2
  simp [State.moved, State.transferred, sent_cons, xfersEvents, hc]

end Sys2Proof.Machine
end

