-- ==== Sys2Proof/Laws/Frames.lean ====
section
/-! SUPPORT. What each frame shape does to a turn (R92): the strobe, the two-byte frames, the bursts; and the walk of a configuration
table. One lemma per shape; an operation's run is a chain of them. -/

namespace Sys2Proof.Machine

/-- `s` after a frame, its events `body` in `TRACE`. -/
def State.framedWith (s : State) (h : Byte) (p : Nat) (l : List (Byte × Byte)) (r : List Level) (body : List Event) : State :=
  { s.framed h p l r with trace := s.trace ++ frameEvents p body }

/-- The transfers in front of a program may be made beforehand. -/
theorem runActions_withTransfers (n : Nat) (s : State) (ts : List Transfer) (p rest : Program) (hb : s.busy = true)
    (hp : ∃ pre a ms, p = .act pre a :: ms) :
    runActions (n + 1) (s.goto (withTransfers ts p ++ rest)) = runActions (n + 1) ((applyAll s ts).goto (p ++ rest)) := by
  obtain ⟨pre, a, ms, rfl⟩ := hp
  simp only [withTransfers, List.cons_append]
  rw [runActions_transfers _ _ _ _ _ hb, runActions_transfers _ _ pre _ _ (by simpa using hb)]
  simp [applyAll, List.foldl_append]

/-- The sensed levels of a frame with its first byte apart. -/
theorem frameLevels_cons (p : Nat) (x : Byte) (ins : List Byte) (r : List Level) :
    frameLevels p (x :: ins) ++ r = waitLevels false p ++ (msbBits x ++ (ins.flatMap msbBits ++ r)) := by
  simp [frameLevels]

/-- A frame of one byte (shape S, R92, R149). -/
theorem runActions_single (n p : Nat) (s : State) (a : Addr) (f x : Byte) (r : List Level) (rest : Program)
    (hb : s.busy = true) (hd : s.dataIn = frameLevels p [x] ++ r) (hk : admits s.cfg p = true) :
    runActions (n + (p + 67)) (s.goto (frame [.loadHdr a f] (xfer .hdr) ++ rest)) =
      runActions n
        ((s.framedWith (controlByte a f) p [(controlByte a f, x)] r (xferEvents (controlByte a f) x)).goto rest) := by
  rw [frameLevels_cons] at hd
  simp only [frame, frameEnd, List.append_assoc, List.cons_append, List.nil_append]
  rw [show n + (p + 67) = (n + 65) + p + 2 by omega, runActions_frameBegin p _ s _ _ _ hb hd hk,
    show n + 65 = n + 1 - 1 + 1 + 64 by omega, runActions_xfer _ _ .hdr x r _ (by simpa using hb) (by simp),
    show n + 1 - 1 + 1 = n + 1 by omega, runActions_setLine _ _ _ _ _ (by simpa [State.transferred] using hb)]
  congr 1
  simp [State.framedWith, State.framed, sent_singleton, State.transferred, State.goto, setLine, State.drive, State.emit,
    frameEvents, applyAll, Transfer.apply, ByteSrc.eval]

/-- A frame of two bytes (shapes W1 and R1, R92, R145, R146, R150). -/
theorem runActions_pair (n p : Nat) (s : State) (a : Addr) (f : Byte) (src : ByteSrc) (v x y : Byte) (r : List Level)
    (rest : Program) (hb : s.busy = true) (hv : src = .imm v ∨ src = .len ∧ s.len = v)
    (hd : s.dataIn = frameLevels p [x, y] ++ r) (hk : admits s.cfg p = true) :
    runActions (n + (p + 131)) (s.goto (frame [.loadHdr a f] (xfer .hdr ++ xfer src) ++ rest)) =
      runActions n
        ((s.framedWith (controlByte a f) p [(controlByte a f, x), (v, y)] r
          (xfersEvents [(controlByte a f, x), (v, y)])).goto rest) := by
  rw [frameLevels_cons] at hd
  simp only [List.flatMap_cons, List.flatMap_nil, List.append_nil] at hd
  simp only [frame, frameEnd, List.append_assoc, List.cons_append, List.nil_append]
  rw [show n + (p + 131) = (n + 129) + p + 2 by omega, runActions_frameBegin p _ s _ _ _ hb hd hk,
    show n + 129 = n + 64 + 1 + 64 by omega, runActions_xfer _ _ .hdr x (msbBits y ++ r) _ (by simpa using hb) (by simp),
    show n + 64 + 1 = n + 1 - 1 + 1 + 64 by omega, runActions_xfer _ _ src y r _ (by simpa [State.transferred] using hb) (by simp),
    show n + 1 - 1 + 1 = n + 1 by omega, runActions_setLine _ _ _ _ _ (by simpa [State.transferred] using hb)]
  congr 1
  rcases hv with rfl | ⟨rfl, rfl⟩ <;>
    simp [State.framedWith, State.framed, State.sent, State.transferred, State.goto, setLine, State.drive, State.emit,
      frameEvents, xfersEvents, applyAll, Transfer.apply, ByteSrc.eval]

/-- A burst from `HB` (shape WB, R92, R147). -/
theorem runActions_wburstHb (n p : Nat) (s : State) (a : Addr) (c : CountSrc) (x : Byte) (l : List (Byte × Byte))
    (r : List Level) (rest : Program) (hb : s.busy = true) (hc : (c.eval s).toNat = l.length)
    (hq : s.stale = []) (hm : s.hb.Holds 0 (l.map (·.1))) (hd : s.dataIn = frameLevels p (x :: l.map (·.2)) ++ r)
    (hk : admits s.cfg p = true) :
    runActions (n + (p + 67 + 65 * l.length)) (s.goto (wburst a .outHb c ++ rest)) =
      runActions n
        (({ s.framedWith (controlByte a flagBurst) p ((controlByte a flagBurst, x) :: l) r
              (xferEvents (controlByte a flagBurst) x ++ burstOutEvents 0 l) with
            cnt := c.eval s, idx := c.eval s }).goto rest) := by
  rw [frameLevels_cons] at hd
  have hd' : (l.map (·.2)).flatMap msbBits = l.flatMap fun b => msbBits b.2 := by simp [List.flatMap_map]
  rw [hd'] at hd
  simp only [wburst, frame, frameEnd, List.append_assoc, List.cons_append, List.nil_append]
  rw [show n + (p + 67 + 65 * l.length) = (n + 65 * l.length + 65) + p + 2 by omega, runActions_frameBegin p _ s _ _ _ hb hd hk,
    show n + 65 * l.length + 65 = n + 65 * l.length + 1 + 64 by omega,
    runActions_xfer _ _ .hdr x (l.flatMap (fun b => msbBits b.2) ++ r) _ (by simpa using hb) (by simp),
    show n + 65 * l.length + 1 = n + 1 + 65 * l.length by omega,
    runActions_burstOut l n _ r _ (by simpa [State.transferred] using hb)
      (by cases c <;> simpa [State.transferred, applyAll, Transfer.apply, CountSrc.eval] using hc)
      (by simpa [State.transferred] using hq) (by simpa [State.transferred, applyAll, Transfer.apply] using hm) rfl,
    runActions_setLine _ _ _ _ _ (by simpa [State.moved, State.transferred] using hb)]
  congr 1
  simp only [State.framedWith, State.framed, sent_cons]
  cases c <;> cases h : l.getLast? <;>
    simp [State.sent, h, State.transferred, State.moved, State.goto, setLine, State.drive, State.emit, frameEvents, applyAll,
      Transfer.apply, ByteSrc.eval, CountSrc.eval]

/-- A burst from `PA_TABLE` (shape WB, R92, R165). -/
theorem runActions_wburstPa (n p : Nat) (s : State) (a : Addr) (c : Byte) (x : Byte) (l : List (Byte × Byte))
    (r : List Level) (rest : Program) (hb : s.busy = true) (hc : c.toNat = l.length)
    (hm : paHolds s.cfg 0 (l.map (·.1))) (hd : s.dataIn = frameLevels p (x :: l.map (·.2)) ++ r)
    (hk : admits s.cfg p = true) :
    runActions (n + (p + 67 + 64 * l.length)) (s.goto (wburst a .outPa (.imm c) ++ rest)) =
      runActions n
        (({ s.framedWith (controlByte a flagBurst) p ((controlByte a flagBurst, x) :: l) r
              (xferEvents (controlByte a flagBurst) x ++ xfersEvents l) with cnt := c, idx := c }).goto rest) := by
  rw [frameLevels_cons] at hd
  have hd' : (l.map (·.2)).flatMap msbBits = l.flatMap fun b => msbBits b.2 := by simp [List.flatMap_map]
  rw [hd'] at hd
  simp only [wburst, frame, frameEnd, List.append_assoc, List.cons_append, List.nil_append]
  rw [show n + (p + 67 + 64 * l.length) = (n + 64 * l.length + 65) + p + 2 by omega, runActions_frameBegin p _ s _ _ _ hb hd hk,
    show n + 64 * l.length + 65 = n + 64 * l.length + 1 + 64 by omega,
    runActions_xfer _ _ .hdr x (l.flatMap (fun b => msbBits b.2) ++ r) _ (by simpa using hb) (by simp),
    show n + 64 * l.length + 1 = n + 1 + 64 * l.length by omega,
    runActions_burstPa l n _ r _ (by simpa [State.transferred] using hb)
      (by simpa [State.transferred, applyAll, Transfer.apply, CountSrc.eval] using hc)
      (by simpa [State.transferred, applyAll, Transfer.apply] using hm) rfl,
    runActions_setLine _ _ _ _ _ (by simpa [State.moved, State.transferred] using hb)]
  congr 1
  simp only [State.framedWith, State.framed, sent_cons]
  cases h : l.getLast? <;>
    simp [State.sent, h, State.transferred, State.moved, State.goto, setLine, State.drive, State.emit, frameEvents, applyAll,
      Transfer.apply, ByteSrc.eval, CountSrc.eval]

/-- A burst into `HB` (shape RB, R92, R148). -/
theorem runActions_rburstHb (n p : Nat) (s : State) (a : Addr) (c : CountSrc) (x : Byte) (ins : List Byte)
    (r : List Level) (rest : Program) (hb : s.busy = true) (hc : (c.eval s).toNat = ins.length)
    (hd : s.dataIn = frameLevels p (x :: ins) ++ r) (hk : admits s.cfg p = true) :
    runActions (n + (p + 67 + 65 * ins.length)) (s.goto (rburst a .inHb c ++ rest)) =
      runActions n
        (({ s.framedWith (controlByte a 0xC0#8) p ((controlByte a 0xC0#8, x) :: ins.map (dummy, ·)) r
              (xferEvents (controlByte a 0xC0#8) x ++ burstInEvents 0 ins) with
            cnt := c.eval s, idx := c.eval s, hb := s.hb.fill 0 ins }).goto rest) := by
  rw [frameLevels_cons] at hd
  simp only [rburst, show flagRead ||| flagBurst = 0xC0#8 from rfl, frame, frameEnd, List.append_assoc, List.cons_append,
    List.nil_append]
  rw [show n + (p + 67 + 65 * ins.length) = (n + 65 * ins.length + 65) + p + 2 by omega,
    runActions_frameBegin p _ s _ _ _ hb hd hk,
    show n + 65 * ins.length + 65 = n + 65 * ins.length + 1 + 64 by omega,
    runActions_xfer _ _ .hdr x (ins.flatMap msbBits ++ r) _ (by simpa using hb) (by simp),
    show n + 65 * ins.length + 1 = n + 1 + 65 * ins.length by omega,
    runActions_burstIn ins n _ r _ (by simpa [State.transferred] using hb)
      (by cases c <;> simpa [State.transferred, applyAll, Transfer.apply, CountSrc.eval] using hc) rfl,
    runActions_setLine _ _ _ _ _ (by simpa [State.moved, State.transferred] using hb)]
  congr 1
  simp only [State.framedWith, State.framed, sent_cons]
  cases c <;> cases h : (ins.map (dummy, ·)).getLast? <;>
    simp [State.sent, h, State.transferred, State.moved, State.goto, setLine, State.drive, State.emit, frameEvents, applyAll,
      Transfer.apply, ByteSrc.eval, CountSrc.eval]

/-- The burst of the trailer into `DRAIN` (shape RB, R186). -/
theorem runActions_rburstTrailer (n p : Nat) (s : State) (a : Addr) (x y z : Byte) (r : List Level) (rest : Program)
    (hb : s.busy = true) (hd : s.dataIn = frameLevels p [x, y, z] ++ r) (hk : admits s.cfg p = true) :
    runActions (n + (p + 195)) (s.goto (rburst a .inDrain (.imm nTrailer) ++ rest)) =
      runActions n
        (({ s.framedWith (controlByte a 0xC0#8) p [(controlByte a 0xC0#8, x), (dummy, y), (dummy, z)] r
              (xfersEvents [(controlByte a 0xC0#8, x), (dummy, y), (dummy, z)]) with
            cnt := nTrailer, idx := nTrailer, drain := z }).goto rest) := by
  rw [frameLevels_cons] at hd
  simp only [List.flatMap_cons, List.flatMap_nil, List.append_nil, List.append_assoc] at hd
  simp only [rburst, show flagRead ||| flagBurst = 0xC0#8 from rfl, frame, frameEnd, List.append_assoc, List.cons_append,
    List.nil_append]
  rw [show n + (p + 195) = (n + 193) + p + 2 by omega, runActions_frameBegin p _ s _ _ _ hb hd hk,
    show n + 193 = n + 128 + 1 + 64 by omega, runActions_xfer _ _ .hdr x (msbBits y ++ (msbBits z ++ r)) _ (by simpa using hb) (by simp),
    show n + 128 + 1 = n + 1 + 128 by omega,
    runActions_trailer n _ y z r _ (by simpa [State.transferred] using hb) rfl rfl rfl,
    runActions_setLine _ _ _ _ _ (by simpa [State.moved, State.transferred] using hb)]
  congr 1
  simp [State.framedWith, State.framed, State.sent, State.transferred, State.moved, State.goto, setLine, State.drive,
    State.emit, frameEvents, xfersEvents, applyAll, Transfer.apply, ByteSrc.eval, CountSrc.eval]

@[simp] theorem xferEvents_length (out inp : Byte) : (xferEvents out inp).length = 64 := rfl

/-- The events of a two-byte frame, counted. -/
theorem pairEvents_length (w : TableWrite) : (frameEvents w.2.1 (xfersEvents w.transfers)).length = w.2.1 + 131 := by
  simp [frameEvents, waitEvents, xfersEvents, TableWrite.transfers]

theorem tableEvents_cons (w : TableWrite) (l : List TableWrite) :
    tableEvents (w :: l) = frameEvents w.2.1 (xfersEvents w.transfers) ++ tableEvents l := rfl

theorem wrote_cons (s : State) (w : TableWrite) (l : List TableWrite) (q r : List Level) :
    (s.framed (controlByte w.1.1 0x00#8) w.2.1 w.transfers q).wrote l r = s.wrote (w :: l) r := by
  simp only [State.wrote, List.getLast?_cons]
  cases h : l.getLast? <;> simp [State.framed, State.sent, TableWrite.transfers, State.transferred]

/-- The walk of a configuration table from the entry at `TBLIDX` on: a single-write frame per pair, in table order (R165). -/
theorem runActions_table (l : List TableWrite) (n : Nat) (s : State) (t : Table) (r : List Level) (rest : Program)
    (hb : s.busy = true) (hp : (t.pairs s).drop s.tblidx = l.map (·.1)) (hd : s.dataIn = tableLevels l ++ r)
    (hk : ∀ w ∈ l, admits s.cfg w.2.1 = true) :
    runActions (n + 1 + (tableEvents l).length) (s.goto (.branch [] (.table t) :: rest)) =
      runActions (n + 1)
        (({ s.wrote l r with trace := s.trace ++ tableEvents l, tblidx := s.tblidx + l.length }).goto rest) := by
  induction l generalizing s n with
  | nil =>
    have hnone : (t.pairs s)[s.tblidx]? = none := by
      have := List.drop_eq_nil_iff.mp hp
      simpa using this
    rw [show n + 1 + (tableEvents []).length = n + 1 from rfl,
      runActions_pass n s _ _ _ hb (by simp [Branch.expand, applyAll, hnone])]
    congr 2
    simp only [tableLevels, List.flatMap_nil, List.nil_append] at hd
    subst hd
    simp [applyAll, State.wrote, tableEvents]
  | cons w l ih =>
    have hsome : (t.pairs s)[s.tblidx]? = some w.1 := by
      have := congrArg List.head? hp
      simpa using this
    have htail : (t.pairs s).drop (s.tblidx + 1) = l.map (·.1) := by
      have := congrArg List.tail hp
      simpa using this
    have hd' : s.dataIn = frameLevels w.2.1 [w.2.2.1, w.2.2.2] ++ (tableLevels l ++ r) := by
      simpa [tableLevels] using hd
    rw [tableEvents_cons, List.length_append, pairEvents_length,
      show n + 1 + (w.2.1 + 131 + (tableEvents l).length) = (n + (w.2.1 + 131) + (tableEvents l).length) + 1 by omega,
      runActions_expand_program _ s (.table t) (wreg w.1.1 (.imm w.1.2) ++ [.branch [.nextEntry] (.table t)]) rest hb
        (by simp only [Branch.expand, hsome]) ⟨_, _, _, rfl⟩,
      show n + (w.2.1 + 131) + (tableEvents l).length + 1 = (n + (tableEvents l).length + 1) + (w.2.1 + 131) by omega,
      wreg, List.append_assoc,
      runActions_pair _ w.2.1 s w.1.1 0x00#8 (.imm w.1.2) w.1.2 w.2.2.1 w.2.2.2 (tableLevels l ++ r) _ hb (.inl rfl) hd'
        (hk w (by simp)),
      List.singleton_append, runActions_branch_transfers _ _ _ _ _ (by simp [State.framedWith, State.framed, hb]),
      show n + (tableEvents l).length + 1 = n + 1 + (tableEvents l).length by omega]
    rw [ih n _ (by simp [State.framedWith, State.framed, hb])
      (by
        cases t <;>
          simpa [applyAll, Transfer.apply, Table.pairs, State.framedWith, State.framed, State.sent, State.transferred] using htail)
      (by simp [applyAll, Transfer.apply, State.framedWith, State.framed])
      (by intro v hv; simpa [State.framedWith, State.framed] using hk v (by simp [hv]))]
    congr 2
    have := wrote_cons s w l (tableLevels l ++ r) r
    rw [← this]
    simp only [State.wrote, State.framedWith]
    cases l.getLast? <;>
      simp [State.framed, State.sent, TableWrite.transfers, State.transferred, applyAll, Transfer.apply, Nat.add_assoc,
        Nat.add_comm 1]

/-- A frame whose ready wait is given up: the release and the completion follow, whatever the frame would have sent (R204). -/
theorem runActions_frame_late (k n : Nat) (s : State) (pre : List Transfer) (body : Program) (r : List Level) (rest : Program)
    (hb : s.busy = true) (hd : s.dataIn = List.replicate k true ++ r) (hk : s.cfg.pollBound = some k) (h1 : 1 ≤ k) :
    runActions (n + (k + 3)) (s.goto (frame pre body ++ rest)) =
      .next (complete ({ applyAll s pre with trace := s.trace ++ lateEvents k }.late k r) .timeout none) := by
  simp only [frame, frameBegin, List.cons_append, List.append_assoc]
  rw [show n + (k + 3) = n + 2 + k + 1 by omega, runActions_transfers _ _ _ _ _ hb, runActions_setLine _ _ _ _ _ (by simpa using hb),
    runActions_waitLine_late k (n + 2) _ .dataIn false r _ (by simpa [setLine] using hb)
      (by simpa [State.script, setLine, State.drive, State.emit] using hd) (by simpa [setLine, State.drive, State.emit] using hk) h1]
  simp only [abort, setLine, State.drive, State.emit, Bool.false_eq_true, if_false, frameEnd, reject, List.cons_append,
    List.nil_append]
  rw [runActions_setLine _ _ _ _ _ (by simpa [State.sampled] using hb),
    runActions_complete _ _ _ _ _ (by simpa [State.sampled, setLine, State.drive, State.emit] using hb)]
  simp [complete, State.late, State.sampled, setLine, State.drive, State.emit, lateEvents, ResultSrc.eval]

end Sys2Proof.Machine
end

