-- ==== Sys2Proof/Laws/Framing.lean ====
section
/-! SUPPORT. The laws of the framing discipline: what an event does to a phase and its levels, and that the procedures' programs keep the
discipline, one lemma per procedure. -/

namespace Sys2Proof.Machine

/-! ### Phases -/

theorem Phase.settled_shifting (f : Bool) (n : Nat) (h : n ≠ 64) : (Phase.shifting f n).settled = .shifting f n := by
  cases f <;> simp [Phase.settled] <;> (split <;> simp_all)

@[simp] theorem Phase.settled_settled (ph : Phase) : ph.settled.settled = ph.settled := by
  cases ph with
  | shifting f n =>
    by_cases hn : n = 64
    · subst hn; cases f <;> rfl
    · rw [settled_shifting f n hn, settled_shifting f n hn]
  | _ => rfl

/-- A settled phase is inside a transfer only where the phase is. -/
theorem Phase.settled_cases (ph : Phase) :
    (∃ f n, ph.settled = .shifting f n ∧ ph = .shifting f n) ∨ ∀ f n, ph.settled ≠ .shifting f n := by
  cases ph with
  | shifting f n =>
    by_cases hn : n = 64
    · subst hn; right; intro f' n'; cases f <;> simp [Phase.settled]
    · left; exact ⟨f, n, settled_shifting f n hn, rfl⟩
  | _ => right; intro f n; simp [Phase.settled]

@[simp] theorem Phase.chipSelect_shifting (f : Bool) (n : Nat) : (Phase.shifting f n).chipSelect = !f := by cases f <;> rfl

@[simp] theorem Phase.chipSelect_settled (ph : Phase) : ph.settled.chipSelect = ph.chipSelect := by
  rcases ph.settled_cases with ⟨f, n, h, h'⟩ | h
  · rw [h, h']
  · unfold Phase.settled; split <;> simp_all [Phase.chipSelect]

@[simp] theorem Phase.clock_settled (ph : Phase) : ph.settled.clock = ph.clock := by
  rcases ph.settled_cases with ⟨f, n, h, h'⟩ | h
  · rw [h, h']
  · unfold Phase.settled; split <;> simp_all [Phase.clock]

/-- An event sees a phase only through its settled form. -/
theorem Phase.after_congr {ph ph' : Phase} (h : ph.settled = ph'.settled) (e : Event) : ph.after e = ph'.after e := by
  simp only [Phase.after, h]

/-- An event that sets chip-select sets the phase's level. -/
theorem Phase.after_setChipSelect {ph ph' : Phase} {v : Level} (h : ph.after (.set .chipSelect v) = some ph') : ph'.chipSelect = v := by
  simp only [Phase.after] at h
  split at h <;> simp_all [Phase.chipSelect, bitEvent]
  all_goals (try (subst h; simp_all))

/-- Any other event leaves it. -/
theorem Phase.after_chipSelect {ph ph' : Phase} {e : Event} (h : ph.after e = some ph') (he : ∀ v, e ≠ .set .chipSelect v) :
    ph'.chipSelect = ph.chipSelect := by
  rw [← chipSelect_settled ph]
  simp only [Phase.after] at h
  split at h <;> (try (split at h)) <;> simp at h <;> (try subst h) <;> simp_all <;> simp [Phase.chipSelect]

/-- The trace's phase after one more event. -/
theorem phaseOf_snoc {t : List Event} {e : Event} {ph ph' : Phase} (h : phaseOf t = some ph) (h' : ph.after e = some ph') :
    phaseOf (t ++ [e]) = some ph' := by
  simp only [phaseOf] at *
  rw [List.foldl_append, h]
  exact h'

/-! ### Programs -/

/-- What keeps the discipline from a finished transfer's settled phase keeps it from the transfer's end. -/
theorem follows_settled (ph : Phase) (p : Program) (h : follows ph.settled p = true) : follows ph p = true := by
  cases p with
  | nil => simp [follows] at h
  | cons m rest =>
    cases m with
    | act pre a =>
      simp only [follows, Phase.after_congr ph.settled_settled, Phase.settled_settled] at h ⊢
      exact h
    | branch pre b =>
      cases b with
      | moreBits =>
        cases ph with
        | shifting f n =>
          by_cases hn : n = 64
          · subst hn; cases f <;> simp [Phase.settled, follows] at h
          · rw [Phase.settled_shifting f n hn] at h; exact h
        | _ => simp [Phase.settled, follows] at h
      | _ => simpa only [follows, Phase.settled_settled] using h

/-- One bit of a transfer, the `j`-th from 0, whose first event leads into it. -/
theorem follows_bitStep {ph : Phase} {f : Bool} {j : Nat} {pre : List Transfer} {rest : Program} (hj : j < 8)
    (h : ph.after (.set .clock false) = some (.shifting f (8 * j + 1))) (hl : (Phase.shifting f (8 * j + 1)).loads pre = true)
    (hr : follows (.shifting f 64) rest = true) : follows ph (bitStep pre ++ rest) = true := by
  simp only [bitStep, List.cons_append, List.nil_append]
  rw [follows]
  simp only [h, hl, Bool.true_and]
  interval_cases j <;> cases f <;> simp [follows, Phase.after, Phase.settled, bitEvent, Phase.loads, hr]

/-- A transfer: in a frame directly after the ready sample, or after another transfer; or outside a frame. -/
theorem follows_xfer {ph : Phase} {f : Bool} (src : ByteSrc) {rest : Program} (h : ph.after (.set .clock false) = some (.shifting f 1))
    (hr : follows (Phase.settled (.shifting f 64)) rest = true) : follows ph (xfer src ++ rest) = true :=
  follows_bitStep (j := 0) (by omega) h (by simp [Phase.loads]) (follows_settled _ _ hr)

theorem follows_xfer_ready (src : ByteSrc) {rest : Program} (h : follows .moving rest = true) :
    follows .ready (xfer src ++ rest) = true := follows_xfer src rfl h
theorem follows_xfer_moving (src : ByteSrc) {rest : Program} (h : follows .moving rest = true) :
    follows .moving (xfer src ++ rest) = true := follows_xfer src rfl h
theorem follows_xfer_released (src : ByteSrc) {rest : Program} (h : follows .released rest = true) :
    follows .released (xfer src ++ rest) = true := follows_xfer src rfl h

/-- A frame whose body keeps the discipline from the ready sample on (R140). -/
theorem follows_frame (pre : List Transfer) {body rest : Program} (hr : follows .released rest = true)
    (hb : ∀ r, follows .moving r = true → follows .ready (body ++ r) = true) :
    follows .released (frame pre body ++ rest) = true := by
  simp only [frame, frameBegin, waitLine, List.cons_append, List.nil_append, List.append_assoc, frameEnd]
  simp [follows, Phase.after, Phase.settled, Phase.loads]
  apply hb
  simp [follows, Phase.after, Phase.settled, Phase.loads, hr]

/-- The three shapes of a frame (R92): one transfer, two, a burst. -/
theorem follows_frame_single (pre : List Transfer) (a : ByteSrc) {rest : Program} (hr : follows .released rest = true) :
    follows .released (frame pre (xfer a) ++ rest) = true :=
  follows_frame pre hr fun _ h => follows_xfer_ready a h

theorem follows_frame_pair (pre : List Transfer) (a b : ByteSrc) {rest : Program} (hr : follows .released rest = true) :
    follows .released (frame pre (xfer a ++ xfer b) ++ rest) = true :=
  follows_frame pre hr fun _ h => by rw [List.append_assoc]; exact follows_xfer_ready a (follows_xfer_moving b h)

theorem follows_frame_burst (pre : List Transfer) (a : ByteSrc) (k : Burst) {rest : Program} (hr : follows .released rest = true) :
    follows .released (frame pre (xfer a ++ [.branch [] (.burst k)]) ++ rest) = true :=
  follows_frame pre hr fun _ h => by
    rw [List.append_assoc]
    exact follows_xfer_ready a (by simp [follows, Phase.settled, h])

/-- Register transfers in front of a frame do not matter. -/
theorem follows_withTransfers (ts pre : List Transfer) (body : Program) {rest : Program}
    (h : follows .released (frame pre body ++ rest) = true) : follows .released (withTransfers ts (frame pre body) ++ rest) = true := by
  simp only [frame, frameBegin, withTransfers, List.cons_append, follows, Phase.after, Phase.settled, Phase.loads, Bool.true_and] at h ⊢
  exact h

end Sys2Proof.Machine
end

