-- ==== Sys2Proof/Laws/PerInstr.lean ====
section
/-! SUPPORT. A statement for every command, one lemma per constructor: the fields of its word are the row's opcode and its operands
(R94, R102). -/

namespace Sys2Proof.Laws.Fields

/-- The word of `i` carries `i`'s opcode in bits 23:16 and its operands in bits 15:8 and 7:0 (R94, R95, R102). -/
def Statement (i : Instr) : Prop :=
  opField (encode i) = opcode i ∧ aField (encode i) = (operands i).1 ∧ nField (encode i) = (operands i).2

theorem all_fields (i : Instr) : Statement i := ⟨opField_encode i, aField_encode i, nField_encode i⟩

theorem xfer (outByte xn : Byte) : Statement (.xfer outByte xn) := all_fields _
theorem wreg (addr value : Byte) : Statement (.wreg addr value) := all_fields _
theorem rreg (addr xn : Byte) : Statement (.rreg addr xn) := all_fields _
theorem wburst (addr count : Byte) : Statement (.wburst addr count) := all_fields _
theorem rburst (addr count : Byte) : Statement (.rburst addr count) := all_fields _
theorem strobe (command xn : Byte) : Statement (.strobe command xn) := all_fields _
theorem rstat (addr xn : Byte) : Statement (.rstat addr xn) := all_fields _
theorem reset (xa xn : Byte) : Statement (.reset xa xn) := all_fields _
theorem configure (band xn : Byte) : Statement (.configure band xn) := all_fields _
theorem send (xa length : Byte) : Statement (.send xa length) := all_fields _
theorem setrx (xa xn : Byte) : Statement (.setrx xa xn) := all_fields _
theorem chkrx (xa xn : Byte) : Statement (.chkrx xa xn) := all_fields _
theorem recv (xa xn : Byte) : Statement (.recv xa xn) := all_fields _

end Sys2Proof.Laws.Fields
end

