-- ==== Sys2Proof/Tests/Slice0.lean ====
section
/-! SUPPORT. The model's own tests: well-formedness refused check by check, the words of the encoding tables, small runs with the
expected results of 95_test_vectors.md, and for every obligation with hypotheses a concrete state that meets them. -/

namespace Sys2Proof.Tests

open Sys2Proof.Machine

/-! ### WellFormed refuses an ill-formed term, check by check (R8, R104, R105) -/

theorem test_wf_address : (Instr.wreg 0x40#8 0#8).wellFormed = false ∧ (Instr.wreg 0x3F#8 0#8).wellFormed = true := by decide
theorem test_wf_status_address : (Instr.rstat 0x7B#8 0#8).wellFormed = false := by decide
theorem test_wf_length : (Instr.send 0#8 62#8).wellFormed = false ∧ (Instr.send 0#8 61#8).wellFormed = true := by decide
theorem test_wf_reference : Config.reference.wellFormed = true := by decide
theorem test_wf_pre :
    Config.preLengthOk { Config.reference with cfgPre := [] } = false ∧ Config.reference.preLengthOk = true := by decide
theorem test_wf_shared : Config.sharedLengthOk { Config.reference with cfgPost := [] } = false := by decide
theorem test_wf_pa : Config.paLengthOk { Config.reference with paTable := [0#8] } = false := by decide
theorem test_wf_band_count : Config.bandShapeOk { Config.reference with bandTable := [] } = false := by decide
theorem test_wf_band_pairs :
    Config.bandShapeOk { Config.reference with bandTable := [⟨0#8, []⟩, ⟨1#8, []⟩, ⟨2#8, []⟩] } = false := by decide
theorem test_wf_band_ids :
    Config.bandIdsOk { Config.reference with bandTable := [⟨0#8, []⟩, ⟨1#8, []⟩, ⟨0#8, []⟩] } = false := by decide
theorem test_wf_addresses :
    Config.addressesOk { Config.reference with cfgPre := [(0x0D#6, 0#8), (0x0C#6, 0#8)] } = false := by decide
theorem test_wf_flags : Config.statusFlagsOk { Config.reference with statusModeFlags := 0x40#8 } = false := by decide
theorem test_wf_mask : Config.maskOk { Config.reference with rxBytesMask := 0#8 } = false := by decide
theorem test_wf_bound : Config.boundOk { Config.reference with pollBound := some 0 } = false := by decide
theorem test_wf_whole : Config.wellFormed { Config.reference with pollBound := some 0 } = false := by decide

/-! ### Words written out bit by bit: `OP` at 23:16, `A` at 15:8, `N` at 7:0 (R94, R102) -/

theorem test_word_xfer : decode 0b00000000_10100101_00000000#24 = .ok (.xfer 0b10100101#8 0#8) := by decide
theorem test_word_wreg : decode 0b00010000_00000010_00101110#24 = .ok (.wreg 0b00000010#8 0b00101110#8) := by decide
theorem test_word_rreg : decode 0b00010001_00000010_11111111#24 = .ok (.rreg 0b00000010#8 0b11111111#8) := by decide
theorem test_word_wburst : decode 0b00010010_00111110_00000010#24 = .ok (.wburst 0b00111110#8 0b00000010#8) := by decide
theorem test_word_rburst : decode 0b00010011_00111111_00000011#24 = .ok (.rburst 0b00111111#8 0b00000011#8) := by decide
theorem test_word_strobe : decode 0b00010100_00111010_00000000#24 = .ok (.strobe 0b00111010#8 0#8) := by decide
theorem test_word_rstat : decode 0b00010101_00111011_00000000#24 = .ok (.rstat 0b00111011#8 0#8) := by decide
theorem test_word_reset : decode 0b00100000_00000000_00000000#24 = .ok (.reset 0#8 0#8) := by decide
theorem test_word_configure : decode 0b00100001_00000010_00000000#24 = .ok (.configure 0b00000010#8 0#8) := by decide
theorem test_word_send : decode 0b00110000_00000000_00000110#24 = .ok (.send 0#8 0b00000110#8) := by decide
theorem test_word_setrx : decode 0b00110001_00000000_00000000#24 = .ok (.setrx 0#8 0#8) := by decide
theorem test_word_chkrx : decode 0b00110010_00000000_00000000#24 = .ok (.chkrx 0#8 0#8) := by decide
theorem test_word_recv : decode 0b00110011_00000000_00000000#24 = .ok (.recv 0#8 0#8) := by decide
/-- T15: illegal words. -/
theorem test_word_illegal :
    decode 0x010000#24 = .error (.illegalOp 0x01#8) ∧ decode 0x220000#24 = .error (.illegalOp 0x22#8) ∧
      decode 0xFF1234#24 = .error (.illegalOp 0xFF#8) := by decide
theorem test_word_table : decodeTableWord 24 0x123E02 = some (.wburst 0x3E#8 2#8) ∧ decodeTableWord 16 0x123E02 = some (.xfer 0x3E#8 2#8) ∧
    decodeTableWord 32 0x123E02 = none := by decide

/-! ### Runs -/

/-- An idle block whose environment answers with the given levels, and whose controller is granted `n` actions. -/
def start (bound : Option Nat) (n : Nat) (dataIn done : List Level) : State :=
  { State.reset with
    cfg := { Config.reference with pollBound := bound }, dataIn := dataIn, done := done, turns := [.controller n] }

/-- The next step of `s` runs the word `w`. -/
def run (s : State) (w : Nat) : Outcome := step (s.withFetchWord 24 w)

/-- The state has `n` events, `CSR` and `RESULT` as given. -/
def shows (o : Outcome) (n : Nat) (csr result : Byte) : Bool :=
  match o with
  | .next t => t.trace.length == n && t.csr == csr && t.result == result
  | _ => false

/-- A test of one field of the state a run leaves. -/
def leaves (o : Outcome) (p : State → Bool) : Bool :=
  match o with
  | .next t => p t
  | _ => false

/-- The first step after reset runs the placed command: `BUSY` rises and the word is latched (R37, R231). -/
theorem test_first_step : leaves (run State.reset 0x10022E) (fun t => t.busy && t.cmd == 0x10022E#24) = true := by decide

/-- T1. -/
theorem test_xfer : shows (run (start none 65 [false, true, false, true, true, false, true, false] []) 0x00A500) 65 0x00#8 0x5A#8 = true := by
  decide +kernel
/-- T2: the first bit out is bit 7, the last sample in is bit 0. -/
theorem test_xfer_order :
    leaves (run (start none 65 [false, false, false, false, false, false, false, true] []) 0x008000)
      (fun t => t.result == 0x01#8 && t.trace.take 2 == [.set .clock false, .set .dataOut true]) = true := by decide +kernel
/-- T6. -/
theorem test_wreg : shows (run (start none 134 (frameLevels 2 [0x5A#8, 0xA5#8]) []) 0x10022E) 134 0x00#8 0x00#8 = true := by
  decide +kernel
/-- T14. -/
theorem test_wreg_bad_addr : shows (run (start none 9 [] []) 0x104000) 1 0x03#8 0x00#8 = true := by decide +kernel
/-- T7. -/
theorem test_rreg : shows (run (start none 132 (frameLevels 0 [0xFF#8, 0x2E#8]) []) 0x1102FF) 132 0x00#8 0x2E#8 = true := by
  decide +kernel
/-- T14. -/
theorem test_rreg_bad_addr : shows (run (start none 9 [] []) 0x11FF00) 1 0x03#8 0x00#8 = true := by decide +kernel
/-- T8. -/
theorem test_wburst :
    shows (run { start none 198 (frameLevels 0 [1#8, 2#8, 3#8]) [] with hb := [(0, 0xC0#8), (1, 0x00#8)] } 0x123E02) 198 0x00#8 0x00#8 =
      true := by decide +kernel
/-- T9. -/
theorem test_wburst_none : shows (run (start none 99 (frameLevels 0 [1#8]) []) 0x123F00) 68 0x00#8 0x00#8 = true := by decide +kernel
/-- T10. -/
theorem test_rburst :
    leaves (run (start none 263 (frameLevels 0 [1#8, 0xAA#8, 0xBB#8, 0xCC#8]) []) 0x133F03)
      (fun t => t.trace.length == 263 && t.hb == [(0, 0xAA#8), (1, 0xBB#8), (2, 0xCC#8)]) = true := by decide +kernel
/-- T14. -/
theorem test_rburst_bad_addr : shows (run (start none 9 [] []) 0x138001) 1 0x03#8 0x00#8 = true := by decide +kernel
/-- T12. -/
theorem test_strobe :
    leaves (run (start none 68 (frameLevels 0 [1#8]) []) 0x143A00) (fun t => t.trace.length == 68 && t.hdr == 0x3A#8 && t.chipSelect) =
      true := by decide +kernel
/-- T14. -/
theorem test_strobe_bad_addr : shows (run (start none 9 [] []) 0x144000) 1 0x03#8 0x00#8 = true := by decide +kernel
/-- T12, under RC1: control byte 0xFB. -/
theorem test_rstat :
    leaves (run (start none 132 (frameLevels 0 [1#8, 0x06#8]) []) 0x153B00) (fun t => t.result == 0x06#8 && t.hdr == 0xFB#8) = true := by
  decide +kernel
/-- T4, R204: three misses at `POLL_BOUND = 3`, the release, `TIMEOUT`. -/
theorem test_rstat_timeout :
    leaves (run (start (some 3) 99 [true, true, true] []) 0x153B00)
      (fun t => t.trace == [.set .chipSelect false, .read .dataIn true, .read .dataIn true, .read .dataIn true,
        .set .chipSelect true, .complete .timeout none] && t.csr == 0x01#8) = true := by decide +kernel
/-- The example of R161: 75 events. -/
theorem test_reset :
    shows (run (start none 99 (waitLevels false 2 ++ msbBits 0x0F#8 ++ waitLevels false 0) []) 0x200000) 75 0x00#8 0x00#8 = true := by
  decide +kernel
/-- R165: CONFIGURE is in state `Configuring` from its first action, and its first frame is the first pair of `CFG_PRE`. -/
theorem test_configure :
    leaves (run (start none 131 (frameLevels 0 [1#8, 2#8]) []) 0x210000)
      (fun t => t.csr == 0xA0#8 && t.trace.length == 131 && t.hdr == 0x0B#8 && t.txb == 0x06#8 && t.chipSelect) = true := by
  decide +kernel
/-- T20: over-long SEND. -/
theorem test_send_too_long : shows (run (start none 9 [] []) 0x30003E) 1 0x04#8 0x00#8 = true := by decide +kernel
/-- R177 with `N = 0`: four frames of 131, 67, 67, 67 line events, two done samples, the completion. -/
theorem test_send_empty :
    shows (run (start none 999
      (frameLevels 0 [1#8, 2#8] ++ frameLevels 0 [3#8] ++ frameLevels 0 [4#8] ++ frameLevels 0 [5#8]) [true, false]) 0x300000)
      335 0x00#8 0x00#8 = true := by decide +kernel
/-- R181. -/
theorem test_setrx :
    leaves (run (start none 68 (frameLevels 0 [1#8]) []) 0x310000) (fun t => t.trace.length == 68 && t.hdr == 0x34#8) = true := by
  decide +kernel
/-- The examples of R183. -/
theorem test_chkrx_low : shows (run (start none 9 [] [false]) 0x320000) 2 0x00#8 0x00#8 = true := by decide +kernel
theorem test_chkrx_high : shows (run (start none 9 [] [true, true, true, false]) 0x320000) 5 0x00#8 0x01#8 = true := by decide +kernel
/-- R186, nothing queued: two frames. -/
theorem test_recv_empty :
    shows (run (start none 999 (frameLevels 0 [1#8, 0x00#8] ++ frameLevels 0 [2#8]) []) 0x330000) 199 0x00#8 0x00#8 = true := by
  decide +kernel
/-- The example of R186, up to the first action of its second frame: state `Receiving`, the length byte is read next. -/
theorem test_recv :
    leaves (run (start none 132 (frameLevels 0 [1#8, 0x06#8]) []) 0x330000)
      (fun t => t.csr == 0xE0#8 && t.rxc == 0x06#8 && t.hdr == 0xBF#8 && !t.chipSelect) = true := by decide +kernel
/-- T15. -/
theorem test_illegal : shows (run (start none 9 [] []) 0x160000) 1 0x02#8 0x00#8 = true := by decide +kernel

/-- R82, V5: a host write of `HB` during an operation lands, and what the byte held is kept. -/
theorem test_hb_write_busy :
    leaves (step { start none 0 [] [] with
        busy := true, seq := reject .ok, turns := [.host], host := [.writeHb 0#8 7#8], hb := [(0, 1#8), (1, 2#8)] })
      (fun t => t.busy && t.hb == [(0, 7#8), (1, 2#8)] && t.stale == [(0, some 1#8)]) = true := by decide

/-- R82: the byte then sent is the old one or the new one. -/
theorem test_hb_race (d : Byte) (t : State) (h : memRead { State.reset with hb := [(0, 7#8)], stale := [(0, some 1#8)] } 0 = some (d, t)) :
    d = 7#8 ∨ d = 1#8 := by
  simp only [memRead, State.heldBefore, List.filterMap_cons, if_true, List.filterMap_nil, Option.some.injEq, Prod.mk.injEq] at h
  rcases Nat.mod_two_eq_zero_or_one (Config.freeChoice State.reset.draws) with hm | hm <;>
    simp [hm, Memory.read] at h <;> simp [← h.1]

/-! ### Every obligation's hypotheses are met -/

theorem wf_unbounded : Config.wellFormed { Config.reference with pollBound := none } = true := by decide
theorem wf_bounded : Config.wellFormed { Config.reference with pollBound := some 3 } = true := by decide

theorem admits_three : ∀ p ∈ [0, 1, 2], admits { Config.reference with pollBound := some 3 } p = true := by decide
theorem mask_empty : (0x80#8 : Byte) &&& Config.reference.rxBytesMask = 0#8 := by decide

theorem accepts_start (n : Nat) (d e : List Level) : Accepts (start none n d e) ∧ Accepts (start (some 3) n d e) :=
  ⟨⟨rfl, wf_unbounded⟩, ⟨rfl, wf_bounded⟩⟩

/-- A block that waits for nothing but the host's move `m`. -/
def idleWith (n : Nat) (m : HostMove) : State := { start none n [] [] with host := [m] }

/-- A busy block at the places `p`, its steps the controller's own. -/
def busyAt (p : Program) : State := { State.reset with busy := true, seq := p }

theorem hostMoves_idle (n : Nat) (m : HostMove) : HostMoves (idleWith n m) m (start none n [] []) := ⟨rfl, .inl ⟨rfl, rfl⟩⟩

/-- The host's move `m` in a busy block whose turn is the host's. -/
def busyWith (m : HostMove) : State := { busyAt (reject .ok) with host := [m], turns := [.host] }

theorem hostMoves_busy (m : HostMove) : HostMoves (busyWith m) m (busyAt (reject .ok)) := ⟨rfl, .inr ⟨rfl, rfl, rfl⟩⟩

theorem controllerAt_busy (pre : List Transfer) (a : Act) (rest : Program) :
    ControllerAt (busyAt (.act pre a :: rest)) (applyAll (busyAt (.act pre a :: rest)) pre) a rest :=
  ⟨rfl, rfl, pre, rfl, rfl⟩

theorem witness_EncodeDecode : decode 0x1102FF#24 = .ok (.rreg 0x02#8 0xFF#8) := by decide
theorem witness_ControlByte : (0x3F#8 : Byte).extractLsb' 6 2 = 0#2 ∧ (0x00#8 : Byte).extractLsb' 6 2 = 0#2 := by decide

theorem witness_StepRunsCommand :
    (idleWith 1 (.writeReg 0 0x310000#24)).busy = false ∧
    HostMoves (idleWith 1 (.writeReg 0 0x310000#24)) (.writeReg 0 0x310000#24) (start none 1 [] []) ∧
    decode 0x310000#24 = .ok (.setrx 0#8 0#8) ∧
    HostMoves (idleWith 0 (.writeReg 0 0x340000#24)) (.writeReg 0 0x340000#24) (start none 0 [] []) ∧
    decode 0x340000#24 = .error (.illegalOp 0x34#8) ∧ (start none 1 [] []).cfg.wellFormed = true ∧
    0 < (start none 1 [] []).grant ∧ (start none 0 [] []).grant = 0 :=
  ⟨rfl, hostMoves_idle _ _, by decide, hostMoves_idle _ _, by decide, by decide, by decide, rfl⟩

theorem witness_Acceptance : Accepts (start none 0 [] []) ∧ (start none 0 [] []).grant = 0 := ⟨(accepts_start ..).1, rfl⟩
theorem witness_IdleWaits : State.reset.busy = false ∧ State.reset.host = [] := ⟨rfl, rfl⟩

theorem witness_SetLineAndDelay :
    (∃ s u rest, ControllerAt s u (.setLine .clock true) rest) ∧ (∃ s u rest, ControllerAt s u (.setLine .dataOut true) rest) ∧
    (∃ s u rest, ControllerAt s u (.setLine .chipSelect false) rest) ∧ (∃ s u rest, ControllerAt s u (.delay .rstA) rest) :=
  ⟨⟨_, _, [], controllerAt_busy [.nextBit] _ _⟩, ⟨_, _, [], controllerAt_busy [] _ _⟩, ⟨_, _, [], controllerAt_busy [] _ _⟩,
    ⟨_, _, [], controllerAt_busy [] _ _⟩⟩

theorem witness_ReadLine : { State.reset with dataIn := [true] }.dataIn = true :: [] ∧
    { State.reset with done := [false] }.done = false :: [] := ⟨rfl, rfl⟩

theorem witness_CompleteAction : ∃ s u rest, ControllerAt s u (.complete .ok .rxb) rest := ⟨_, _, [], controllerAt_busy [] _ _⟩

theorem witness_OneEventPerAction :
    ∃ s s', s.busy = true ∧ s.turns = [] ∧ step s = .next s' := ⟨busyAt (reject .badAddr), _, rfl, rfl, rfl⟩
theorem witness_TraceOnlyGrows : ∃ s s', step s = .next s' := ⟨busyAt (reject .badAddr), _, rfl⟩
theorem witness_ConfigurationFixed : ∃ s s', step s = .next s' := ⟨idleWith 5 (.writeReg 0 0x104000#24), _, rfl⟩
theorem witness_CommandStable : ∃ s s', s.busy = true ∧ step s = .next s' := ⟨busyAt frameEnd, _, rfl, rfl⟩

theorem witness_OnlyCompleteWritesStatus :
    (∃ s s', step s = .next s' ∧ s'.busy = true) ∧
    (∃ s s', step s = .next s' ∧ ¬ (s'.status = s.status ∧ s'.result = s.result)) :=
  ⟨⟨busyAt frameEnd, _, rfl, rfl⟩, ⟨busyAt (reject .badAddr), _, rfl, by decide⟩⟩

theorem witness_TurnIsSingleSteps : Accepts State.reset ∧ State.reset.host = [] ∧ State.reset.turns = [] :=
  ⟨⟨rfl, by decide⟩, rfl, rfl⟩

/-- The three clauses: one miss and a match below the bound 3; three misses at it; unbounded misses. -/
theorem witness_PollingWait :
    (∃ s : State, s.busy = true ∧ s.turns = .controller 3 :: [] ∧ s.seq = waitLine .done true ++ [] ∧
      s.done = List.replicate 2 (!true) ++ true :: [] ∧ ∀ k, s.cfg.pollBound = some k → 2 < k) ∧
    (∃ s : State, s.busy = true ∧ s.turns = .controller 3 :: [] ∧ s.seq = waitLine .dataIn false ++ [] ∧
      s.dataIn = List.replicate 3 (!false) ++ [] ∧ s.cfg.pollBound = some 3) ∧
    (∃ s : State, s.busy = true ∧ s.turns = .controller 1 :: [] ∧ s.seq = waitLine .dataIn false ++ [] ∧
      s.dataIn = List.replicate 1 (!false) ++ [] ∧ s.cfg.pollBound = none) :=
  ⟨⟨{ start (some 3) 3 [] [false, false, true] with busy := true, seq := waitLine .done true }, rfl, rfl, rfl, rfl,
      fun k h => by cases h; decide⟩,
    ⟨{ start (some 3) 3 [true, true, true] [] with busy := true, seq := waitLine .dataIn false }, rfl, rfl, rfl, rfl, rfl⟩,
    ⟨{ start none 1 [true] [] with busy := true, seq := waitLine .dataIn false }, rfl, rfl, rfl, rfl, rfl⟩⟩

theorem witness_OperandFaults :
    Accepts (start none 1 [] []) ∧ (start none 1 [] []).opstate = .idle ∧ (start none 1 [] []).seq = [] ∧
    0 < (start none 1 [] []).grant ∧ (0x40#8 : Byte).extractLsb' 6 2 ≠ 0#2 ∧ 61 < (62#8 : Byte).toNat ∧
    HostMoves (idleWith 1 (.writeReg 0 0x010000#24)) (.writeReg 0 0x010000#24) (start none 1 [] []) ∧
    decode 0x010000#24 = .error (.illegalOp 0x01#8) :=
  ⟨(accepts_start ..).1, rfl, rfl, by decide, by decide, by decide, hostMoves_idle _ _, by decide⟩

theorem witness_CommandsRefused :
    (busyAt []).busy = true ∧ (start (some 0) 1 [] []).busy = false ∧ (start (some 0) 1 [] []).cfg.wellFormed = false :=
  ⟨rfl, rfl, by decide⟩

/-- A byte written before the command, one never written, one the host has written since. -/
theorem witness_MemReadAction :
    (∃ u rest, ControllerAt { busyAt [.act [] .memRead] with hb := [(0, 7#8)], stale := [(0, some 3#8), (1, none)] } u .memRead rest ∧
      ∃ c ∈ u.stale, c.1 = u.idx.toNat) ∧
    (∃ u rest, ControllerAt { busyAt [.act [] .memRead] with hb := [(0, 7#8)], stale := [(1, none)] } u .memRead rest ∧
      ∀ c ∈ u.stale, c.1 ≠ u.idx.toNat) ∧
    (∃ u rest, ControllerAt { busyAt [.act [] .memRead] with hb := [(0, 7#8)] } u .memRead rest ∧ u.hb.read u.idx.toNat = some 7#8) ∧
    (∃ u rest, ControllerAt (busyAt [.act [] .memRead]) u .memRead rest ∧ u.hb.read u.idx.toNat = none) :=
  ⟨⟨_, [], ⟨rfl, rfl, [], rfl, rfl⟩, by decide⟩, ⟨_, [], ⟨rfl, rfl, [], rfl, rfl⟩, by decide⟩,
    ⟨_, [], ⟨rfl, rfl, [], rfl, rfl⟩, rfl⟩, ⟨_, [], ⟨rfl, rfl, [], rfl, rfl⟩, rfl⟩⟩

theorem witness_Xfer : Accepts (start none 65 (msbBits 0x5A#8) []) ∧
    (start none 65 (msbBits 0x5A#8) []).dataIn = msbBits 0x5A#8 ++ [] ∧ 64 < (start none 65 (msbBits 0x5A#8) []).grant :=
  ⟨(accepts_start ..).1, rfl, by decide⟩

/-- The premises of the first and the last clause of `Wreg`, `Rreg`, `Wburst`, `Rburst`, `Strobe` and `Rstat` (`Setrx` has the last): a bad
address, and a ready wait given up at the bound 3. -/
theorem witness_address_and_timeout :
    (Accepts (start none 1 [] []) ∧ 64 ≤ (0x40#8 : Byte).toNat ∧ 64 ≤ (0xFF#8 : Byte).toNat ∧ 0 < (start none 1 [] []).grant) ∧
    (Accepts (start (some 3) 6 (List.replicate 3 true ++ []) []) ∧ (0x00#8 : Byte).toNat < 64 ∧ (0x3F#8 : Byte).toNat < 64 ∧
      (start (some 3) 6 (List.replicate 3 true ++ []) []).cfg.pollBound = some 3 ∧
      (start (some 3) 6 (List.replicate 3 true ++ []) []).dataIn = List.replicate 3 true ++ [] ∧
      3 + 3 ≤ (start (some 3) 6 (List.replicate 3 true ++ []) []).grant) :=
  ⟨⟨(accepts_start ..).1, by decide, by decide, by decide⟩, ⟨(accepts_start ..).2, by decide, by decide, rfl, rfl, by decide⟩⟩

/-- The three clauses of WREG, RREG and RSTAT at the edges of the address, of the grant and of the bound. -/
theorem witness_Wreg :
    (Accepts (start none 1 [] []) ∧ 64 ≤ (0x40#8 : Byte).toNat ∧ 0 < (start none 1 [] []).grant) ∧
    (Accepts (start (some 3) 134 (frameLevels 2 [1#8, 2#8]) []) ∧ (0x3F#8 : Byte).toNat < 64 ∧
      (start (some 3) 134 (frameLevels 2 [1#8, 2#8]) []).dataIn = frameLevels 2 [1#8, 2#8] ++ [] ∧
      admits (start (some 3) 134 (frameLevels 2 [1#8, 2#8]) []).cfg 2 = true ∧
      2 + 132 ≤ (start (some 3) 134 (frameLevels 2 [1#8, 2#8]) []).grant) ∧
    (Accepts (start (some 3) 6 [true, true, true] []) ∧ (start (some 3) 6 [true, true, true] []).cfg.pollBound = some 3 ∧
      (start (some 3) 6 [true, true, true] []).dataIn = List.replicate 3 true ++ [] ∧
      3 + 3 ≤ (start (some 3) 6 [true, true, true] []).grant) :=
  ⟨⟨(accepts_start ..).1, by decide, by decide⟩, ⟨(accepts_start ..).2, by decide, rfl, by decide, by decide⟩,
    ⟨(accepts_start ..).2, rfl, rfl, by decide⟩⟩
theorem witness_Rreg : Accepts (start (some 3) 134 (frameLevels 2 [1#8, 2#8]) []) ∧ (0x00#8 : Byte).toNat < 64 ∧
    (start (some 3) 134 (frameLevels 2 [1#8, 2#8]) []).dataIn = frameLevels 2 [1#8, 2#8] ++ [] ∧
    admits (start (some 3) 134 (frameLevels 2 [1#8, 2#8]) []).cfg 2 = true ∧ 64 ≤ (0xFF#8 : Byte).toNat :=
  ⟨(accepts_start ..).2, by decide, rfl, by decide, by decide⟩
theorem witness_Rstat : Accepts (start none 132 (frameLevels 0 [1#8, 2#8]) []) ∧ (0x3B#8 : Byte).toNat < 64 ∧
    (start none 132 (frameLevels 0 [1#8, 2#8]) []).dataIn = frameLevels 0 [1#8, 2#8] ++ [] ∧
    admits (start none 132 (frameLevels 0 [1#8, 2#8]) []).cfg 0 = true ∧
    0 + 132 ≤ (start none 132 (frameLevels 0 [1#8, 2#8]) []).grant ∧ 64 ≤ (0x7B#8 : Byte).toNat :=
  ⟨(accepts_start ..).1, by decide, rfl, by decide, by decide, by decide⟩
theorem witness_Strobe : Accepts (start none 68 (frameLevels 0 [1#8]) []) ∧ (0x3A#8 : Byte).toNat < 64 ∧
    (start none 68 (frameLevels 0 [1#8]) []).dataIn = frameLevels 0 [1#8] ++ [] ∧
    admits (start none 68 (frameLevels 0 [1#8]) []).cfg 0 = true ∧ 0 + 68 ≤ (start none 68 (frameLevels 0 [1#8]) []).grant ∧
    64 ≤ (0x40#8 : Byte).toNat :=
  ⟨(accepts_start ..).1, by decide, rfl, by decide, by decide, by decide⟩
theorem witness_Setrx : Accepts (start none 68 (frameLevels 0 [1#8]) []) ∧
    (start none 68 (frameLevels 0 [1#8]) []).dataIn = frameLevels 0 [1#8] ++ [] ∧
    Accepts (start (some 3) 6 [true, true, true] []) ∧
    (start (some 3) 6 [true, true, true] []).dataIn = List.replicate 3 true ++ [] :=
  ⟨(accepts_start ..).1, rfl, (accepts_start ..).2, rfl⟩

/-- The bytes of a burst of any length, all 0, as sent and as sampled. -/
def zeros (n : Nat) : List (Byte × Byte) := List.replicate n (0#8, 0#8)

/-- A block whose `HB` holds `n` zeros. -/
def filled (m n : Nat) (dataIn done : List Level) : State :=
  { start none m dataIn done with hb := Memory.fill [] 0 ((zeros n).map (·.1)) }

/-- The longest burst and the empty one. -/
theorem witness_Wburst (n : Nat) (hn : n = 0 ∨ n = 255) :
    Accepts (filled (68 + 65 * n) n (frameLevels 0 (1#8 :: (zeros n).map (·.2))) []) ∧ (0x3E#8 : Byte).toNat < 64 ∧
    (zeros n).length = (BitVec.ofNat 8 n).toNat ∧
    (filled (68 + 65 * n) n (frameLevels 0 (1#8 :: (zeros n).map (·.2))) []).hb.Holds 0 ((zeros n).map (·.1)) ∧
    (filled (68 + 65 * n) n (frameLevels 0 (1#8 :: (zeros n).map (·.2))) []).dataIn =
      frameLevels 0 (1#8 :: (zeros n).map (·.2)) ++ [] ∧
    0 + 68 + 65 * (BitVec.ofNat 8 n).toNat ≤ (filled (68 + 65 * n) n (frameLevels 0 (1#8 :: (zeros n).map (·.2))) []).grant := by
  refine ⟨⟨rfl, wf_unbounded⟩, by decide, ?_, Memory.fill_holds _ _ _, by simp [filled, start], ?_⟩
  · rcases hn with rfl | rfl <;> exact List.length_replicate
  · rcases hn with rfl | rfl <;> exact Nat.le_refl _
theorem witness_Rburst (n : Nat) (hn : n = 0 ∨ n = 255) :
    Accepts (start none (68 + 65 * n) (frameLevels 0 (1#8 :: List.replicate n 2#8)) []) ∧
    (List.replicate n 2#8).length = (BitVec.ofNat 8 n).toNat ∧ (0x3F#8 : Byte).toNat < 64 ∧
    (start none (68 + 65 * n) (frameLevels 0 (1#8 :: List.replicate n 2#8)) []).dataIn =
      frameLevels 0 (1#8 :: List.replicate n 2#8) ++ [] ∧
    0 + 68 + 65 * (BitVec.ofNat 8 n).toNat ≤ (start none (68 + 65 * n) (frameLevels 0 (1#8 :: List.replicate n 2#8)) []).grant := by
  refine ⟨(accepts_start ..).1, ?_, by decide, by simp [start], ?_⟩
  · rcases hn with rfl | rfl <;> exact List.length_replicate
  · rcases hn with rfl | rfl <;> exact Nat.le_refl _

/-- Both waits met, the first given up, the second given up. -/
theorem witness_Reset :
    (Accepts (start none 73 (waitLevels false 0 ++ (msbBits 1#8 ++ (waitLevels false 0 ++ []))) []) ∧
      0 + 0 + 73 ≤ (start none 73 (waitLevels false 0 ++ (msbBits 1#8 ++ (waitLevels false 0 ++ []))) []).grant) ∧
    (Accepts (start (some 3) 10 (List.replicate 3 true ++ []) []) ∧ 3 + 7 ≤ (start (some 3) 10 (List.replicate 3 true ++ []) []).grant) ∧
    (Accepts (start (some 3) 77 (waitLevels false 2 ++ (msbBits 1#8 ++ (List.replicate 3 true ++ []))) []) ∧
      admits (start (some 3) 77 [] []).cfg 2 = true ∧
      2 + 3 + 72 ≤ (start (some 3) 77 (waitLevels false 2 ++ (msbBits 1#8 ++ (List.replicate 3 true ++ []))) []).grant) :=
  ⟨⟨(accepts_start ..).1, by decide⟩, ⟨(accepts_start ..).2, by decide⟩, ⟨(accepts_start ..).2, by decide, by decide⟩⟩

/-- The pairs of a table, each written at once, the line low. -/
def writes (l : List (Addr × Byte)) : List TableWrite := l.map fun w => (w, 0, 0#8, 0#8)

theorem writes_map (l : List (Addr × Byte)) : (writes l).map (·.1) = l := by simp [writes, Function.comp_def]

/-- Levels that answer single writes and the amplitude burst at once. -/
def configureLevels (l : List (Addr × Byte)) : List Level :=
  tableLevels (writes l) ++ (frameLevels 0 (0#8 :: (Config.reference.paTable.map (·, (0#8 : Byte))).map (·.2)) ++ [])

/-- The hypotheses of `Configure`, all together, for a recognized band (2) and for an unrecognized one (255). -/
theorem witness_Configure (band : Byte) (sel : Option (Fin 3)) (ws : List (Addr × Byte))
    (hb : (band, sel, ws) = (2#8, some 2, [(0x0D#6, 0x23#8), (0x0E#6, 0x31#8), (0x0F#6, 0x3B#8)]) ∨ (band, sel, ws) = (255#8, none, [])) :
    ∃ (s : State) (pre mid post : List TableWrite) (l : List (Byte × Byte)),
      Accepts s ∧ Selects s.cfg band sel ws ∧ pre.map (·.1) = s.cfg.cfgPre ∧ mid.map (·.1) = ws ∧ post.map (·.1) = s.cfg.cfgPost ∧
      l.map (·.1) = s.cfg.paTable ∧ s.dataIn = tableLevels (pre ++ mid ++ post) ++ (frameLevels 0 (0#8 :: l.map (·.2)) ++ []) ∧
      (∀ w ∈ pre ++ mid ++ post, admits s.cfg w.2.1 = true) ∧ admits s.cfg 0 = true ∧
      (tableEvents (pre ++ mid ++ post) ++ frameEvents 0 (xferEvents 0x7E#8 0#8 ++ xfersEvents l)).length < s.grant := by
  refine ⟨start none 9999 (configureLevels (Config.reference.cfgPre ++ ws ++ Config.reference.cfgPost)) [],
    writes Config.reference.cfgPre, writes ws, writes Config.reference.cfgPost, Config.reference.paTable.map (·, 0#8),
    (accepts_start ..).1, ?_, writes_map _, writes_map _, writes_map _, rfl, ?_, fun _ _ => rfl, rfl, ?_⟩
  · rcases hb with hb | hb <;> cases hb
    · exact ⟨_, rfl, rfl, rfl⟩
    · exact ⟨rfl, by decide⟩
  · simp only [start, configureLevels, writes, List.map_append]
  · rcases hb with hb | hb <;> cases hb <;> decide +kernel

theorem band_three : ∀ b ∈ Config.reference.bandTable, b.id ≠ 3#8 := by decide

/-- The hypotheses of `ConfigureTimeout`: the very first frame given up, the frame of the last shared pair, and the amplitude burst. -/
theorem witness_ConfigureTimeout (l : List (Addr × Byte)) (w : Option (Addr × Byte))
    (hl : (l, w) = ([], some (0x0B#6, 0x06#8)) ∨
      (l, w) = (Config.reference.cfgPre ++ Config.reference.cfgPost.take 21, some (0x1A#6, 0x40#8)) ∨
      (l, w) = (Config.reference.cfgPre ++ [] ++ Config.reference.cfgPost, none)) :
    ∃ (s : State) (sent : List TableWrite),
      Accepts s ∧ Selects s.cfg 3#8 none [] ∧ s.cfg.pollBound = some 3 ∧ s.dataIn = tableLevels sent ++ (List.replicate 3 true ++ []) ∧
      (∀ v ∈ sent, admits s.cfg v.2.1 = true) ∧ (tableEvents sent ++ lateEvents 3).length < s.grant ∧
      (∀ v, w = some v → (sent.map (·.1) ++ [v]) <+: (s.cfg.cfgPre ++ [] ++ s.cfg.cfgPost)) ∧
      (w = none → sent.map (·.1) = s.cfg.cfgPre ++ [] ++ s.cfg.cfgPost) := by
  refine ⟨start (some 3) 9999 (tableLevels (writes l) ++ (List.replicate 3 true ++ [])) [], writes l, (accepts_start ..).2,
    ⟨rfl, band_three⟩, rfl, rfl, ?_, ?_, ?_, ?_⟩
  · intro v hv
    simp only [writes, List.mem_map] at hv
    obtain ⟨_, _, rfl⟩ := hv
    rfl
  · rcases hl with hl | hl | hl <;> cases hl <;> decide +kernel
  · intro v hv
    rw [writes_map]; rcases hl with hl | hl | hl <;> cases hl <;> cases hv <;> decide
  · intro hv
    rw [writes_map]; rcases hl with hl | hl | hl <;> cases hl <;> first | rfl | cases hv

/-- The levels of a SEND of `n` zeros, answered at once. -/
def sendLevels (n : Nat) : List Level :=
  frameLevels 0 [0#8, 0#8] ++ (frameLevels 0 (0#8 :: (zeros n).map (·.2)) ++ (frameLevels 0 [0#8] ++ (frameLevels 0 [0#8] ++ [])))

/-- The hypotheses of `Send`, all together, for the longest packet and the empty one. -/
theorem witness_Send (n : Nat) (hn : n = 0 ∨ n = 61) :
    ∃ (s : State) (l : List (Byte × Byte)),
      Accepts s ∧ (BitVec.ofNat 8 n).toNat ≤ 61 ∧ l.length = (BitVec.ofNat 8 n).toNat ∧ s.hb.Holds 0 (l.map (·.1)) ∧
      s.dataIn = frameLevels 0 [0#8, 0#8] ++ (frameLevels 0 (0#8 :: l.map (·.2)) ++ (frameLevels 0 [0#8] ++ (frameLevels 0 [0#8] ++ []))) ∧
      s.done = waitLevels true 0 ++ (waitLevels false 0 ++ []) ∧ (∀ p ∈ [0, 0, 0, 0, 0, 0], admits s.cfg p = true) ∧
      (frameEvents 0 (xferEvents 0x3F#8 0#8 ++ xferEvents (BitVec.ofNat 8 n) 0#8) ++
        frameEvents 0 (xferEvents 0x7F#8 0#8 ++ burstOutEvents 0 l) ++ frameEvents 0 (xferEvents 0x35#8 0#8) ++
        waitEvents .done true 0 ++ waitEvents .done false 0 ++ frameEvents 0 (xferEvents 0x3B#8 0#8)).length < s.grant := by
  refine ⟨filled 9999 n (sendLevels n) (waitLevels true 0 ++ (waitLevels false 0 ++ [])), zeros n, ⟨rfl, wf_unbounded⟩, ?_, ?_,
    Memory.fill_holds _ _ _, rfl, rfl, fun _ _ => rfl, ?_⟩
  · rcases hn with rfl | rfl <;> decide
  · rcases hn with rfl | rfl <;> exact List.length_replicate
  · rcases hn with rfl | rfl <;> decide +kernel

/-- The hypotheses of `SendTimeout`, clause by clause: the sensed levels `d` and `e` for each of the six waits that can give up, after a
payload of one byte, the length frame's ready wait missing twice. -/
theorem witness_SendTimeout (d e : List Level)
    (_ : (d, e) ∈ ([
      (List.replicate 3 true ++ [], []),
      (frameLevels 2 [0#8, 0#8] ++ (List.replicate 3 true ++ []), []),
      (frameLevels 2 [0#8, 0#8] ++ (frameLevels 0 [0#8, 9#8] ++ (List.replicate 3 true ++ [])), []),
      (frameLevels 2 [0#8, 0#8] ++ (frameLevels 0 [0#8, 9#8] ++ (frameLevels 0 [0#8] ++ [])), List.replicate 3 false ++ []),
      (frameLevels 2 [0#8, 0#8] ++ (frameLevels 0 [0#8, 9#8] ++ (frameLevels 0 [0#8] ++ [])),
        waitLevels true 2 ++ (List.replicate 3 true ++ [])),
      (frameLevels 2 [0#8, 0#8] ++ (frameLevels 0 [0#8, 9#8] ++ (frameLevels 0 [0#8] ++ (List.replicate 3 true ++ []))),
        waitLevels true 2 ++ (waitLevels false 1 ++ []))] : List (List Level × List Level))) :
    ∃ (s : State) (l : List (Byte × Byte)),
      Accepts s ∧ (1#8 : Byte).toNat ≤ 61 ∧ s.cfg.pollBound = some 3 ∧ l.length = (1#8 : Byte).toNat ∧ s.hb.Holds 0 (l.map (·.1)) ∧
      l.map (·.2) = [9#8] ∧ s.dataIn = d ∧ s.done = e ∧ (∀ p ∈ [2, 0, 0, 2, 1], admits s.cfg p = true) ∧
      (frameEvents 2 (xferEvents 0x3F#8 0#8 ++ xferEvents 1#8 0#8) ++
        frameEvents 0 (xferEvents 0x7F#8 0#8 ++ burstOutEvents 0 l) ++ frameEvents 0 (xferEvents 0x35#8 0#8) ++
        waitEvents .done true 2 ++ waitEvents .done false 1 ++ lateEvents 3).length < s.grant :=
  ⟨{ start (some 3) 999 d e with hb := [(0, 7#8)] }, [(7#8, 9#8)], ⟨rfl, wf_bounded⟩, by decide, rfl, rfl, ⟨rfl, trivial⟩, rfl, rfl, rfl,
    fun p hp => admits_three p (by simp only [List.mem_cons, List.not_mem_nil, or_false] at hp ⊢; omega),
    by show _ < 999; decide +kernel⟩

theorem witness_SetrxIsStrobe : ∃ t, exec (.setrx 0#8 0#8) (start none 1 [] []) = .next t := ⟨_, rfl⟩

theorem witness_Chkrx :
    (Accepts (start none 2 [] [false]) ∧ 2 ≤ (start none 2 [] [false]).grant) ∧
    (Accepts (start (some 3) 5 [] (true :: (waitLevels false 2 ++ []))) ∧ admits (start (some 3) 5 [] []).cfg 2 = true ∧
      2 + 3 ≤ (start (some 3) 5 [] (true :: (waitLevels false 2 ++ []))).grant) ∧
    (Accepts (start (some 3) 5 [] (true :: (List.replicate 3 true ++ []))) ∧ (start (some 3) 5 [] []).chipSelect = true ∧
      3 + 2 ≤ (start (some 3) 5 [] (true :: (List.replicate 3 true ++ []))).grant) :=
  ⟨⟨(accepts_start ..).1, by decide⟩, ⟨(accepts_start ..).2, by decide, by decide⟩, ⟨(accepts_start ..).2, rfl, by decide⟩⟩

/-- The levels of a RECV whose length byte is `n`, the payload all 2, up to the trailer's frame. -/
def recvLevels (n : Nat) (r : List Level) : List Level :=
  frameLevels 0 [0#8, 6#8] ++ (frameLevels 0 [0#8, BitVec.ofNat 8 n] ++ (frameLevels 0 (0#8 :: List.replicate n 2#8) ++ r))

theorem mask_six : (6#8 : Byte) &&& Config.reference.rxBytesMask ≠ 0#8 := by decide

/-- The hypotheses of `RecvQueued`, all together, for the longest payload and the empty one. -/
theorem witness_RecvQueued (n : Nat) (hn : n = 0 ∨ n = 255) :
    ∃ (s : State) (ins : List Byte),
      Accepts s ∧ (6#8 : Byte) &&& s.cfg.rxBytesMask ≠ 0#8 ∧ ins.length = (BitVec.ofNat 8 n).toNat ∧
      s.dataIn = frameLevels 0 [0#8, 6#8] ++ (frameLevels 0 [0#8, BitVec.ofNat 8 n] ++ (frameLevels 0 (0#8 :: ins) ++
        (frameLevels 0 [0#8, 1#8, 2#8] ++ (frameLevels 0 [0#8] ++ [])))) ∧
      (∀ p ∈ [0, 0, 0, 0, 0], admits s.cfg p = true) ∧
      (frameEvents 0 (xferEvents 0xFB#8 0#8 ++ xferEvents 0#8 6#8) ++
        frameEvents 0 (xferEvents 0xBF#8 0#8 ++ xferEvents 0#8 (BitVec.ofNat 8 n)) ++
        frameEvents 0 (xferEvents 0xFF#8 0#8 ++ burstInEvents 0 ins) ++
        frameEvents 0 (xferEvents 0xFF#8 0#8 ++ xferEvents 0#8 1#8 ++ xferEvents 0#8 2#8) ++
        frameEvents 0 (xferEvents 0x3A#8 0#8)).length < s.grant := by
  refine ⟨start none 99999 (recvLevels n (frameLevels 0 [0#8, 1#8, 2#8] ++ (frameLevels 0 [0#8] ++ []))) [], List.replicate n 2#8,
    (accepts_start ..).1, mask_six, ?_, rfl, fun _ _ => rfl, ?_⟩
  · rcases hn with rfl | rfl <;> exact List.length_replicate
  · rcases hn with rfl | rfl <;> decide +kernel

theorem witness_RecvEmpty :
    Accepts (start none 199 (frameLevels 0 [0#8, 0x80#8] ++ (frameLevels 0 [0#8] ++ [])) []) ∧
    (0x80#8 : Byte) &&& (start none 199 [] []).cfg.rxBytesMask = 0#8 ∧
    0 + 0 + 199 ≤ (start none 199 (frameLevels 0 [0#8, 0x80#8] ++ (frameLevels 0 [0#8] ++ [])) []).grant :=
  ⟨(accepts_start ..).1, by decide, by decide⟩

/-- The hypotheses of `RecvTrailerTimeout`, all together. -/
theorem witness_RecvTrailerTimeout :
    ∃ (s : State) (ins : List Byte),
      Accepts s ∧ (6#8 : Byte) &&& s.cfg.rxBytesMask ≠ 0#8 ∧ ins.length = (1#8 : Byte).toNat ∧ s.cfg.pollBound = some 3 ∧
      s.dataIn = frameLevels 0 [0#8, 6#8] ++ (frameLevels 0 [0#8, 1#8] ++ (frameLevels 0 (0#8 :: ins) ++
        (List.replicate 3 true ++ []))) ∧ (∀ p ∈ [0, 0, 0], admits s.cfg p = true) ∧
      (frameEvents 0 (xferEvents 0xFB#8 0#8 ++ xferEvents 0#8 6#8) ++ frameEvents 0 (xferEvents 0xBF#8 0#8 ++ xferEvents 0#8 1#8) ++
        frameEvents 0 (xferEvents 0xFF#8 0#8 ++ burstInEvents 0 ins) ++ lateEvents 3).length < s.grant :=
  ⟨start (some 3) 999 (recvLevels 1 (List.replicate 3 true ++ [])) [], [2#8], (accepts_start ..).2, by decide, rfl, rfl, rfl,
    fun _ h => by simp only [List.mem_cons, List.not_mem_nil, or_false, or_self] at h; subst h; rfl, by decide +kernel⟩

/-- The hypotheses of `RecvTimeout`, clause by clause: the count's, the length's and the empty branch's flush, the payload's and the
full branch's flush frame given up, the payload being one byte. -/
theorem witness_RecvTimeout (d : List Level) (x : Byte)
    (h : (d, x) ∈ ([
      (List.replicate 3 true ++ [], 6#8),
      (frameLevels 0 [0#8, 6#8] ++ (List.replicate 3 true ++ []), 6#8),
      (frameLevels 0 [0#8, 0x80#8] ++ (List.replicate 3 true ++ []), 0x80#8),
      (frameLevels 0 [0#8, 6#8] ++ (frameLevels 2 [0#8, 1#8] ++ (List.replicate 3 true ++ [])), 6#8),
      (frameLevels 0 [0#8, 6#8] ++ (frameLevels 2 [0#8, 1#8] ++ (frameLevels 0 [0#8, 2#8] ++
        (frameLevels 0 [0#8, 1#8, 2#8] ++ (List.replicate 3 true ++ [])))), 6#8)] : List (List Level × Byte))) :
    ∃ (s : State) (ins : List Byte),
      Accepts s ∧ s.cfg.pollBound = some 3 ∧ s.dataIn = d ∧ ins.length = (1#8 : Byte).toNat ∧ ins = [2#8] ∧
      (x &&& s.cfg.rxBytesMask ≠ 0#8 ∨ x = 0x80#8 ∧ x &&& s.cfg.rxBytesMask = 0#8) ∧ (∀ p ∈ [0, 2, 0, 0], admits s.cfg p = true) ∧
      (frameEvents 0 (xferEvents 0xFB#8 0#8 ++ xferEvents 0#8 6#8) ++ frameEvents 2 (xferEvents 0xBF#8 0#8 ++ xferEvents 0#8 1#8) ++
        frameEvents 0 (xferEvents 0xFF#8 0#8 ++ burstInEvents 0 ins) ++
        frameEvents 0 (xferEvents 0xFF#8 0#8 ++ xferEvents 0#8 1#8 ++ xferEvents 0#8 2#8) ++ lateEvents 3).length < s.grant := by
  refine ⟨start (some 3) 999 d [], [2#8], (accepts_start ..).2, rfl, rfl, rfl, rfl, ?_,
    fun p hp => admits_three p (by simp only [List.mem_cons, List.not_mem_nil, or_false] at hp ⊢; omega),
    by show _ < 999; decide +kernel⟩
  simp only [List.mem_cons, Prod.mk.injEq, List.not_mem_nil, or_false] at h
  rcases h with ⟨-, rfl⟩ | ⟨-, rfl⟩ | ⟨-, rfl⟩ | ⟨-, rfl⟩ | ⟨-, rfl⟩
  · exact .inl mask_six
  · exact .inl mask_six
  · exact .inr ⟨rfl, mask_empty⟩
  · exact .inl mask_six
  · exact .inl mask_six

theorem witness_IgnoredFields : ∃ t, exec (.recv 1#8 2#8) (start none 1 [] []) = .next t := ⟨_, rfl⟩
theorem witness_OperationFrame :
    (start none 1 [] []).opstate = .idle ∧ (start none 1 [] []).chipSelect = true ∧
      (∃ t, exec (.rburst 0x3F#8 2#8) (start none 1 [] []) = .next t) ∧
      (∃ t, exec (.chkrx 0#8 0#8) (start none 1 [] [true]) = .next t) ∧
      (∃ t, exec (.send 0#8 61#8) (start none 1 [] []) = .next t ∧ t.busy = true ∧ 0 < (start none 1 [] []).grant) ∧
      (∃ t, exec (.recv 0#8 0#8) (start none 0 [] []) = .next t ∧ t.busy = true ∧ (start none 0 [] []).grant = 0) :=
  ⟨rfl, rfl, ⟨_, rfl⟩, ⟨_, rfl⟩, ⟨_, rfl, rfl, by decide⟩, ⟨_, rfl, rfl, rfl⟩⟩

/-- Idle and busy blocks; the registers at the edges 0, 1, 2, 3. -/
theorem witness_HostRegisters :
    HostMoves (idleWith 0 (.readReg 1)) (.readReg 1) (start none 0 [] []) ∧ HostMoves (busyWith (.readReg 2)) (.readReg 2) (busyAt (reject .ok)) ∧
    HostMoves (idleWith 0 (.readReg 0)) (.readReg 0) (start none 0 [] []) ∧ HostMoves (busyWith (.readReg 3)) (.readReg 3) (busyAt (reject .ok)) ∧
    HostMoves (idleWith 0 (.writeReg 1 5#24)) (.writeReg 1 5#24) (start none 0 [] []) :=
  ⟨hostMoves_idle _ _, hostMoves_busy _, hostMoves_idle _ _, hostMoves_busy _, hostMoves_idle _ _⟩
/-- A busy block in the middle of the command `w`, the places `p` to come, the host reading `HB[i]`. -/
def busyReading (w : CmdWord) (p : Program) (n i : Byte) : State :=
  { busyWith (.readHb i) with cmd := w, seq := p, len := n, hb := [(255, 7#8)] }

/-- R71, R76: a byte at or above the length of a RECV in progress reads as it is, and so does any with nothing queued. -/
theorem test_hb_read_recv :
    leaves (step (busyReading 0x330000#24 (strobe 0x3A#6 ++ completeOk .len) 3#8 255#8)) (fun t => t.hostData == 7#24) = true ∧
    leaves (step { busyReading 0x330000#24 (strobe 0x3A#6 ++ completeOk (.imm 0x00#8)) 9#8 0#8 with hb := [(0, 7#8)] })
      (fun t => t.hostData == 7#24) = true := by decide

/-- R76, R204: in a RECV's abort a byte at or above `LEN` reads as it is once the length is read, and every byte before that. -/
theorem test_hb_read_recv_abort :
    leaves (step (busyReading 0x330000#24 (abort false ++ strobe 0x3A#6 ++ completeOk .len) 3#8 255#8)) (fun t => t.hostData == 7#24) = true ∧
    leaves (step { busyReading 0x330000#24 (abort false ++ [.branch [.rxcFromRxb] .received]) 9#8 0#8 with hb := [(0, 7#8)] })
      (fun t => t.hostData == 7#24) = true := by decide

theorem witness_HostBuffer :
    HostMoves (idleWith 0 (.writeHb 255#8 7#8)) (.writeHb 255#8 7#8) (start none 0 [] []) ∧
    HostMoves (busyWith (.writeHb 0#8 7#8)) (.writeHb 0#8 7#8) (busyAt (reject .ok)) ∧ (busyWith (.writeHb 0#8 7#8)).busy = true ∧
    HostMoves (idleWith 0 (.readHb 0#8)) (.readHb 0#8) (start none 0 [] []) ∧
    HostMoves { idleWith 0 (.readHb 0#8) with hb := [(0, 7#8)] } (.readHb 0#8) { start none 0 [] [] with hb := [(0, 7#8)] } :=
  ⟨hostMoves_idle _ _, hostMoves_busy _, rfl, hostMoves_idle _ _, ⟨rfl, .inl ⟨rfl, rfl⟩⟩⟩

/-- The reads of a busy block: another operation, an RBURST at its count, a RECV at its length, one with nothing queued, `HB[255]`; a RECV's
abort in the count's and in the length's frame. -/
theorem witness_HostBuffer_busy (w : CmdWord) (p : Program) (n i : Byte) :
    (∃ t, HostMoves (busyReading w p n i) (.readHb i) t) ∧ (busyReading w p n i).busy = true ∧
    decode 0x300006#24 = .ok (.send 0#8 6#8) ∧ decode 0x133FFF#24 = .ok (.rburst 0x3F#8 255#8) ∧
    (255#8 : Byte).toNat ≤ (255#8 : Byte).toNat ∧ decode 0x330000#24 = .ok (.recv 0#8 0#8) ∧
    (strobe 0x3A#6 ++ completeOk .len).getLast? = some (.act [] (.complete .ok .len)) ∧
    (∀ m ∈ strobe 0x3A#6 ++ completeOk .len, Transfer.lenFromRxb ∉ m.transfers) ∧
    (strobe 0x3A#6 ++ completeOk (.imm 0x00#8)).getLast? = some (.act [] (.complete .ok (.imm 0x00#8))) ∧
    Micro.act [] (.complete .timeout .unchanged) ∈ abort false ++ [Micro.branch [.rxcFromRxb] .received] ∧
    (abort false ++ [Micro.branch [.rxcFromRxb] .received]).getLast? ≠ some (.act [] (.complete .ok .len)) ∧
    (Micro.act [] (.complete .timeout .unchanged) ∈ abort false ++ withTransfers [.lenFromRxb] (strobe 0x3A#6) ++ completeOk .len ∧
      ∃ m ∈ abort false ++ withTransfers [.lenFromRxb] (strobe 0x3A#6) ++ completeOk .len, Transfer.lenFromRxb ∈ m.transfers) :=
  ⟨⟨{ busyReading w p n i with host := [], turns := [] }, rfl, .inr ⟨rfl, rfl, rfl⟩⟩, rfl, by decide, by decide, Nat.le_refl _, by decide,
    rfl, by decide, rfl, by decide, by decide, by decide, by decide⟩
theorem witness_HbCanonical : Memory.wf [(0, 1#8), (255, 2#8)] = true ∧ Memory.wf [(256, 1#8)] = false ∧ Memory.wf [(1, 1#8), (0, 2#8)] = false := by
  decide

/-- Idle and busy states of each invariant, each with a next step; the last stands after the first bit of a transfer. -/
theorem witness_FramingInvariant :
    Inv State.reset ∧ (∃ s', step State.reset = .next s') ∧
    Inv (busyAt (strobe 0x3A#6 ++ completeOk .unchanged)) ∧ (∃ s', step (busyAt (strobe 0x3A#6 ++ completeOk .unchanged)) = .next s') ∧
    (∃ s s', Inv s ∧ s.busy = true ∧ phaseOf s.trace = some (.shifting false 8) ∧ step s = .next s') :=
  ⟨⟨rfl, .released, rfl, rfl, rfl, (fun _ _ h => by cases h), by decide, by decide⟩, ⟨_, rfl⟩,
    ⟨rfl, .released, rfl, rfl, rfl, (fun _ _ h => by cases h), by decide, by decide⟩, ⟨_, rfl⟩,
    ⟨{ busyAt (.branch [] .moreBits :: completeOk .rxb) with bitcnt := 7#3, trace := bitEvents true false }, _,
      ⟨rfl, .shifting false 8, rfl, rfl, rfl, (fun _ _ h => by cases h; rfl), by decide, by decide⟩, rfl, rfl, rfl⟩⟩
theorem witness_NeverLost : Inv State.reset := witness_FramingInvariant.1
theorem witness_OpStateInvariant :
    OpStateInv State.reset ∧ (∃ s', step State.reset = .next s') ∧
    OpStateInv { busyAt (recvOp Config.reference) with cmd := 0x330000#24 } ∧
    ∃ s', step { busyAt (recvOp Config.reference) with cmd := 0x330000#24 } = .next s' ∧ s'.busy = true ∧ s'.trace ≠ [] :=
  ⟨⟨by decide, fun h => by cases h⟩, ⟨_, rfl⟩, ⟨by decide, fun _ => ⟨.inr ⟨rfl, _, _, rfl, by decide⟩, by decide⟩⟩, ⟨_, rfl, rfl, by decide⟩⟩
theorem witness_NoTimeoutInvariant :
    NoTimeoutInv State.reset ∧ (∃ s', step State.reset = .next s') ∧ NoTimeoutInv (busyAt (recvOp Config.reference)) ∧
    ∃ s', step (busyAt (recvOp Config.reference)) = .next s' :=
  ⟨⟨rfl, by decide, by decide⟩, ⟨_, rfl⟩, ⟨rfl, by decide, by decide⟩, ⟨_, rfl⟩⟩

theorem witness_ControllerFairness :
    ∃ s t : State, s.busy = true ∧ s.turns.length = 2 ∧ Host.Core.run Sys2Proof.core (s.turns.length + 1) s = .next t :=
  ⟨{ busyAt frameEnd with turns := [.host, .controller 0], host := [.readReg 1] }, _, rfl, rfl, rfl⟩

/-- An accepted CHKRX whose single sample is low: it ends; so does a bounded RSTAT. -/
theorem witness_Termination :
    Accepts { State.reset with done := [false] } ∧ { State.reset with done := [false] }.host = [] ∧
    { State.reset with done := [false] }.turns = [] ∧ { State.reset with done := [false] }.cfg.pollBound = none ∧
    (∀ k, k < bytesSent (.chkrx 0#8 0#8) → { State.reset with done := [false] }.hb.read k ≠ none) ∧
    (∃ t, exec (.chkrx 0#8 0#8) { State.reset with done := [false] } = .next t ∧ Ends t) ∧
    (∀ k, k < bytesSent (.wburst 0x3F#8 1#8) → (Memory.read [(0, 7#8)] k) ≠ none) ∧
    { start (some 3) 0 [] [] with turns := [] }.cfg.pollBound ≠ none :=
  ⟨⟨rfl, by decide⟩, rfl, rfl, rfl, fun k hk => absurd hk (Nat.not_lt_zero k), ⟨_, rfl, _, ⟨2, rfl⟩, rfl⟩,
    fun k hk => by obtain rfl : k = 0 := Nat.lt_one_iff.1 hk
                   decide, by decide⟩

end Sys2Proof.Tests
end

section
/-! The scope family: a turn of `n` actions is `n` single steps, and the controller is never without a next action. Both rest on two
facts about the controller: its action neither moves the host nor spends a turn, and it leaves a way to a completion at `SEQ`. -/

namespace Sys2Proof.Machine

/-! ### The operation of a command -/

/-- The operation that the acceptance of a command puts at `SEQ`. -/
def operation (c : Config) : Instr → Program
  | .xfer b _ => xferOp b
  | .wreg a v => wregOp a v
  | .rreg a _ => rregOp a
  | .wburst a n => wburstOp a n
  | .rburst a n => rburstOp a n
  | .strobe k _ => strobeOp k
  | .rstat a _ => rstatOp c a
  | .reset _ _ => resetOp c
  | .configure b _ => configureOp c b
  | .send _ n => sendOp c n
  | .setrx _ _ => setrxOp c
  | .chkrx _ _ => chkrxOp
  | .recv _ _ => recvOp c

/-- Every command is run by accepting its word with its operation (R37). -/
theorem exec_eq_accept (i : Instr) (s : State) : exec i s = accept s (encode i) (operation s.cfg i) := by
  cases i <;> rfl

/-- In a block that can accept it, a command starts its operation with the actions granted to it. -/
theorem exec_of_accepts (i : Instr) {s : State} (h : Accepts s) :
    exec i s = runActions s.grant (accepted s (encode i) (operation s.cfg i)) := by
  obtain ⟨hidle, hwf⟩ := h
  simp [exec_eq_accept, accept, hidle, hwf]

/-! ### Programs that lead to a completion -/

/-- The place completes the operation, or is one of the two choices whose outcomes do: CHKRX's read of `DONE`, RECV's count test. -/
def Micro.concludes : Micro → Bool
  | .act _ (.complete _ _) | .act _ .testDone | .branch _ .received => true
  | _ => false

/-- A completion stands ahead in the program. -/
def concludes (p : Program) : Bool := p.any Micro.concludes

@[simp] theorem concludes_nil : concludes [] = false := rfl
@[simp] theorem concludes_cons (m : Micro) (p : Program) : concludes (m :: p) = (m.concludes || concludes p) := rfl
@[simp] theorem concludes_append (p q : Program) : concludes (p ++ q) = (concludes p || concludes q) := List.any_append
@[simp] theorem concludes_completeOk (r : ResultSrc) : concludes (completeOk r) = true := rfl
@[simp] theorem concludes_reject (c : Status) : concludes (reject c) = true := rfl

@[simp] theorem concludes_recvTail (c : Config) (queued : Bool) : concludes (recvTail c queued) = true := by
  cases queued <;> simp [recvTail]

@[simp] theorem concludes_chkrxTail (high : Level) : concludes (chkrxTail high) = true := by
  cases high <;> simp [chkrxTail]

@[simp] theorem concludes_checked (a : Byte) (p : Addr → Program) (r : ResultSrc) :
    concludes (checked a fun k => p k ++ completeOk r) = true := by
  unfold checked
  split
  · rfl
  · simp

theorem concludes_sendOp (c : Config) (n : Byte) : concludes (sendOp c n) = true := by
  unfold sendOp
  split
  · rfl
  · simp

/-- The operation of every command leads to a completion. -/
theorem concludes_operation (c : Config) (i : Instr) : concludes (operation c i) = true := by
  cases i with
  | xfer => simp [operation, xferOp]
  | wreg => simp [operation, wregOp]
  | rreg => simp [operation, rregOp]
  | wburst => simp [operation, wburstOp]
  | rburst => simp [operation, rburstOp]
  | strobe => simp [operation, strobeOp]
  | rstat => simp [operation, rstatOp]
  | reset => simp [operation, resetOp]
  | configure => simp [operation, configureOp]
  | send _ n => exact concludes_sendOp c n
  | setrx => simp [operation, setrxOp]
  | chkrx => rfl
  | recv => simp [operation, recvOp, Micro.concludes]

theorem exists_follows_of_and {b : Bool} {ph : Phase} {p : Program} (h : (b && follows ph p) = true) :
    ∃ ph', follows ph' p = true :=
  ⟨ph, (Bool.and_eq_true_iff.1 h).2⟩

/-- A place that keeps the framing discipline concludes the operation, or what is behind it keeps the discipline. -/
theorem follows_cons {ph : Phase} {m : Micro} {rest : Program} (h : follows ph (m :: rest) = true) :
    m.concludes = true ∨ ∃ ph', follows ph' rest = true := by
  cases m with
  | act pre a =>
    cases a with
    | complete | testDone => exact .inl rfl
    | setLine | driveBit | delay =>
      simp only [follows] at h
      split at h
      · exact .inr (exists_follows_of_and h)
      · cases h
    | sampleBit =>
      simp only [follows] at h
      split at h
      · split at h
        · exact .inr (exists_follows_of_and h)
        · cases h
      · cases h
    | waitLine l v =>
      cases l with
      | dataIn =>
        simp only [follows] at h
        split at h
        · exact .inr (exists_follows_of_and h)
        · exact .inr ⟨_, h⟩
        · cases h
      | done => exact .inr (exists_follows_of_and h)
    | memRead | memWrite => exact .inr (exists_follows_of_and h)
  | branch pre b =>
    cases b with
    | received => exact .inl rfl
    | burst | table => exact .inr (exists_follows_of_and h)
    | moreBits =>
      simp only [follows] at h
      split at h
      · exact .inr (exists_follows_of_and h)
      · cases h

/-- A program that keeps the framing discipline leads to a completion. -/
theorem concludes_of_follows {ph : Phase} {p : Program} (h : follows ph p = true) : concludes p = true := by
  induction p generalizing ph with
  | nil => simp [follows] at h
  | cons m rest ih =>
    rw [concludes_cons, Bool.or_eq_true]
    exact (follows_cons h).imp_right fun ⟨_, hrest⟩ => ih hrest

/-! ### One action of the controller -/

/-- A choice goes on, and is not RECV's, or it puts places in front that begin with an action; RECV's lead to a completion. -/
theorem expand_cases (s : State) (b : Branch) :
    (b.expand s = [] ∧ b ≠ .received) ∨
    ∃ pre a ms, b.expand s = .act pre a :: ms ∧ (b = .received → concludes (.act pre a :: ms) = true) := by
  cases b with
  | moreBits =>
    simp only [Branch.expand]
    split
    · simp
    · exact .inr ⟨_, _, _, rfl, nofun⟩
  | burst k =>
    simp only [Branch.expand]
    split
    · split
      · cases k <;> exact .inr ⟨_, _, _, rfl, nofun⟩
      · simp
    · simp
  | table t =>
    simp only [Branch.expand]
    split
    · exact .inr ⟨_, _, _, rfl, nofun⟩
    · simp
  | received =>
    have h := concludes_recvTail s.cfg (bytesQueued s.cfg s.rxc)
    simp only [Branch.expand]
    cases hq : bytesQueued s.cfg s.rxc <;> rw [hq] at h <;> exact .inr ⟨_, _, _, rfl, fun _ => h⟩

theorem applyAll_append (s : State) (ts us : List Transfer) : applyAll s (ts ++ us) = applyAll (applyAll s ts) us :=
  List.foldl_append

/-- Making the choices in front makes register transfers only. The sequencer then stands at an action, a completion still ahead
if one was, or nothing is left of a program that led to none. -/
theorem settle_cases (p : Program) (s : State) :
    (concludes p = false ∧ ∃ ts, settle p s = (applyAll s ts).goto []) ∨
    ∃ ts pre a rest, settle p s = (applyAll s ts).goto (.act pre a :: rest) ∧
      (concludes p = true → concludes (.act pre a :: rest) = true) := by
  induction p generalizing s with
  | nil => exact .inl ⟨rfl, [], rfl⟩
  | cons m rest ih =>
    cases m with
    | act pre a => exact .inr ⟨[], pre, a, rest, rfl, id⟩
    | branch pre b =>
      obtain ⟨hb, hne⟩ | ⟨pre', a, ms, hb, hc⟩ := expand_cases (applyAll s pre) b
      · have hm : (Micro.branch pre b).concludes = false := by cases b <;> simp_all [Micro.concludes]
        have hs : settle (.branch pre b :: rest) s = settle rest (applyAll s pre) := by simp only [settle, hb]
        rw [concludes_cons, hm, Bool.false_or, hs]
        obtain ⟨hc, ts, h⟩ | ⟨ts, pre', a, rest', h, hc⟩ := ih (applyAll s pre)
        · exact .inl ⟨hc, pre ++ ts, by rw [h, applyAll_append]⟩
        · exact .inr ⟨pre ++ ts, pre', a, rest', by rw [h, applyAll_append], hc⟩
      · refine .inr ⟨pre, pre', a, ms ++ rest, by simp only [settle, hb, List.cons_append], fun h => ?_⟩
        rw [← List.cons_append, concludes_append, Bool.or_eq_true]
        rw [concludes_cons, Bool.or_eq_true] at h
        refine h.imp_left fun hm => hc ?_
        cases b <;> simp_all [Micro.concludes]

/-- What one step of the controller can do: it performs an action, after register transfers, and a completion that stood ahead still
stands at or behind that action; only where none stood ahead can it be lost instead. -/
theorem controllerStep_cases (s : State) :
    (concludes s.seq = false ∧ controllerStep s = .fault .sequencerLost) ∨
    ∃ ts pre a rest, controllerStep s = perform (applyAll s ts) a rest ∧
      (concludes s.seq = true → concludes (.act pre a :: rest) = true) := by
  obtain ⟨hc, ts, h⟩ | ⟨ts, pre, a, rest, h, hc⟩ := settle_cases s.seq s
  · exact .inl ⟨hc, by simp [controllerStep, h]⟩
  · exact .inr ⟨ts ++ pre, pre, a, rest, by simp [controllerStep, h, applyAll_goto, perform_goto, applyAll_append], hc⟩

/-- Performing an action is no fault. -/
theorem perform_ne_fault (s : State) (a : Act) (rest : Program) (f : Fault) : perform s a rest ≠ .fault f := by
  cases a with
  | memRead =>
    simp only [perform]
    split <;> nofun
  | _ => nofun

/-- An action neither moves the host nor spends a turn. -/
theorem perform_host_turns {s t : State} {a : Act} {rest : Program} (h : perform s a rest = .next t) :
    t.host = s.host ∧ t.turns = s.turns := by
  cases a with
  | memRead =>
    simp only [perform] at h
    split at h
    · next d s' hm =>
      obtain ⟨k, rfl⟩ := memRead_cases hm
      cases h
      exact ⟨rfl, rfl⟩
    · cases h
  | waitLine l v =>
    cases h
    simp only [waitSample]
    split <;> simp
  | setLine | driveBit | sampleBit | delay | testDone | memWrite | complete =>
    cases h
    simp [setLine]

/-- An action with a completion ahead leaves one ahead, unless it ends the operation. -/
theorem perform_concludes {s t : State} {pre : List Transfer} {a : Act} {rest : Program} (h : perform s a rest = .next t)
    (hc : concludes (.act pre a :: rest) = true) : t.busy = true → concludes t.seq = true := by
  cases a with
  | complete =>
    cases h
    simp
  | testDone =>
    cases h
    simp
  | memRead =>
    simp only [perform] at h
    split at h
    · cases h
      exact fun _ => hc
    · cases h
  | waitLine l v =>
    have hrest : concludes rest = true := hc
    cases h
    simp only [waitSample]
    split
    · exact fun _ => hrest
    · split <;> simp [hrest]
  | setLine | driveBit | sampleBit | delay | memWrite =>
    cases h
    exact fun _ => hc

theorem controllerStep_host_turns {s t : State} (h : controllerStep s = .next t) : t.host = s.host ∧ t.turns = s.turns := by
  obtain ⟨-, hf⟩ | ⟨ts, pre, a, rest, hp, -⟩ := controllerStep_cases s
  · simp [hf] at h
  · simpa using perform_host_turns (hp.symm.trans h)

/-! ### Turns and single steps -/

/-- A silent host's block with no turns given makes one action of the controller in a step, and none when idle. -/
theorem step_of_silent {s : State} (hh : s.host = []) (ht : s.turns = []) : step s = runActions 1 s := by
  cases hb : s.busy with
  | false => rw [runActions_idle 1 s hb]; simp [step, hb, hostTurn, hh]
  | true => simp [step, hb, busyTurn, ht]

/-- A turn of `n` actions is `n` single steps of a silent host's block (log entry 1). -/
theorem runActions_eq_run (n : Nat) {s : State} (hh : s.host = []) (ht : s.turns = []) :
    runActions n s = Host.Core.run Sys2Proof.core n s := by
  induction n generalizing s with
  | zero => rfl
  | succ n ih =>
    have hstep : Sys2Proof.core.step s = runActions 1 s := step_of_silent hh ht
    simp only [Host.Core.run, hstep]
    cases hb : s.busy with
    | false =>
      simp only [runActions_idle _ s hb]
      rw [← ih hh ht, runActions_idle n s hb]
    | true =>
      simp only [runActions, hb, if_true]
      cases hc : controllerStep s with
      | next t =>
        obtain ⟨hh', ht'⟩ := controllerStep_host_turns hc
        exact ih (hh'.trans hh) (ht'.trans ht)
      | fault | refused => rfl

/-- Settles O20, by induction on the number of actions. -/
theorem turnIsSingleSteps : Obligations.TurnIsSingleSteps := by
  intro i s n hacc hh ht
  refine ⟨accepted s (encode i) (operation s.cfg i), ?_, ?_⟩
  · rw [exec_of_accepts i hacc, State.grant, ht, runActions_zero]
  · rw [← runActions_eq_run n (by exact hh) (by simp [State.turnsAfter, ht]),
      exec_of_accepts i (s := { s with turns := [.controller n] }) hacc]
    simp [State.grant, accepted, State.turnsAfter, ht]

/-! ### No fault -/

/-- A turn that begins with a completion ahead of a busy controller never finds it lost. -/
theorem runActions_ne_fault (n : Nat) {s : State} (hc : s.busy = true → concludes s.seq = true) (f : Fault) :
    runActions n s ≠ .fault f := by
  induction n generalizing s with
  | zero => nofun
  | succ n ih =>
    cases hb : s.busy with
    | false => rw [runActions_idle _ s hb]; nofun
    | true =>
      obtain ⟨hlost, -⟩ | ⟨ts, pre, a, rest, hp, hahead⟩ := controllerStep_cases s
      · simp [hc hb] at hlost
      · cases hn : perform (applyAll s ts) a rest with
        | next t =>
          rw [runActions_next n hb (hp.trans hn)]
          exact ih (perform_concludes hn (hahead (hc hb)))
        | fault g => exact absurd hn (perform_ne_fault _ _ _ g)
        | refused r => simp [runActions, hb, hp, hn]

theorem accept_ne_fault (s : State) (w : CmdWord) {p : Program} (hp : concludes p = true) (f : Fault) : accept s w p ≠ .fault f := by
  unfold accept
  split
  · nofun
  · split
    · exact runActions_ne_fault _ (fun _ => hp) f
    · nofun

theorem hostCommand_ne_fault (s : State) (w : CmdWord) (f : Fault) : hostCommand s w ≠ .fault f := by
  unfold hostCommand
  split
  · next i _ => rw [exec_eq_accept]; exact accept_ne_fault s _ (concludes_operation s.cfg i) f
  · exact accept_ne_fault s w rfl f

/-- No move of the host is a fault, in any state. -/
theorem hostTurn_ne_fault (s : State) (f : Fault) : hostTurn s ≠ .fault f := by
  unfold hostTurn
  split
  · nofun
  · next m ms _ =>
    cases m with
    | writeReg number w =>
      cases number with
      | zero => exact hostCommand_ne_fault _ w f
      | succ => nofun
    | readReg | writeHb | readHb => nofun

/-- Settles O52: a busy block of the framing invariant has a completion ahead, which every action keeps ahead until it is made. -/
theorem neverLost : Obligations.NeverLost := by
  intro s hinv f
  obtain ⟨-, ph, -, -, -, -, -, hfollows⟩ := hinv
  have hc : s.busy = true → concludes s.seq = true := fun hb => concludes_of_follows (hfollows hb)
  unfold step
  split
  · unfold busyTurn
    split
    · exact runActions_ne_fault 1 hc f
    · next n ts _ => exact runActions_ne_fault n (s := { s with turns := ts }) hc f
    · exact hostTurn_ne_fault _ f
  · exact hostTurn_ne_fault s f

end Sys2Proof.Machine
end

section
/-! The laws that statements about steps rest on: what the controller carries through a turn (`Carries`), and what an action and a step can
do, said once. -/

namespace Sys2Proof.Machine

/-! ### What the controller carries through a turn -/

/-- `Ok s p` is about a state with the places `p` still to perform. The choices in front keep it, an action performed from it reaches `Q`,
and what has reached `Q` and is still busy meets it again. -/
structure Carries (Ok : State → Program → Prop) (Q : State → Prop) : Prop where
  choice : ∀ {s pre b rest}, Ok s (.branch pre b :: rest) → Ok (applyAll s pre) (b.expand (applyAll s pre) ++ rest)
  action : ∀ {s t pre a rest}, s.busy = true → Ok s (.act pre a :: rest) → perform (applyAll s pre) a rest = .next t → Q t
  again : ∀ {t}, t.busy = true → Q t → Ok t t.seq

theorem Carries.settle {Ok : State → Program → Prop} {Q : State → Prop} (h : Carries Ok Q) (p : Program) {s : State} (hok : Ok s p) :
    ∃ ts q, Machine.settle p s = (applyAll s ts).goto q ∧ Ok (applyAll s ts) q := by
  induction p generalizing s with
  | nil => exact ⟨[], [], rfl, hok⟩
  | cons m rest ih =>
    cases m with
    | act pre a => exact ⟨[], _, rfl, hok⟩
    | branch pre b =>
      have hexp := h.choice hok
      simp only [Machine.settle]
      split
      · next hnil =>
        rw [hnil] at hexp
        obtain ⟨ts, q, hs, hq⟩ := ih hexp
        exact ⟨pre ++ ts, q, by rw [hs, applyAll_append], by rwa [applyAll_append]⟩
      · next m ms hcons => exact ⟨pre, m :: ms ++ rest, rfl, hcons ▸ hexp⟩

theorem Carries.controllerStep {Ok : State → Program → Prop} {Q : State → Prop} (h : Carries Ok Q) {s t : State} (hb : s.busy = true)
    (hok : Ok s s.seq) (hn : controllerStep s = .next t) : Q t := by
  obtain ⟨ts, q, hs, hq⟩ := h.settle s.seq hok
  simp only [Machine.controllerStep, hs, goto_seq, applyAll_goto, perform_goto] at hn
  split at hn
  · exact h.action (by simpa using hb) hq hn
  · cases hn

/-- A turn reaches `Q`, unless it takes no action. -/
theorem Carries.runActions {Ok : State → Program → Prop} {Q : State → Prop} (h : Carries Ok Q) (n : Nat) {s t : State}
    (hok : s.busy = true → Ok s s.seq) (hn : runActions n s = .next t) : Q t ∨ t = s ∧ (n = 0 ∨ s.busy = false) := by
  induction n generalizing s with
  | zero => cases hn; exact .inr ⟨rfl, .inl rfl⟩
  | succ n ih =>
    cases hb : s.busy with
    | false =>
      rw [runActions_idle _ s hb] at hn
      cases hn
      exact .inr ⟨rfl, .inr rfl⟩
    | true =>
      simp only [Machine.runActions, hb, if_true] at hn
      split at hn
      · next u hu =>
        have hq := h.controllerStep hb (hok hb) hu
        obtain hQ | ⟨rfl, -⟩ := ih (fun hb' => h.again hb' hq) hn
        · exact .inl hQ
        · exact .inl hq
      · cases hn
      · cases hn

/-- The case of what does not speak of the places still to perform: a turn keeps it. -/
theorem runActions_keeps {R : State → Prop} (happly : ∀ s ts, R s → R (applyAll s ts))
    (hact : ∀ {s t a rest}, s.busy = true → R s → perform s a rest = .next t → R t) (n : Nat) {s t : State} (hs : R s)
    (hn : runActions n s = .next t) : R t := by
  have h : Carries (fun s _ => R s) R :=
    ⟨fun {s pre _ _} h => happly s pre h, fun {s _ pre _ _} hb h => hact (by simpa using hb) (happly s pre h), fun _ h => h⟩
  obtain h | ⟨rfl, -⟩ := h.runActions n (fun _ => hs) hn
  · exact h
  · exact hs

/-! ### What an action can do -/

/-- A `MemRead` that is not refused takes a byte into `TXB`. -/
theorem perform_memRead {s t : State} {rest : Program} (h : perform s .memRead rest = .next t) :
    ∃ d k, t = { s with txb := d, draws := k, trace := s.trace ++ [.bufRd s.idx d], seq := rest } := by
  simp only [perform] at h
  split at h
  · next d s' hm =>
    obtain ⟨k, rfl⟩ := memRead_cases hm
    cases h
    exact ⟨d, k, rfl⟩
  · cases h

/-- A sample of a wait changes the counter of misses and, beside what the sample does, only what stands at `SEQ`: what is behind the wait,
the wait again, or the abort. -/
theorem perform_waitLine {s t : State} {l : SensedLine} {v : Level} {rest : Program} (h : perform s (.waitLine l v) rest = .next t) :
    ∃ k q, t = { (readLine s l).2 with pollcnt := k }.goto q ∧
      (q = rest ∨ q = .act [] (.waitLine l v) :: rest ∨ q = abort s.chipSelect ++ rest) := by
  cases h
  simp only [waitSample]
  split
  · exact ⟨s.pollcnt, rest, by rw [← readLine_pollcnt s l], .inl rfl⟩
  · split
    · exact ⟨_, _, rfl, .inr (.inr rfl)⟩
    · exact ⟨_, _, rfl, .inr (.inl rfl)⟩

/-- No action writes `CMD`, the configuration or what the host has read, nor the registers that only register transfers write. -/
theorem perform_fixed {s t : State} {a : Act} {rest : Program} (h : perform s a rest = .next t) :
    (t.cmd = s.cmd ∧ t.cfg = s.cfg ∧ t.hostData = s.hostData) ∧
    t.cnt = s.cnt ∧ t.idx = s.idx ∧ t.len = s.len ∧ t.rxc = s.rxc ∧ t.drain = s.drain ∧ t.tblidx = s.tblidx ∧
      t.bandsel = s.bandsel := by
  cases a with
  | memRead => obtain ⟨d, k, rfl⟩ := perform_memRead h; simp
  | waitLine => obtain ⟨k, q, rfl, -⟩ := perform_waitLine h; simp
  | setLine | driveBit | sampleBit | delay | testDone | memWrite | complete => cases h; simp [setLine]

/-- An action is the completion, or it appends one event and leaves the host-visible registers. -/
theorem perform_ends_or_goesOn {s t : State} {a : Act} {rest : Program} (h : perform s a rest = .next t) :
    (∃ c r, t = complete s c r) ∨
    (∃ e, t.trace = s.trace ++ [e]) ∧ t.busy = s.busy ∧ t.opstate = s.opstate ∧ t.status = s.status ∧ t.result = s.result := by
  cases a with
  | complete c r => cases h; exact .inl ⟨c, _, rfl⟩
  | memRead => obtain ⟨d, k, rfl⟩ := perform_memRead h; exact .inr ⟨⟨_, rfl⟩, rfl, rfl, rfl, rfl⟩
  | waitLine => obtain ⟨k, q, rfl, -⟩ := perform_waitLine h; simp
  | setLine | driveBit | sampleBit | delay | testDone | memWrite => cases h; simp [setLine]

/-- `HB` is written by `MemWrite` only. -/
theorem perform_hb {s t : State} {a : Act} {rest : Program} (h : perform s a rest = .next t) :
    t.hb = s.hb ∨ a = .memWrite ∧ t.hb = s.hb.write s.idx.toNat s.rxb := by
  cases a with
  | memWrite => cases h; exact .inr ⟨rfl, rfl⟩
  | memRead => obtain ⟨d, k, rfl⟩ := perform_memRead h; exact .inl rfl
  | waitLine => obtain ⟨k, q, rfl, -⟩ := perform_waitLine h; simp
  | setLine | driveBit | sampleBit | delay | testDone | complete => cases h; simp [setLine]

/-- What stands at `SEQ` after an action: what stood behind it, nothing after a completion, or, in front of what stood behind it, the same
action once more, the abort, or what CHKRX's sample chooses. -/
theorem perform_seq {s t : State} {a : Act} {rest : Program} (h : perform s a rest = .next t) :
    t.seq = rest ∨ t.seq = [] ∨ t.seq = .act [] a :: rest ∨ (∃ cs, t.seq = abort cs ++ rest) ∨
      a = .testDone ∧ ∃ high, t.seq = chkrxTail high ++ rest := by
  cases a with
  | memRead => obtain ⟨d, k, rfl⟩ := perform_memRead h; exact .inl rfl
  | complete => cases h; exact .inr (.inl rfl)
  | testDone => cases h; exact .inr (.inr (.inr (.inr ⟨rfl, _, rfl⟩)))
  | waitLine =>
    obtain ⟨k, q, rfl, rfl | rfl | rfl⟩ := perform_waitLine h
    · exact .inl rfl
    · exact .inr (.inr (.inl rfl))
    · exact .inr (.inr (.inr (.inl ⟨_, rfl⟩)))
  | setLine | driveBit | sampleBit | delay | memWrite => cases h; exact .inl rfl

/-! ### What a step can do -/

/-- The word of a command is read back as the command. -/
theorem decode_encode (i : Instr) : decode (encode i) = .ok i := by
  simp only [decode, opField_encode, aField_encode, nField_encode]
  cases i <;> rfl

/-- The places that the acceptance of a word puts at `SEQ`. -/
def operationOf (c : Config) (w : CmdWord) : Program :=
  match decode w with
  | .ok i => operation c i
  | .error _ => reject .illegalOp

@[simp] theorem operationOf_encode (c : Config) (i : Instr) : operationOf c (encode i) = operation c i := by
  simp only [operationOf, decode_encode]

/-- A host write of `CMD` accepts a word with its operation. -/
theorem hostCommand_eq_accept (s : State) (w : CmdWord) : ∃ w', hostCommand s w = accept s w' (operationOf s.cfg w') := by
  cases hw : decode w with
  | ok i => exact ⟨encode i, by simp only [hostCommand, hw, exec_eq_accept, operationOf_encode]⟩
  | error e => exact ⟨w, by simp only [hostCommand, operationOf, hw, acceptIllegal]⟩

/-- An acceptance that is not refused is that of an idle block, and the turn granted to it follows. -/
theorem accept_next {s t : State} {w : CmdWord} {p : Program} (h : accept s w p = .next t) :
    s.busy = false ∧ runActions s.grant (accepted s w p) = .next t := by
  unfold accept at h
  split at h
  · cases h
  · next hb =>
    split at h
    · exact ⟨by simpa using hb, h⟩
    · cases h

/-- A command that is not refused is an acceptance by an idle block and the turn granted to it. -/
theorem exec_next {i : Instr} {s t : State} (h : exec i s = .next t) :
    s.busy = false ∧ runActions s.grant (accepted s (encode i) (operation s.cfg i)) = .next t :=
  accept_next ((exec_eq_accept i s).symm.trans h)

/-- A turn of the host: a command is accepted by an idle block, or only `HB` and the model's own lists change. -/
theorem hostTurn_cases {s t : State} (h : hostTurn s = .next t) :
    (∃ ms w, s.busy = false ∧ runActions s.grant (accepted { s with host := ms } w (operationOf s.cfg w)) = .next t) ∨
    ∃ ms x k m l, t = { s with host := ms, hostData := x, draws := k, hb := m, stale := l } := by
  have keep : ∀ ms, ∃ ms' x k m l, { s with host := ms } = { s with host := ms', hostData := x, draws := k, hb := m, stale := l } :=
    fun ms => ⟨ms, s.hostData, s.draws, s.hb, s.stale, rfl⟩
  unfold hostTurn at h
  split at h
  · cases h
    exact .inr (keep s.host)
  · next m ms _ =>
    cases m with
    | writeReg number w =>
      cases number with
      | zero =>
        obtain ⟨w', hw⟩ := hostCommand_eq_accept { s with host := ms } w
        obtain ⟨hb, hn⟩ := accept_next (hw.symm.trans h)
        exact .inl ⟨ms, w', hb, hn⟩
      | succ => cases h; exact .inr (keep ms)
    | readReg number =>
      cases h
      simp only [hostReadReg]
      split <;> exact .inr ⟨ms, _, _, _, _, rfl⟩
    | writeHb i v => cases h; exact .inr ⟨ms, _, _, _, _, rfl⟩
    | readHb i =>
      cases h
      simp only [hostReadHb]
      split <;> exact .inr ⟨ms, _, _, _, _, rfl⟩

/-- A step: a turn of the controller of a busy block, a command accepted by an idle one, or a move of the host that changes only `HB` and
the model's own lists. -/
theorem step_cases {s t : State} (h : step s = .next t) :
    (∃ n ts, s.busy = true ∧ runActions n { s with turns := ts } = .next t) ∨
    (∃ ms w, s.busy = false ∧ runActions s.grant (accepted { s with host := ms } w (operationOf s.cfg w)) = .next t) ∨
    ∃ ms ts x k m l, t = { s with host := ms, turns := ts, hostData := x, draws := k, hb := m, stale := l } := by
  unfold step at h
  split at h
  · next hb =>
    unfold busyTurn at h
    split at h
    · next ht => exact .inl ⟨1, s.turns, hb, h⟩
    · next n ts _ => exact .inl ⟨n, ts, hb, h⟩
    · next ts _ =>
      obtain ⟨ms, w, hidle, -⟩ | ⟨ms, x, k, m, l, rfl⟩ := hostTurn_cases h
      · exact absurd (hidle.symm.trans hb) nofun
      · exact .inr (.inr ⟨ms, ts, x, k, m, l, rfl⟩)
  · obtain ⟨ms, w, hidle, hn⟩ | ⟨ms, x, k, m, l, rfl⟩ := hostTurn_cases h
    · exact .inr (.inl ⟨ms, w, hidle, hn⟩)
    · exact .inr (.inr ⟨ms, s.turns, x, k, m, l, rfl⟩)

end Sys2Proof.Machine
end

section
/-! The parts of the block that only some operations change, and which places, choices and operations spare them. -/

namespace Sys2Proof.Machine

/-- The parts of the block that only some of its operations change. -/
inductive BlockPart where
  | opstate      -- `OPSTATE`, while `BUSY = 1`
  | buffer       -- `HB`
  | done         -- the samples of `DONE`
  | length       -- `LEN`
  | receive      -- `RXC`, `DRAIN`
  | tables       -- `TBLIDX`, `BANDSEL`
  | data         -- the lines `CLOCK` and `DATA_OUT`
  | chipSelect   -- a high `CHIP_SELECT`

/-- The register transfer does not write the part. -/
def Transfer.spares : BlockPart → Transfer → Bool
  | .opstate, .setOpState _ => false
  | .length, .lenFrom _ | .length, .lenFromRxb => false
  | .receive, .rxcFromRxb | .receive, .drainFromRxb => false
  | .tables, .startTable | .tables, .nextEntry | .tables, .selectBand _ => false
  | _, _ => true

/-- The action does not change the part. -/
def Act.spares : BlockPart → Act → Bool
  | .buffer, .memWrite => false
  | .done, .waitLine .done _ | .done, .testDone => false
  | .data, .setLine .clock _ | .data, .setLine .dataOut _ | .data, .driveBit => false
  | .chipSelect, .setLine .chipSelect false => false
  | _, _ => true

/-- A choice spares what all the places it can put in front spare. -/
def Branch.spares : BlockPart → Branch → Bool
  | .buffer, .burst .inHb | .buffer, .received => false
  | .length, .received => false
  | .receive, .burst .inDrain | .receive, .received => false
  | .tables, .table _ => false
  | .data, _ => false
  | .chipSelect, .table _ | .chipSelect, .received => false
  | _, _ => true

/-- Neither the place nor its register transfers change the part. -/
def Micro.spares (x : BlockPart) : Micro → Bool
  | .act pre a => pre.all (·.spares x) && a.spares x
  | .branch pre b => pre.all (·.spares x) && b.spares x

theorem Micro.transfers_spare {x : BlockPart} {m : Micro} (h : m.spares x = true) : ∀ t ∈ m.transfers, t.spares x = true := by
  cases m <;> exact List.all_eq_true.1 (Bool.and_eq_true_iff.1 h).1

theorem Micro.act_spares {x : BlockPart} {pre : List Transfer} {a : Act} (h : (Micro.act pre a).spares x = true) : a.spares x = true :=
  (Bool.and_eq_true_iff.1 h).2

theorem Micro.branch_spares {x : BlockPart} {pre : List Transfer} {b : Branch} (h : (Micro.branch pre b).spares x = true) :
    b.spares x = true :=
  (Bool.and_eq_true_iff.1 h).2

/-- No place of the program touches the part. -/
def spares (x : BlockPart) (p : Program) : Bool := p.all (·.spares x)

@[simp] theorem spares_nil (x : BlockPart) : spares x [] = true := rfl
@[simp] theorem spares_cons (x : BlockPart) (m : Micro) (p : Program) : spares x (m :: p) = (m.spares x && spares x p) := rfl
@[simp] theorem spares_append (x : BlockPart) (p q : Program) : spares x (p ++ q) = (spares x p && spares x q) := List.all_append
@[simp] theorem spares_reject (x : BlockPart) (c : Status) : spares x (reject c) = true := by cases x <;> rfl
@[simp] theorem spares_abort (x : BlockPart) (cs : Level) : spares x (abort cs) = true := by cases cs <;> cases x <;> rfl
@[simp] theorem spares_nextBit (x : BlockPart) : spares x (bitStep [.nextBit]) = Branch.moreBits.spares x := by cases x <;> rfl

@[simp] theorem spares_burstByte (x : BlockPart) (k : Burst) (d : Byte) : spares x (burstByte k d) = (Branch.burst k).spares x := by
  cases k <;> cases x <;> rfl

@[simp] theorem spares_tableEntry (x : BlockPart) (t : Table) (a : Addr) (v : ByteSrc) :
    spares x (wreg a v ++ [.branch [.nextEntry] (.table t)]) = (Branch.table t).spares x := by
  cases x <;> rfl

theorem spares_recvTail {x : BlockPart} (h : Branch.received.spares x = true) (c : Config) (queued : Bool) :
    spares x (recvTail c queued) = true := by
  cases x with
  | opstate | done | tables => cases queued <;> rfl
  | buffer | length | receive | data | chipSelect => cases h

/-- The places that a choice puts in front spare what the choice does. -/
theorem spares_expand {x : BlockPart} {b : Branch} (h : b.spares x = true) (s : State) : spares x (b.expand s) = true := by
  cases b with
  | moreBits =>
    simp only [Branch.expand]
    split <;> simp [h]
  | burst k =>
    simp only [Branch.expand]
    split
    · split <;> simp [h]
    · rfl
  | table t =>
    simp only [Branch.expand]
    split
    · rw [spares_tableEntry, h]
    · rfl
  | received => exact spares_recvTail h _ _

/-- What an action puts at `SEQ` spares what the action and the places behind it do. -/
theorem perform_spares {x : BlockPart} {s t : State} {a : Act} {rest : Program} (h : perform s a rest = .next t)
    (ha : a.spares x = true) : t.seq = [] ∨ ∃ q, t.seq = q ++ rest ∧ spares x q = true := by
  obtain hs | hs | hs | ⟨cs, hs⟩ | ⟨rfl, high, hs⟩ := perform_seq h
  · exact .inr ⟨[], hs, rfl⟩
  · exact .inl hs
  · exact .inr ⟨[.act [] a], hs, by simp [Micro.spares, ha]⟩
  · exact .inr ⟨_, hs, spares_abort x cs⟩
  · refine .inr ⟨_, hs, ?_⟩
    cases x with
    | done => cases ha
    | _ => cases high <;> rfl

/-- The parts that the operation of a command spares. -/
def operationSpares : BlockPart → Instr → Bool
  | .opstate, .configure _ _ | .opstate, .send _ _ | .opstate, .recv _ _ => false
  | .buffer, .rburst _ _ | .buffer, .recv _ _ => false
  | .done, .send _ _ | .done, .chkrx _ _ => false
  | .length, .send _ _ | .length, .recv _ _ => false
  | .receive, .recv _ _ => false
  | .tables, .configure _ _ => false
  | .data, .chkrx _ _ | .chipSelect, .xfer _ _ | .chipSelect, .chkrx _ _ => true
  | .data, _ | .chipSelect, _ => false
  | _, _ => true

theorem spares_checked {x : BlockPart} (a : Byte) {p : Addr → Program} (h : ∀ k, spares x (p k) = true) :
    spares x (checked a p) = true := by
  unfold checked
  split
  · exact spares_reject x _
  · exact h _

theorem spares_operation {x : BlockPart} {i : Instr} (h : operationSpares x i = true) (c : Config) : spares x (operation c i) = true := by
  cases i with
  | xfer | reset | configure | setrx | chkrx | recv =>
    refine Eq.trans ?_ h
    cases x <;> rfl
  | wreg | rreg | wburst | rburst | strobe | rstat =>
    simp only [operation, wregOp, rregOp, wburstOp, rburstOp, strobeOp, rstatOp]
    refine spares_checked _ fun k => Eq.trans ?_ h
    cases x <;> rfl
  | send _ n =>
    simp only [operation, sendOp]
    split
    · exact spares_reject x _
    · refine Eq.trans ?_ h
      cases x <;> rfl

end Sys2Proof.Machine
end

section
/-! `OPSTATE` names the operation in progress (R34): its place in front of a turn, and along steps. -/

namespace Sys2Proof.Machine

/-! ### `OPSTATE` and the operation in progress -/

theorem apply_opstate (s : State) {t : Transfer} (h : t.spares .opstate = true) : (t.apply s).opstate = s.opstate := by
  cases t with
  | setOpState => cases h
  | _ => rfl

/-- Register transfers that set `OPSTATE` only to `o` leave it there, if it was or one of them sets it. -/
theorem applyAll_opstate {o : OpState} (ts : List Transfer) {s : State} (hts : ∀ t ∈ ts, t.setsOnly o = true)
    (h : s.opstate = o ∨ Transfer.setOpState o ∈ ts) : (applyAll s ts).opstate = o := by
  induction ts generalizing s with
  | nil => exact h.resolve_right nofun
  | cons t ts ih =>
    obtain ⟨ht, hts⟩ := List.forall_mem_cons.1 hts
    refine ih (s := t.apply s) hts ?_
    cases t with
    | setOpState o' => exact .inl (beq_iff_eq.1 ht)
    | _ => exact h.imp_right fun h => by simpa using h

/-- Every place of `p` sets `OPSTATE`, if at all, to `o`. -/
def SetsOnly (o : OpState) (p : Program) : Prop := ∀ m ∈ p, ∀ t ∈ m.transfers, t.setsOnly o = true

theorem setsOnly_of_spares {p : Program} (h : spares .opstate p = true) (o : OpState) : SetsOnly o p := by
  intro m hm t ht
  have hsp := Micro.transfers_spare (List.all_eq_true.1 h m hm) t ht
  cases t with
  | setOpState => cases hsp
  | _ => rfl

theorem SetsOnly.append {o : OpState} {p q : Program} (hp : SetsOnly o p) (hq : SetsOnly o q) : SetsOnly o (p ++ q) := by
  intro m hm
  exact (List.mem_append.1 hm).elim (hp m) (hq m)

/-- What `OpStateInv` says of a busy state, the places still to perform being `p`. -/
def OpStateAhead (s : State) (p : Program) : Prop :=
  (s.opstate = opStateFor s.cmd ∨
    s.opstate = .idle ∧ ∃ m rest, p = m :: rest ∧ Transfer.setOpState (opStateFor s.cmd) ∈ m.transfers) ∧
  SetsOnly (opStateFor s.cmd) p

/-- A state after an action: the invariant, and `OPSTATE` is set. -/
def OpStateSet (s : State) : Prop := OpStateInv s ∧ (s.busy = true → s.opstate = opStateFor s.cmd)

/-- The register transfers of the place in front set `OPSTATE`. -/
theorem OpStateAhead.applyAll {s : State} {m : Micro} {rest : Program} (h : OpStateAhead s (m :: rest)) :
    (applyAll s m.transfers).opstate = opStateFor s.cmd ∧ SetsOnly (opStateFor s.cmd) rest := by
  obtain ⟨hop, hsets⟩ := h
  obtain ⟨hm, hrest⟩ := List.forall_mem_cons.1 hsets
  refine ⟨applyAll_opstate _ hm (hop.imp_right ?_), hrest⟩
  rintro ⟨-, m', rest', heq, hmem⟩
  cases heq
  exact hmem

theorem carries_opState : Carries OpStateAhead OpStateSet where
  choice {s pre b rest} h := by
    obtain ⟨hop, hrest⟩ := h.applyAll
    have hexp : SetsOnly (opStateFor s.cmd) (b.expand (applyAll s pre)) :=
      setsOnly_of_spares (spares_expand (x := .opstate) (by cases b <;> rfl) _) _
    exact ⟨.inl (hop.trans (by rw [applyAll_cmd])), by simpa using hexp.append hrest⟩
  action {s t pre a rest} hb h hn := by
    obtain ⟨hop, hrest⟩ := h.applyAll
    obtain ⟨c, r, rfl⟩ | ⟨-, hbusy, hopt, -⟩ := perform_ends_or_goesOn hn
    · exact ⟨⟨fun _ => rfl, nofun⟩, nofun⟩
    obtain ⟨⟨hcmd', -⟩, -⟩ := perform_fixed hn
    have hcmd : t.cmd = s.cmd := hcmd'.trans (applyAll_cmd _ _)
    have hset : t.opstate = opStateFor t.cmd := by rw [hopt, hcmd]; exact hop
    have hseq : SetsOnly (opStateFor t.cmd) t.seq := by
      rw [hcmd]
      obtain hs | ⟨q, hs, hq⟩ := perform_spares (x := .opstate) hn (by cases a <;> rfl)
      · rw [hs]; exact nofun
      · rw [hs]; exact (setsOnly_of_spares hq _).append hrest
    refine ⟨⟨fun hidle => ?_, fun _ => ⟨.inl hset, hseq⟩⟩, fun _ => hset⟩
    rw [hbusy, applyAll_busy, hb] at hidle
    cases hidle
  again hb h := h.1.2 hb

/-! ### `OPSTATE` along steps -/

theorem setsOnly_iff {o : OpState} {p : Program} : SetsOnly o p ↔ p.all (·.transfers.all (·.setsOnly o)) = true := by
  simp [SetsOnly]

/-- A command that has no `OPSTATE` of its own is accepted with it at `Idle`, the others set it with their first action. -/
theorem opStateAhead_operationOf {s : State} (w : CmdWord) (h : s.opstate = .idle) :
    OpStateAhead (accepted s w (operationOf s.cfg w)) (operationOf s.cfg w) := by
  have stays {p : Program} (hf : opStateFor w = .idle) (hp : spares .opstate p = true) :
      OpStateAhead (accepted s w p) p := ⟨.inl (h.trans hf.symm), setsOnly_of_spares hp _⟩
  have sets {o : OpState} {m : Micro} {rest : Program} (hf : opStateFor w = o) (hm : Transfer.setOpState o ∈ m.transfers)
      (hp : (m :: rest).all (·.transfers.all (·.setsOnly o)) = true) : OpStateAhead (accepted s w (m :: rest)) (m :: rest) :=
    ⟨.inr ⟨h, m, rest, rfl, hf ▸ hm⟩, setsOnly_iff.2 (hf ▸ hp)⟩
  cases hw : decode w with
  | error e =>
    simp only [operationOf, hw]
    exact stays (by simp only [opStateFor, hw]) rfl
  | ok i =>
    simp only [operationOf, hw]
    cases i with
    | configure => exact sets (o := .configuring) (by simp only [opStateFor, hw]) (.head _) rfl
    | recv => exact sets (o := .receiving) (by simp only [opStateFor, hw]) (.head _) rfl
    | send _ n =>
      by_cases hn : n.toNat ≤ 61
      · have hr : lengthRejected n = false := by simpa [lengthRejected, maxPkt] using hn
        simp only [operation, sendOp, hr]
        exact sets (o := .sending) (by simp only [opStateFor, hw, hn, if_true]) (.head _) rfl
      · have hr : lengthRejected n = true := by simpa [lengthRejected, maxPkt] using hn
        simp only [operation, sendOp, hr]
        exact stays (by simp only [opStateFor, hw, hn, if_false]) rfl
    | _ => exact stays (by simp only [opStateFor, hw]) (spares_operation rfl _)

/-- A turn keeps the invariant, and once it has taken an action `OPSTATE` is set. -/
theorem runActions_opState (n : Nat) {s t : State} (h : OpStateInv s) (hn : runActions n s = .next t) : OpStateSet t ∨ t = s :=
  (carries_opState.runActions n h.2 hn).imp_right And.left

/-- Settles O50: an acceptance stands before the action that sets `OPSTATE`, and the controller carries it from there. -/
theorem opStateInvariant : Obligations.OpStateInvariant := by
  intro s s' h hn
  -- a turn from a state of the invariant that has the old trace is enough
  have turn (n : Nat) {u : State} (hu : OpStateInv u) (htr : u.trace = s.trace) (hn : runActions n u = .next s') :
      OpStateInv s' ∧ (s'.busy = true → s'.trace ≠ s.trace → s'.opstate = opStateFor s'.cmd) := by
    obtain ⟨hinv, hset⟩ | rfl := runActions_opState n hu hn
    · exact ⟨hinv, fun hb _ => hset hb⟩
    · exact ⟨hu, fun _ hne => absurd htr hne⟩
  obtain ⟨n, ts, -, hn⟩ | ⟨ms, w, hidle, hn⟩ | ⟨ms, ts, x, k, m, l, rfl⟩ := step_cases hn
  · exact turn n (u := { s with turns := ts }) h rfl hn
  · exact turn _ (u := accepted { s with host := ms } w (operationOf s.cfg w))
      ⟨nofun, fun _ => opStateAhead_operationOf (s := { s with host := ms }) w (h.1 hidle)⟩ rfl hn
  · exact ⟨h, fun _ hne => absurd rfl hne⟩

end Sys2Proof.Machine
end

section
/-! `TRACE`, `CMD`, `STATUS` and `RESULT` along steps; acceptance, the host's registers, the canonical form of `HB`, reset. -/

namespace Sys2Proof.Machine

/-! ### `TRACE`, `CMD`, `STATUS` and `RESULT` along a turn -/

theorem perform_trace {s t : State} {a : Act} {rest : Program} (h : perform s a rest = .next t) : ∃ e, t.trace = s.trace ++ [e] := by
  obtain ⟨c, r, rfl⟩ | ⟨he, -⟩ := perform_ends_or_goesOn h
  · exact ⟨_, rfl⟩
  · exact he

theorem runActions_trace (n : Nat) {s t : State} (h : runActions n s = .next t) : ∃ es, t.trace = s.trace ++ es := by
  refine runActions_keeps (R := fun u => ∃ es, u.trace = s.trace ++ es) (fun u ts hu => by simpa using hu) ?_ n ⟨[], by simp⟩ h
  rintro u v a rest - ⟨es, hu⟩ hn
  obtain ⟨e, he⟩ := perform_trace hn
  exact ⟨es ++ [e], by rw [he, hu, List.append_assoc]⟩

/-- Settles O16: every action appends its event, and nothing else in a step touches the trace. -/
theorem traceOnlyGrows : Obligations.TraceOnlyGrows := by
  intro s s' h
  obtain ⟨n, ts, -, hn⟩ | ⟨ms, w, -, hn⟩ | ⟨ms, ts, x, k, m, l, rfl⟩ := step_cases h
  · exact runActions_trace (s := { s with turns := ts }) n hn
  · exact runActions_trace (s := accepted { s with host := ms } w (operationOf s.cfg w)) _ hn
  · exact ⟨[], (List.append_nil _).symm⟩

/-- A turn leaves what no action writes. -/
theorem runActions_fixed (n : Nat) {s t : State} (h : runActions n s = .next t) :
    t.cmd = s.cmd ∧ t.cfg = s.cfg ∧ t.hostData = s.hostData ∧ t.host = s.host := by
  refine runActions_keeps (R := fun u => u.cmd = s.cmd ∧ u.cfg = s.cfg ∧ u.hostData = s.hostData ∧ u.host = s.host)
    (fun u ts hu => by simpa using hu) ?_ n ⟨rfl, rfl, rfl, rfl⟩ h
  rintro u v a rest - ⟨hcmd, hcfg, hdata, hhost⟩ hn
  obtain ⟨⟨hcmd', hcfg', hdata'⟩, -⟩ := perform_fixed hn
  exact ⟨hcmd'.trans hcmd, hcfg'.trans hcfg, hdata'.trans hdata, (perform_host_turns hn).1.trans hhost⟩

/-- Settles O18: only an acceptance writes `CMD`, and a busy block accepts nothing. -/
theorem commandStable : Obligations.CommandStable := by
  intro s s' hb h
  obtain ⟨n, ts, -, hn⟩ | ⟨ms, w, hidle, -⟩ | ⟨ms, ts, x, k, m, l, rfl⟩ := step_cases h
  · exact (runActions_fixed n hn).1
  · exact absurd (hidle.symm.trans hb) nofun
  · rfl

/-- `t` holds the `STATUS` and `RESULT` of `s`, or its trace ends with the completion that carries them. -/
def ResultsFrom (s t : State) : Prop :=
  (t.busy = true → t.status = s.status ∧ t.result = s.result) ∧
  (¬ (t.status = s.status ∧ t.result = s.result) →
    ∃ r, t.trace.getLast? = some (.complete t.status r) ∧ t.result = r.getD s.result)

theorem resultsFrom_of_eq {s t : State} (h : t.status = s.status ∧ t.result = s.result) : ResultsFrom s t :=
  ⟨fun _ => h, fun hne => absurd h hne⟩

theorem runActions_results (n : Nat) {s t : State} (h : runActions n s = .next t) : ResultsFrom s t := by
  refine runActions_keeps (R := ResultsFrom s) (fun u ts hu => by simpa [ResultsFrom] using hu) ?_ n (resultsFrom_of_eq ⟨rfl, rfl⟩) h
  rintro u v a rest hb ⟨hu, -⟩ hn
  obtain ⟨hst, hre⟩ := hu hb
  obtain ⟨c, r, rfl⟩ | ⟨-, -, -, hst', hre'⟩ := perform_ends_or_goesOn hn
  · exact ⟨nofun, fun _ => ⟨r, by simp, by simp [hre]⟩⟩
  · exact resultsFrom_of_eq ⟨hst'.trans hst, hre'.trans hre⟩

/-- Settles O19: the completion is the only action that writes `STATUS` or `RESULT`, and it ends the turn. -/
theorem onlyCompleteWritesStatus : Obligations.OnlyCompleteWritesStatus := by
  intro s s' h
  obtain ⟨n, ts, -, hn⟩ | ⟨ms, w, -, hn⟩ | ⟨ms, ts, x, k, m, l, rfl⟩ := step_cases h
  · exact runActions_results (s := { s with turns := ts }) n hn
  · exact runActions_results (s := accepted { s with host := ms } w (operationOf s.cfg w)) _ hn
  · exact resultsFrom_of_eq ⟨rfl, rfl⟩

/-! ### Acceptance -/

/-- Settles O10: with no action granted the turn is over at the acceptance, the whole operation still at `SEQ`. -/
theorem acceptance : Obligations.Acceptance := by
  intro i s hacc hg
  refine ⟨operation s.cfg i, fun hnil => ?_, ?_⟩
  · have hc := concludes_operation s.cfg i
    rw [hnil] at hc
    cases hc
  · rw [exec_of_accepts i hacc, hg]
    rfl

theorem hostCommand_of_decode {s : State} {w : CmdWord} {i : Instr} (h : decode w = .ok i) : hostCommand s w = exec i s := by
  simp only [hostCommand, h]

/-- A word that is no command starts, in a block that can accept it, an operation that is only its completion (R103). -/
theorem hostCommand_of_illegal {s : State} {w : CmdWord} {e : DecodeError} (h : decode w = .error e) (hacc : Accepts s) :
    hostCommand s w = runActions s.grant (accepted s w (reject .illegalOp)) := by
  obtain ⟨hidle, hwf⟩ := hacc
  simp [hostCommand, h, acceptIllegal, accept, hidle, hwf]

/-- Settles O9: the host's write of `CMD` is the acceptance of the word, and the operation of an illegal one is its completion. -/
theorem stepRunsCommand : Obligations.StepRunsCommand := by
  intro s t w hidle hm
  have hstep : step s = hostCommand t w := step_hostMoves hm
  have htidle : t.busy = false := by
    obtain ⟨-, ⟨-, ht⟩ | ⟨hb, -⟩⟩ := hm
    · rw [ht]; exact hidle
    · exact absurd (hidle.symm.trans hb) nofun
  refine ⟨fun i hi => hstep.trans (hostCommand_of_decode hi), fun e he hwf => ?_⟩
  rw [hstep, hostCommand_of_illegal he ⟨htidle, hwf⟩]
  refine ⟨fun hg => ?_, fun hg => ⟨reject .illegalOp, by rw [hg]; rfl⟩⟩
  obtain ⟨n, hn⟩ : ∃ n, t.grant = n + 1 := ⟨t.grant - 1, by omega⟩
  have hrun := runActions_complete n (accepted t w []) .illegalOp .unchanged [] rfl
  rw [hn]
  refine hrun.trans ?_
  simp [complete, State.emit, State.ended, accepted, ResultSrc.eval]

/-! ### The host's registers -/

/-- The packed view of `BUSY`, `OPSTATE` and `STATUS` as a number (R39). -/
theorem csr_setWidth (s : State) :
    s.csr.setWidth 24 = BitVec.ofNat 24 ((if s.busy then 128 else 0) + 32 * s.opstate.code.toNat + s.status.code.toNat) := by
  simp only [State.csr]
  generalize s.busy = b, s.opstate = o, s.status = c
  cases b <;> cases o <;> cases c <;> rfl

/-- What the host reads is the block's, which the move leaves as it was. -/
theorem HostMoves.registers {s t : State} {m : HostMove} (h : HostMoves s m t) :
    t.busy = s.busy ∧ t.opstate = s.opstate ∧ t.status = s.status ∧ t.result = s.result := by
  obtain ⟨-, ⟨-, ht⟩ | ⟨-, -, ht⟩⟩ := h <;> rw [ht] <;> exact ⟨rfl, rfl, rfl, rfl⟩

/-- Settles O45: the host's move is the step, and it reads the registers of the block it leaves. -/
theorem hostRegisters : Obligations.HostRegisters := by
  intro s t k w o c
  refine ⟨fun h => ?_, fun h => ?_, fun h h1 h2 => ?_, fun h h0 => ?_⟩
  · obtain ⟨hb, ho, hs, -⟩ := h.registers
    have hoc : o = s.opstate.code.toNat := by simp only [o]; cases s.opstate <;> rfl
    have hsc : c = s.status.code.toNat := by simp only [c]; cases s.status <;> rfl
    rw [step_hostMoves h, hoc, hsc, ← hb, ← ho, ← hs, ← csr_setWidth]
    rfl
  · obtain ⟨-, -, -, hr⟩ := h.registers
    rw [step_hostMoves h, ← hr, BitVec.ofNat_toNat]
    rfl
  · rw [step_hostMoves h]
    exact ⟨Config.freeWord t.draws, t.draws + 1, by simp only [hostMove, hostReadReg, readUnspecified]⟩
  · obtain ⟨j, rfl⟩ := Nat.exists_eq_succ_of_ne_zero h0
    rw [step_hostMoves h]
    rfl

/-! ### The canonical form of `HB` -/

/-- An index below every listed one reads as nothing. -/
theorem Memory.read_below {m : Memory} {i : Nat} (h : ∀ c ∈ m, i < c.1) : m.read i = none := by
  induction m with
  | nil => rfl
  | cons c rest ih =>
    obtain ⟨hc, hrest⟩ := List.forall_mem_cons.1 h
    simp only [Memory.read, hc.ne', if_false, ih hrest]

theorem Memory.wf_cons {a : Nat} {v : Byte} {rest : Memory} (h : Memory.wf ((a, v) :: rest) = true) :
    (∀ c ∈ rest, a < c.1) ∧ rest.wf = true := by
  simp only [Memory.wf, Bool.and_eq_true, List.all_eq_true, decide_eq_true_eq] at h
  exact ⟨h.1.2, h.2⟩

/-- The first index of a buffer in canonical form is the lowest that reads as something. -/
theorem Memory.head_le {a i : Nat} {v : Byte} {rest : Memory} (h : ∀ c ∈ rest, a < c.1) (hi : Memory.read ((a, v) :: rest) i ≠ none) :
    a ≤ i := by
  by_contra hlt
  exact hi (Memory.read_below (List.forall_mem_cons.2 ⟨by omega, fun c hc => by have := h c hc; omega⟩))

/-- Buffers in canonical form that read alike are the same list. -/
theorem Memory.eq_of_read {m m' : Memory} (h : m.wf = true) (h' : m'.wf = true) (hread : ∀ k, m.read k = m'.read k) : m = m' := by
  induction m generalizing m' with
  | nil =>
    cases m' with
    | nil => rfl
    | cons c rest' => simpa [Memory.read] using hread c.1
  | cons c rest ih =>
    obtain ⟨a, v⟩ := c
    obtain ⟨habove, hrest⟩ := Memory.wf_cons h
    cases m' with
    | nil => simpa [Memory.read] using hread a
    | cons c' rest' =>
      obtain ⟨a', v'⟩ := c'
      obtain ⟨habove', hrest'⟩ := Memory.wf_cons h'
      have hle : a' ≤ a := Memory.head_le habove' (by rw [← hread]; simp [Memory.read])
      have hge : a ≤ a' := Memory.head_le habove (by rw [hread]; simp [Memory.read])
      obtain rfl : a = a' := le_antisymm hge hle
      obtain rfl : v = v' := by simpa [Memory.read] using hread a
      refine congrArg _ (ih hrest hrest' fun k => ?_)
      by_cases hk : a < k
      · simpa [Memory.read, hk.ne] using hread k
      · rw [Memory.read_below fun c hc => by have := habove c hc; omega,
          Memory.read_below fun c hc => by have := habove' c hc; omega]

/-- Settles O47: by induction on both lists, whose first indexes must agree. -/
theorem hbCanonical : Obligations.HbCanonical :=
  fun m _ h h' => ⟨Memory.eq_of_read h h', fun i v hi => Memory.write_wf m i v hi h⟩

/-! ### Reset -/

/-- Settles O8: the reset state is idle with an empty trace, so its bus is released, and no field of it reads the configuration. -/
theorem resetInvariants : Obligations.ResetInvariants := by
  intro c
  have hframing : Inv { State.reset with cfg := c } :=
    ⟨rfl, .released, rfl, rfl, rfl, nofun, fun _ => ⟨rfl, rfl, rfl⟩, nofun⟩
  exact ⟨hframing, ⟨fun _ => rfl, nofun⟩, fun hc => ⟨hc, nofun, nofun⟩⟩

end Sys2Proof.Machine
end

section
/-! What a command leaves alone (`OperationFrame`): a part that every place of its operation spares is kept, and the bytes that a read burst
writes stay below its count. -/

namespace Sys2Proof.Machine

/-! ### A spared part is kept -/

/-- The part is in `t` as it was in `s`. -/
def BlockPart.Kept (s t : State) : BlockPart → Prop
  | .opstate => t.busy = true → t.opstate = s.opstate
  | .buffer => t.hb = s.hb
  | .done => t.done = s.done ∧ ∃ es, t.trace = s.trace ++ es ∧ ∀ b, Event.read .done b ∉ es
  | .length => t.len = s.len
  | .receive => t.rxc = s.rxc ∧ t.drain = s.drain
  | .tables => t.tblidx = s.tblidx ∧ t.bandsel = s.bandsel
  | .data => t.clock = s.clock ∧ t.dataOut = s.dataOut
  | .chipSelect => s.chipSelect = true → t.chipSelect = true

theorem BlockPart.kept_refl (x : BlockPart) (s : State) : x.Kept s s := by
  cases x with
  | done => exact ⟨rfl, [], (List.append_nil _).symm, nofun⟩
  | _ => simp [BlockPart.Kept]

theorem BlockPart.kept_accepted (x : BlockPart) (s : State) (w : CmdWord) (p : Program) : x.Kept s (accepted s w p) := by
  cases x with
  | done => exact ⟨rfl, [], (List.append_nil _).symm, nofun⟩
  | _ => simp [BlockPart.Kept]

theorem BlockPart.Kept.trans {x : BlockPart} {s t u : State} (h : x.Kept s t) (h' : x.Kept t u) (hb : t.busy = true) : x.Kept s u := by
  cases x with
  | done =>
    obtain ⟨hd, es, htr, hes⟩ := h
    obtain ⟨hd', es', htr', hes'⟩ := h'
    refine ⟨hd'.trans hd, es ++ es', by rw [htr', htr, List.append_assoc], fun b hb => ?_⟩
    exact (List.mem_append.1 hb).elim (hes b) (hes' b)
  | opstate => exact fun hu => (h' hu).trans (h hb)
  | buffer | length => exact Eq.trans h' h
  | receive | tables | data => exact ⟨h'.1.trans h.1, h'.2.trans h.2⟩
  | chipSelect => exact h' ∘ h

theorem apply_kept {x : BlockPart} {t : Transfer} (h : t.spares x = true) (s : State) : x.Kept s (t.apply s) := by
  cases x with
  | opstate => exact fun _ => apply_opstate s h
  | buffer => exact apply_hb s t
  | done => exact ⟨apply_done s t, [], by simp, nofun⟩
  | data => exact ⟨apply_clock s t, apply_dataOut s t⟩
  | chipSelect => exact fun hcs => (apply_chipSelect s t).trans hcs
  | length =>
    cases t with
    | lenFrom | lenFromRxb => cases h
    | _ => rfl
  | receive =>
    cases t with
    | rxcFromRxb | drainFromRxb => cases h
    | _ => exact ⟨rfl, rfl⟩
  | tables =>
    cases t with
    | startTable | nextEntry | selectBand => cases h
    | _ => exact ⟨rfl, rfl⟩

theorem applyAll_kept {x : BlockPart} (ts : List Transfer) (h : ∀ t ∈ ts, t.spares x = true) {s : State} (hb : s.busy = true) :
    x.Kept s (applyAll s ts) := by
  induction ts generalizing s with
  | nil => exact x.kept_refl s
  | cons t ts ih =>
    obtain ⟨ht, hts⟩ := List.forall_mem_cons.1 h
    have hb' : (t.apply s).busy = true := (apply_busy s t).trans hb
    exact (apply_kept ht s).trans (ih hts hb') hb'

/-- A read of `DATA_IN` takes no level of `DONE`. -/
theorem readLine_dataIn_done (s : State) : (readLine s .dataIn).2.done = s.done := by
  simp only [readLine, sense]
  split <;> rfl

theorem perform_kept_done {s t : State} {a : Act} {rest : Program} (ha : a.spares .done = true) (h : perform s a rest = .next t) :
    BlockPart.done.Kept s t := by
  cases a with
  | testDone => cases ha
  | waitLine l v =>
    cases l with
    | done => cases ha
    | dataIn =>
      obtain ⟨k, q, rfl, -⟩ := perform_waitLine h
      simp [BlockPart.Kept, readLine_dataIn_done]
  | memRead => obtain ⟨d, k, rfl⟩ := perform_memRead h; simp [BlockPart.Kept]
  | setLine | driveBit | sampleBit | delay | memWrite | complete => cases h; simp [BlockPart.Kept, setLine, readLine_dataIn_done]

/-- `CLOCK` and `DATA_OUT` change only by their `setLine`, and a high chip-select only by its own. -/
theorem perform_kept_lines {x : BlockPart} {s t : State} {a : Act} {rest : Program} (hx : x = .data ∨ x = .chipSelect)
    (ha : a.spares x = true) (h : perform s a rest = .next t) : x.Kept s t := by
  cases a with
  | setLine l v =>
    cases h
    obtain rfl | rfl := hx
    · cases l with
      | clock | dataOut => cases ha
      | chipSelect => simp [BlockPart.Kept, setLine]
    · cases l with
      | clock | dataOut => simp [BlockPart.Kept, setLine]
      | chipSelect =>
        cases v with
        | false => cases ha
        | true => simp [BlockPart.Kept, setLine]
  | driveBit =>
    obtain rfl | rfl := hx
    · cases ha
    · cases h; simp [BlockPart.Kept, setLine]
  | memRead => obtain ⟨d, k, rfl⟩ := perform_memRead h; obtain rfl | rfl := hx <;> simp [BlockPart.Kept]
  | waitLine => obtain ⟨k, q, rfl, -⟩ := perform_waitLine h; obtain rfl | rfl := hx <;> simp [BlockPart.Kept]
  | sampleBit | delay | testDone | memWrite | complete => cases h; obtain rfl | rfl := hx <;> simp [BlockPart.Kept]

/-- An action that spares a part keeps it. -/
theorem perform_kept {x : BlockPart} {s t : State} {a : Act} {rest : Program} (ha : a.spares x = true) (h : perform s a rest = .next t) :
    x.Kept s t := by
  obtain ⟨-, -, -, hlen, hrxc, hdrain, htbl, hband⟩ := perform_fixed h
  cases x with
  | opstate =>
    obtain ⟨c, r, rfl⟩ | ⟨-, -, ho, -⟩ := perform_ends_or_goesOn h
    · exact nofun
    · exact fun _ => ho
  | buffer =>
    obtain hhb | ⟨rfl, -⟩ := perform_hb h
    · exact hhb
    · cases ha
  | done => exact perform_kept_done ha h
  | length => exact hlen
  | receive => exact ⟨hrxc, hdrain⟩
  | tables => exact ⟨htbl, hband⟩
  | data => exact perform_kept_lines (.inl rfl) ha h
  | chipSelect => exact perform_kept_lines (.inr rfl) ha h

/-- The part is kept, and the places still to perform spare it. -/
def SparedSince (x : BlockPart) (s t : State) (p : Program) : Prop := t.busy = true ∧ x.Kept s t ∧ spares x p = true

theorem SparedSince.applyAll {x : BlockPart} {s u : State} {m : Micro} {rest : Program} (h : SparedSince x s u (m :: rest)) :
    m.spares x = true ∧ SparedSince x s (applyAll u m.transfers) rest := by
  obtain ⟨hb, hk, hsp⟩ := h
  obtain ⟨hm, hrest⟩ := Bool.and_eq_true_iff.1 hsp
  exact ⟨hm, by simpa using hb, hk.trans (applyAll_kept _ (Micro.transfers_spare hm) hb) hb, hrest⟩

theorem carries_spared (x : BlockPart) (s : State) :
    Carries (SparedSince x s) fun t => x.Kept s t ∧ spares x t.seq = true where
  choice {u pre b rest} h := by
    obtain ⟨hm, hb, hk, hrest⟩ := h.applyAll
    have hexp : spares x (b.expand (applyAll u pre)) = true := spares_expand (Micro.branch_spares hm) _
    exact ⟨hb, hk, by simp [hexp, hrest]⟩
  action {u t pre a rest} _ h hn := by
    obtain ⟨hm, hb, hk, hrest⟩ := h.applyAll
    have ha : a.spares x = true := Micro.act_spares hm
    refine ⟨hk.trans (perform_kept ha hn) hb, ?_⟩
    obtain hs | ⟨q, hs, hq⟩ := perform_spares hn ha
    · rw [hs]; rfl
    · simp [hs, hq, hrest]
  again hb h := ⟨hb, h⟩

/-- A command keeps the parts its operation spares. -/
theorem exec_kept {x : BlockPart} {i : Instr} {s t : State} (hx : operationSpares x i = true) (h : exec i s = .next t) : x.Kept s t := by
  obtain ⟨-, hn⟩ := exec_next h
  have hacc : x.Kept s (accepted s (encode i) (operation s.cfg i)) := x.kept_accepted s _ _
  obtain ⟨hk, -⟩ | ⟨rfl, -⟩ := (carries_spared x s).runActions _ (fun _ => ⟨rfl, hacc, spares_operation hx s.cfg⟩) hn
  · exact hk
  · exact hacc

/-! ### A read burst writes below its count

How far the writes of a read burst have come is read off the places ahead, as `follows` reads the framing discipline: before the count is
loaded nothing is written, the choice of a further byte puts the index below the count, and once another count is loaded no byte of the
buffer is written any more. -/

/-- How far a command that fills the buffer has come. -/
inductive Filling where
  | before    -- its count is not loaded
  | counted   -- `CNT` is its count
  | within    -- and `IDX` is below it
  | past      -- a later count has been loaded
deriving DecidableEq

/-- `t` is `s` with bytes of the buffer written at most below the count of `c`. -/
def WroteBelow (c : CountSrc) (s t : State) : Prop := ∀ k, (c.eval t).toNat ≤ k → t.hb.read k = s.hb.read k

/-- What is known of `CNT`, `IDX` and the buffer. -/
def Filling.Holds (c : CountSrc) (s t : State) : Filling → Prop
  | .before => t.hb = s.hb
  | .counted => t.cnt = c.eval t ∧ WroteBelow c s t
  | .within => t.cnt = c.eval t ∧ t.idx.toNat < t.cnt.toNat ∧ WroteBelow c s t
  | .past => WroteBelow c s t

/-- How a register transfer moves it on; none where it would spoil what is known. -/
def Filling.after (c : CountSrc) (f : Filling) (t : Transfer) : Option Filling :=
  match t, f with
  | .loadCount c', .before => if c' = c then some .counted else none
  | .loadCount _, _ => some .past
  | .nextIndex, .within => some .counted
  | .lenFromRxb, .before => some .before
  | .lenFrom _, _ | .lenFromRxb, _ => none
  | _, f => some f

/-- The places `p` write the buffer only below the count of `c`. -/
def fills (c : CountSrc) : Filling → Program → Bool
  | _, [] => true
  | f, .act pre a :: rest =>
    match pre.foldlM (Filling.after c) f, a with
    | none, _ | _, .testDone => false
    | _, .complete _ _ => true
    | some f', .memWrite => f' == .within && fills c f' rest
    | some f', _ => fills c f' rest
  | f, .branch pre b :: rest =>
    match pre.foldlM (Filling.after c) f, b with
    | none, _ | _, .table _ => false
    | some f', .moreBits => fills c f' rest
    | some f', .burst .inHb => f' == .counted && fills c f' rest
    | some f', .burst _ => f' == .past && fills c f' rest
    | some f', .received => f' == .before && c == .len

theorem Filling.Holds.wroteBelow {c : CountSrc} {s t : State} {f : Filling} (h : f.Holds c s t) : WroteBelow c s t := by
  cases f with
  | before => exact fun k _ => congrArg (Memory.read · k) h
  | counted => exact h.2
  | within => exact h.2.2
  | past => exact h

theorem Filling.Holds.congr {c : CountSrc} {s u v : State} {f : Filling} (h : f.Holds c s u) (hc : v.cnt = u.cnt) (hi : v.idx = u.idx)
    (hl : v.len = u.len) (hh : v.hb = u.hb) : f.Holds c s v := by
  have he : c.eval v = c.eval u := by cases c <;> simp [CountSrc.eval, hl]
  cases f <;> simpa [Filling.Holds, WroteBelow, hc, hi, hh, he] using h

/-- A register transfer makes what is known afterwards true. -/
theorem apply_holds {c : CountSrc} {s u : State} {f f' : Filling} {t : Transfer} (h : f.Holds c s u) (ht : f.after c t = some f') :
    f'.Holds c s (t.apply u) := by
  cases t with
  | loadCount c' =>
    have hw : WroteBelow c s ((Transfer.loadCount c').apply u) := by cases c <;> exact h.wroteBelow
    cases f with
    | before =>
      simp only [Filling.after] at ht
      split at ht
      · next hc =>
        cases ht
        exact ⟨by cases c <;> simp [hc, Transfer.apply, CountSrc.eval], hw⟩
      · cases ht
    | counted | within | past => cases ht; exact hw
  | nextIndex =>
    cases f with
    | within => cases ht; cases c <;> exact ⟨h.1, h.2.2⟩
    | before | counted | past => cases ht; cases c <;> exact h
  | lenFromRxb =>
    cases f with
    | before => cases ht; exact h
    | counted | within | past => cases ht
  | lenFrom => cases ht
  | _ => cases ht; exact h.congr rfl rfl rfl rfl

theorem applyAll_holds {c : CountSrc} {s : State} (ts : List Transfer) {u : State} {f f' : Filling} (h : f.Holds c s u)
    (ht : ts.foldlM (Filling.after c) f = some f') : f'.Holds c s (applyAll u ts) := by
  induction ts generalizing u f with
  | nil => cases ht; exact h
  | cons t ts ih =>
    rw [List.foldlM_cons, Option.bind_eq_bind, Option.bind_eq_some_iff] at ht
    obtain ⟨g, hg, ht⟩ := ht
    exact ih (apply_holds h hg) ht

/-- An action that may stand at a place keeps what is known: a byte of the buffer is written only at an index below the count. -/
theorem perform_holds {c : CountSrc} {s u t : State} {f : Filling} {a : Act} {rest : Program} (h : f.Holds c s u)
    (ha : a = .memWrite → f = .within) (hn : perform u a rest = .next t) : f.Holds c s t := by
  obtain ⟨-, hcnt, hidx, hlen, -⟩ := perform_fixed hn
  obtain hhb | ⟨rfl, hhb⟩ := perform_hb hn
  · exact h.congr hcnt hidx hlen hhb
  · obtain rfl := ha rfl
    obtain ⟨hc, hi, hw⟩ := h
    have he : c.eval t = c.eval u := by cases c <;> simp [CountSrc.eval, hlen]
    refine ⟨by rw [hcnt, he, hc], by rw [hcnt, hidx]; exact hi, fun k hk => ?_⟩
    rw [he] at hk
    rw [hhb, Memory.read_write_other _ _ _ _ (by rw [hc] at hi; omega)]
    exact hw k hk

/-! #### The procedures' programs -/

@[simp] theorem fills_xfer (c : CountSrc) (f : Filling) (src : ByteSrc) (rest : Program) :
    fills c f (xfer src ++ rest) = fills c f rest := by
  cases f <;> rfl

@[simp] theorem fills_nextBit (c : CountSrc) (f : Filling) (rest : Program) : fills c f (bitStep [.nextBit] ++ rest) = fills c f rest := by
  cases f <;> rfl

@[simp] theorem fills_abort (c : CountSrc) (f : Filling) (cs : Level) (rest : Program) : fills c f (abort cs ++ rest) = true := by
  cases cs <;> cases f <;> rfl

@[simp] theorem fills_burstByte_past (c : CountSrc) (k : Burst) (hk : k ≠ .inHb) (d : Byte) (rest : Program) :
    fills c .past (burstByte k d ++ rest) = fills c .past rest := by
  cases k with
  | inHb => exact absurd rfl hk
  | outHb | outPa | inDrain => rfl

@[simp] theorem fills_burstByte_inHb (c : CountSrc) (d : Byte) (rest : Program) :
    fills c .within (burstByte .inHb d ++ rest) = fills c .counted rest := rfl

theorem fills_recvTail (cfg : Config) (queued : Bool) (rest : Program) : fills .len .before (recvTail cfg queued ++ rest) = true := by
  cases queued <;> rfl

/-- What an action in front of such places is, and what it leaves. -/
theorem fills_act {c : CountSrc} {f : Filling} {pre : List Transfer} {a : Act} {rest : Program}
    (h : fills c f (.act pre a :: rest) = true) :
    ∃ f', pre.foldlM (Filling.after c) f = some f' ∧ a ≠ .testDone ∧ (a = .memWrite → f' = .within) ∧
      ((∃ st r, a = .complete st r) ∨ fills c f' rest = true) := by
  simp only [fills] at h
  cases hf : pre.foldlM (Filling.after c) f with
  | none => simp [hf] at h
  | some f' =>
    rw [hf] at h
    cases a with
    | testDone => cases h
    | complete st r => exact ⟨f', rfl, nofun, nofun, .inl ⟨st, r, rfl⟩⟩
    | memWrite =>
      obtain ⟨hw, hr⟩ : f' = .within ∧ fills c f' rest = true := by simpa using h
      exact ⟨f', rfl, nofun, fun _ => hw, .inr hr⟩
    | setLine | driveBit | sampleBit | delay | waitLine | memRead => exact ⟨f', rfl, nofun, nofun, .inr h⟩

/-- An action other than CHKRX's may be made once more. -/
theorem fills_again {c : CountSrc} {f : Filling} {a : Act} {rest : Program} (hd : a ≠ .testDone) (hw : a = .memWrite → f = .within)
    (hr : fills c f rest = true) : fills c f (.act [] a :: rest) = true := by
  cases a with
  | testDone => exact absurd rfl hd
  | complete => rfl
  | memWrite => obtain rfl := hw rfl; exact hr
  | setLine | driveBit | sampleBit | delay | waitLine | memRead => exact hr

theorem fills_choice {c : CountSrc} {s u : State} {f : Filling} {pre : List Transfer} {b : Branch} {rest : Program}
    (h : f.Holds c s u) (hf : fills c f (.branch pre b :: rest) = true) :
    ∃ g : Filling, g.Holds c s (applyAll u pre) ∧ fills c g (b.expand (applyAll u pre) ++ rest) = true := by
  simp only [fills] at hf
  cases hg : pre.foldlM (Filling.after c) f with
  | none => simp [hg] at hf
  | some g =>
    have hu := applyAll_holds pre h hg
    rw [hg] at hf
    cases b with
    | moreBits =>
      refine ⟨g, hu, ?_⟩
      simp only [Branch.expand]
      split <;> simpa using hf
    | burst k =>
      by_cases hk : k = .inHb
      · subst hk
        obtain ⟨hcnt, hrest⟩ : g = .counted ∧ fills c g rest = true := by simpa using hf
        subst hcnt
        simp only [Branch.expand, burstNext]
        split
        · next hlt => exact ⟨.within, ⟨hu.1, hlt, hu.2⟩, by simpa using hrest⟩
        · exact ⟨.counted, hu, hrest⟩
      · obtain ⟨hpast, hrest⟩ : g = .past ∧ fills c g rest = true := by
          cases k with
          | inHb => exact absurd rfl hk
          | outHb | outPa | inDrain => simpa using hf
        subst hpast
        refine ⟨.past, hu, ?_⟩
        simp only [Branch.expand]
        split
        · split <;> simp [hk, hrest]
        · exact hrest
    | table => cases hf
    | received =>
      obtain ⟨rfl, rfl⟩ : g = .before ∧ c = .len := by simpa using hf
      exact ⟨.before, hu, fills_recvTail _ _ rest⟩

theorem carries_fills (c : CountSrc) (s : State) :
    Carries (fun u p => ∃ f : Filling, f.Holds c s u ∧ fills c f p = true)
      fun t => ∃ f : Filling, f.Holds c s t ∧ (t.busy = true → fills c f t.seq = true) where
  choice h := by
    obtain ⟨f, hu, hf⟩ := h
    exact fills_choice hu hf
  action {u t pre a rest} _ h hn := by
    obtain ⟨f, hu, hf⟩ := h
    obtain ⟨g, hg, hd, hw, hr⟩ := fills_act hf
    refine ⟨g, perform_holds (applyAll_holds pre hu hg) hw hn, fun hb => ?_⟩
    obtain ⟨st, r, rfl⟩ | hr := hr
    · cases hn
      cases hb
    obtain hs | hs | hs | ⟨cs, hs⟩ | ⟨htest, -⟩ := perform_seq hn
    · rw [hs]; exact hr
    · rw [hs]; rfl
    · rw [hs]; exact fills_again hd hw hr
    · rw [hs]; exact fills_abort c g cs rest
    · exact absurd htest hd
  again hb := fun ⟨f, ht, hf⟩ => ⟨f, ht, hf hb⟩

/-- A command whose operation keeps to it writes the buffer only below its count. -/
theorem exec_wroteBelow {c : CountSrc} {i : Instr} {s t : State} (hi : fills c .before (operation s.cfg i) = true)
    (h : exec i s = .next t) : WroteBelow c s t := by
  obtain ⟨-, hn⟩ := exec_next h
  have hacc : Filling.before.Holds c s (accepted s (encode i) (operation s.cfg i)) := rfl
  obtain ⟨f, ht, -⟩ | ⟨rfl, -⟩ := (carries_fills c s).runActions _ (fun _ => ⟨_, hacc, hi⟩) hn
  · exact ht.wroteBelow
  · exact fun _ _ => rfl

/-- The frame that fills the buffer loads the count (R148). -/
theorem fills_rburst (c : CountSrc) (a : Addr) (rest : Program) :
    fills c .before (rburst a .inHb c ++ rest) = fills c .counted rest := by
  simp [rburst, frame, frameBegin, waitLine, frameEnd, fills, Filling.after]

theorem fills_rburstOp (a n : Byte) : fills (.imm n) .before (rburstOp a n) = true := by
  simp only [rburstOp, checked]
  split
  · rfl
  · rw [fills_rburst]
    rfl

theorem fills_recvOp (cfg : Config) : fills .len .before (recvOp cfg) = true := rfl

/-! ### What commands leave alone -/

/-- `OPSTATE` after a command: that of its operation from the first action to the completion. -/
theorem exec_opstate {i : Instr} {s t : State} (hidle : s.opstate = .idle) (h : exec i s = .next t) :
    t.opstate = if t.busy = true ∧ 0 < s.grant then opStateFor (encode i) else .idle := by
  obtain ⟨-, hn⟩ := exec_next h
  have hcmd : t.cmd = encode i := (runActions_fixed _ hn).1
  have hacc := opStateAhead_operationOf (s := s) (encode i) hidle
  rw [operationOf_encode] at hacc
  by_cases hg : s.grant = 0
  · rw [hg] at hn
    cases hn
    simp [hg, hidle]
  obtain ⟨⟨hrest, -⟩, hset⟩ | ⟨-, hzero | hb⟩ := carries_opState.runActions _ (fun _ => hacc) hn
  · cases hb : t.busy with
    | false => simp [hrest hb]
    | true => simp [hset hb, hcmd, Nat.pos_of_ne_zero hg]
  · exact absurd hzero hg
  · cases hb

/-- Settles O44: a part that the operation spares is kept, the rest is the fill's bound and `OPSTATE`. -/
theorem operationFrame : Obligations.OperationFrame := by
  intro i s t hidle hcs h
  obtain ⟨-, hcfg, hdata, hhost⟩ := runActions_fixed _ (exec_next h).2
  have hop := exec_opstate hidle h
  refine ⟨hcfg, hhost, hdata, ?_, ?_, ?_, ?_, ?_, ?_, ?_, ?_, ?_⟩
  · cases i with
    | rburst | recv => trivial
    | _ => exact exec_kept (x := .buffer) rfl h
  · rintro a n rfl
    exact exec_wroteBelow (fills_rburstOp a n) h
  · rintro a n rfl
    exact exec_wroteBelow (i := .recv a n) (fills_recvOp s.cfg) h
  · rw [hop, opStateFor, decode_encode]
    cases i <;> rfl
  · cases i with
    | send | chkrx => trivial
    | _ => exact exec_kept (x := .done) rfl h
  · cases i with
    | send | recv => trivial
    | _ => exact exec_kept (x := .length) rfl h
  · cases i with
    | recv => trivial
    | _ => exact exec_kept (x := .receive) rfl h
  · cases i with
    | configure => trivial
    | _ => exact exec_kept (x := .tables) rfl h
  · cases i with
    | chkrx =>
      obtain ⟨hclk, hout⟩ := exec_kept (x := .data) rfl h
      exact ⟨hclk, hout, (exec_kept (x := .chipSelect) rfl h hcs).trans hcs.symm⟩
    | xfer => exact (exec_kept (x := .chipSelect) rfl h hcs).trans hcs.symm
    | _ => trivial

end Sys2Proof.Machine
end

section
/-! The accesses to `HB`: which byte a `MemRead` sends once the host may have written it (R82, R237), and what the host's own reads and
writes see and change (R76). -/

namespace Sys2Proof.Machine

/-! ### `MemRead` -/

/-- What a byte held before the host's writes is what the model's own list keeps for its index. -/
theorem mem_heldBefore {s : State} {i : Nat} {o : Option Byte} : o ∈ s.heldBefore i ↔ (i, o) ∈ s.stale := by
  simp [State.heldBefore]

/-- Of a byte the host has written since the command, one of the contents it had is sent, any byte standing for no value. -/
theorem memRead_overwritten {s : State} {i : Nat} (h : s.heldBefore i ≠ []) :
    ∃ d k, memRead s i = some (d, { s with draws := k }) ∧
      ∃ o, (o = s.hb.read i ∨ o ∈ s.heldBefore i) ∧ o.all (· = d) := by
  obtain ⟨old, olds, hl⟩ := List.exists_cons_of_ne_nil h
  have hpos : 0 < (s.hb.read i :: old :: olds).length := Nat.succ_pos _
  obtain ⟨o, ho⟩ : ∃ o, (s.hb.read i :: old :: olds)[Config.freeChoice s.draws % (s.hb.read i :: old :: olds).length]? = some o :=
    ⟨_, List.getElem?_eq_getElem (Nat.mod_lt _ hpos)⟩
  refine ⟨o.getD (Config.freeByte s.draws), s.draws + 1, by simp only [memRead, hl, ho, Option.join_some], o, ?_, ?_⟩
  · rw [hl]
    exact List.mem_cons.1 (List.mem_of_getElem? ho)
  · cases o <;> simp

/-- Settles O24: the list for the index is empty, and the buffer alone decides, or it is not, and the byte is one of those held. -/
theorem memReadAction : Obligations.MemReadAction := by
  intro s u rest h
  rw [step_controllerAt h]
  refine ⟨fun hleft => ?_, fun ⟨⟨i, old⟩, hmem, hi⟩ => ?_⟩
  · have hnil : u.heldBefore u.idx.toNat = [] :=
      List.eq_nil_iff_forall_not_mem.2 fun o ho => hleft _ (mem_heldBefore.1 ho) rfl
    have hread := memRead_quiet hnil
    refine ⟨fun d hd => ?_, fun hd => ?_⟩ <;> simp only [perform, hread, hd] <;> rfl
  · obtain rfl : i = u.idx.toNat := hi
    obtain ⟨d, k, hread, o, ho, hod⟩ := memRead_overwritten (List.ne_nil_of_mem (mem_heldBefore.2 hmem))
    refine ⟨d, k, by simp only [perform, hread]; rfl, ?_⟩
    obtain rfl | ho := ho
    · exact .inr hod
    · exact .inl ⟨o, mem_heldBefore.1 ho, hod⟩

/-! ### Which bytes are being filled -/

theorem beingFilled_idle {s : State} (h : s.busy = false) (i : Byte) : beingFilled s i = false := by
  simp only [beingFilled, h, Bool.false_and]

/-- Only an RBURST and a RECV fill bytes of the buffer. -/
theorem beingFilled_other {s : State} (hb : ∀ a n, decode s.cmd ≠ .ok (.rburst a n)) (hr : ∀ a n, decode s.cmd ≠ .ok (.recv a n))
    (i : Byte) : beingFilled s i = false := by
  unfold beingFilled
  split
  · next h => exact absurd h (hb _ _)
  · next h => exact absurd h (hr _ _)
  · exact Bool.and_false _

/-- An RBURST fills no byte from its count on. -/
theorem beingFilled_rburst {s : State} {a n i : Byte} (h : decode s.cmd = .ok (.rburst a n)) (hi : n.toNat ≤ i.toNat) :
    beingFilled s i = false := by
  simp [beingFilled, h, hi]

/-- A RECV fills no byte from the number on that its progress tells. -/
theorem beingFilled_recv {s : State} {a n i : Byte} (h : decode s.cmd = .ok (.recv a n)) (hi : recvFills s ≤ i.toNat) :
    beingFilled s i = false := by
  simp [beingFilled, h, hi]

/-! ### The host's accesses -/

/-- The host's move finds the buffer, and what fills it, as the block holds them. -/
theorem HostMoves.buffer {s t : State} {m : HostMove} (h : HostMoves s m t) :
    t.busy = s.busy ∧ t.hb = s.hb ∧ t.stale = s.stale ∧ ∀ i, beingFilled t i = beingFilled s i := by
  obtain ⟨-, ⟨-, ht⟩ | ⟨-, -, ht⟩⟩ := h <;> rw [ht] <;> exact ⟨rfl, rfl, rfl, fun _ => rfl⟩

/-- A host read of `HB` changes only what the host has read and the counter of the free values. -/
theorem hostReadHb_cases (s : State) (i : Byte) : ∃ x k, hostReadHb s i = { s with hostData := x, draws := k } := by
  unfold hostReadHb
  split
  · exact ⟨_, s.draws, rfl⟩
  · exact ⟨_, _, rfl⟩

/-- The host reads a byte that is not being filled as it is. -/
theorem step_readHb {s t : State} {i d : Byte} (h : HostMoves s (.readHb i) t) (hf : beingFilled s i = false)
    (hd : s.hb.read i.toNat = some d) : step s = .next { t with hostData := BitVec.ofNat 24 d.toNat } := by
  obtain ⟨-, hhb, -, hfill⟩ := h.buffer
  rw [step_hostMoves h, BitVec.ofNat_toNat]
  simp only [hostMove, hostReadHb, hfill, hf, hhb, hd]

/-- Settles O46: a write is the memory's, and each read clause names a byte that is not being filled. -/
theorem hostBuffer : Obligations.HostBuffer := by
  intro s t i v
  refine ⟨fun h => ?_, fun h => ?_⟩
  · obtain ⟨hbusy, hhb, hstale, -⟩ := h.buffer
    refine ⟨s.hb.write i.toNat v, Memory.read_write_same .., fun k hk => Memory.read_write_other _ _ _ _ hk, fun hb => ?_, fun hb => ?_⟩ <;>
      simp [step_hostMoves h, hostMove, hostWriteHb, hbusy, hhb, hstale, hb]
  · intro asItIs
    have unfilled (hf : beingFilled s i = false) : asItIs := fun _ hd => step_readHb h hf hd
    obtain ⟨x, k, hx⟩ := hostReadHb_cases t i
    refine ⟨⟨x, k, by rw [step_hostMoves h, hostMove, hx]⟩, fun hb => unfilled (beingFilled_idle hb i),
      fun hnb hnr => unfilled (beingFilled_other hnb hnr i), fun a n hc hi => unfilled (beingFilled_rburst hc hi), fun a n hc => ?_⟩
    have above (hi : recvFills s ≤ i.toNat) : asItIs := unfilled (beingFilled_recv hc hi)
    refine ⟨fun hlast hread hi => above ?_, fun hlast => above ?_, fun habort hl => above ?_, fun hi => above ?_⟩
    · rwa [recvFills_read hlast hread]
    · rw [recvFills_empty hlast]; exact Nat.zero_le _
    · rw [recvFills_aborted habort hl]; exact Nat.zero_le _
    · rw [hi]; exact recvFills_le s

end Sys2Proof.Machine
end

section
/-! The command word: a word is the encoding of the command it decodes to, which values of `OP` are commands, the control byte of a checked
operand, and the pseudo-operations (R94 to R110). -/

namespace Sys2Proof

/-- Settles O1: the decoder finds in the fields of a command's word the opcode and the operands of the command. -/
theorem decodeEncode : Obligations.DecodeEncode := Machine.decode_encode

/-- A word that is a command carries its opcode and its operands. -/
theorem fields_of_decode {w : CmdWord} {i : Instr} (h : decode w = .ok i) :
    opField w = opcode i ∧ operands i = (aField w, nField w) := by
  simp only [decode] at h
  split at h <;> cases h
  all_goals next hop => exact ⟨BitVec.eq_of_toNat_eq hop, rfl⟩

/-- Settles O2: the word is put together from its fields. -/
theorem encodeDecode : Obligations.EncodeDecode := by
  intro w i h
  obtain ⟨hop, hargs⟩ := fields_of_decode h
  rw [encode, ← hop, hargs]
  exact (word_eq_fields w).symm

theorem opField_toNat (w : CmdWord) : (opField w).toNat = w.toNat / 65536 := by
  have hw := w.isLt
  simp only [opField, BitVec.extractLsb'_toNat, Nat.shiftRight_eq_div_pow]
  omega

/-- Settles O3: a command has one of the thirteen opcodes, and the decoder has an arm for each of them. -/
theorem thirteenOpcodes : Obligations.ThirteenOpcodes := by
  intro w
  rw [← opField_toNat]
  constructor
  · rintro ⟨i, h⟩
    rw [(fields_of_decode h).1]
    cases i <;> simp [opcode]
  · intro h
    simp only [List.mem_cons, List.not_mem_nil, or_false] at h
    rcases h with h | h | h | h | h | h | h | h | h | h | h | h | h <;> simp [decode, h]

/-- Settles O4: fourteen decodings of given words, computed. -/
theorem exampleWords : Obligations.ExampleWords := by
  unfold Obligations.ExampleWords
  decide

end Sys2Proof

namespace Sys2Proof.Machine

/-- A checked operand is its 6-bit address, zero-extended (R97, R104). -/
theorem addrOf_setWidth {a : Byte} (h : a.extractLsb' 6 2 = 0#2) : (addrOf a).setWidth 8 = a := by
  have ha := a.isLt
  have htop : a.toNat / 64 % 4 = 0 := by
    simpa [BitVec.extractLsb'_toNat, Nat.shiftRight_eq_div_pow] using congrArg BitVec.toNat h
  refine BitVec.eq_of_toNat_eq ?_
  simp only [addrOf, BitVec.toNat_setWidth, BitVec.extractLsb'_toNat, Nat.shiftRight_zero]
  omega

/-- Settles O5: the zero-extended address is the operand itself. -/
theorem controlByte_checked : Obligations.ControlByte := by
  intro a f h
  rw [controlByte, addrOf_setWidth h]

/-- Settles O6: each of the five strobes, and RXBYTES, is given the command of the line it stands for. -/
theorem pseudoOperations : Obligations.PseudoOperations := by
  intro c
  refine ⟨fun k l h => ?_, rfl⟩
  simp only [List.mem_cons, List.not_mem_nil, or_false, Prod.mk.injEq] at h
  rcases h with ⟨rfl, rfl⟩ | ⟨rfl, rfl⟩ | ⟨rfl, rfl⟩ | ⟨rfl, rfl⟩ | ⟨rfl, rfl⟩ <;> rfl

end Sys2Proof.Machine
end

section
/-! The ignored operand fields (R95): no operation reads them, and no action of the controller reads `CMD`, in which they are latched. -/

namespace Sys2Proof.Machine

/-! ### The controller does not read `CMD` -/

/-- `CMD <- w`. -/
def State.latch (s : State) (w : CmdWord) : State := { s with cmd := w }

@[simp] theorem latch_seq (s : State) (w : CmdWord) : (s.latch w).seq = s.seq := rfl
@[simp] theorem latch_idx (s : State) (w : CmdWord) : (s.latch w).idx = s.idx := rfl
@[simp] theorem latch_heldBefore (s : State) (w : CmdWord) (i : Nat) : (s.latch w).heldBefore i = s.heldBefore i := rfl

theorem apply_latch (s : State) (w : CmdWord) (t : Transfer) : t.apply (s.latch w) = (t.apply s).latch w := by
  cases t with
  | loadCount c => cases c <;> rfl
  | loadTx src => cases src <;> rfl
  | _ => rfl

theorem applyAll_latch (ts : List Transfer) (s : State) (w : CmdWord) : applyAll (s.latch w) ts = (applyAll s ts).latch w := by
  induction ts generalizing s with
  | nil => rfl
  | cons t ts ih =>
    simp only [applyAll, List.foldl_cons, apply_latch] at ih ⊢
    exact ih _

theorem expand_latch (s : State) (w : CmdWord) (b : Branch) : b.expand (s.latch w) = b.expand s := by
  cases b with
  | burst k => cases k <;> rfl
  | table t => cases t <;> rfl
  | moreBits | received => rfl

theorem settle_latch (p : Program) (s : State) (w : CmdWord) : settle p (s.latch w) = (settle p s).latch w := by
  induction p generalizing s with
  | nil => rfl
  | cons m rest ih =>
    cases m with
    | act pre a => rfl
    | branch pre b =>
      simp only [settle, applyAll_latch, expand_latch]
      split
      · exact ih _
      · rfl

theorem readLine_latch (s : State) (w : CmdWord) (l : SensedLine) :
    readLine (s.latch w) l = ((readLine s l).1, (readLine s l).2.latch w) := by
  cases l with
  | dataIn => cases h : s.dataIn <;> simp [readLine, sense, h, State.emit, State.latch]
  | done => cases h : s.done <;> simp [readLine, sense, h, State.emit, State.latch]

theorem memRead_latch (s : State) (w : CmdWord) (i : Nat) :
    memRead (s.latch w) i = (memRead s i).map fun x => (x.1, x.2.latch w) := by
  simp only [memRead, latch_heldBefore]
  split
  · cases hr : s.hb.read i <;> simp [State.latch, hr]
  · rfl

theorem perform_latch {s t : State} {a : Act} {rest : Program} (w : CmdWord) (h : perform s a rest = .next t) :
    perform (s.latch w) a rest = .next (t.latch w) := by
  cases a with
  | memRead =>
    simp only [perform] at h
    split at h
    · next d s' hm =>
      cases h
      simp only [perform, memRead_latch, latch_idx, hm]
      rfl
    · cases h
  | waitLine l v =>
    cases h
    simp only [perform, waitSample, readLine_latch]
    split <;> rfl
  | sampleBit | testDone => cases h; simp only [perform, readLine_latch]; rfl
  | setLine l v => cases h; cases l <;> rfl
  | complete c r => cases h; cases r <;> rfl
  | driveBit | delay | memWrite => cases h; rfl

theorem controllerStep_latch {s t : State} (w : CmdWord) (h : controllerStep s = .next t) :
    controllerStep (s.latch w) = .next (t.latch w) := by
  simp only [controllerStep, latch_seq, settle_latch, applyAll_latch] at h ⊢
  split at h
  · exact perform_latch w h
  · cases h

/-- A turn that starts with another word in `CMD` ends the same, but for that word. -/
theorem runActions_latch (n : Nat) {s t : State} (w : CmdWord) (h : runActions n s = .next t) :
    runActions n (s.latch w) = .next (t.latch w) := by
  induction n generalizing s with
  | zero => cases h; rfl
  | succ n ih =>
    cases hb : s.busy with
    | false =>
      rw [runActions_idle _ _ hb] at h
      cases h
      exact runActions_idle _ _ hb
    | true =>
      simp only [runActions, hb, if_true] at h
      split at h
      · next u hu => rw [runActions_next (s := s.latch w) n hb (controllerStep_latch w hu), ih h]
      · cases h
      · cases h

/-! ### Commands with the same operation -/

/-- Two commands with the same operation leave the same, but for the latched word. -/
theorem exec_of_same_operation {i j : Instr} {s t : State} (hop : operation s.cfg i = operation s.cfg j) (h : exec i s = .next t) :
    exec j s = .next (t.latch (encode j)) := by
  rw [exec_eq_accept, accept] at h ⊢
  split at h
  · cases h
  · next hidle =>
    split at h
    · next hwf =>
      rw [if_neg hidle, if_pos hwf, ← hop]
      exact runActions_latch _ (encode j) h
    · cases h

/-- Settles O43: the two commands have the same operation. -/
theorem ignoredFields : Obligations.IgnoredFields := by
  intro s t a n b m i j hij
  refine exec_of_same_operation ?_
  simp only [List.mem_cons, List.not_mem_nil, or_false, Prod.mk.injEq] at hij
  rcases hij with ⟨rfl, rfl⟩ | ⟨rfl, rfl⟩ | ⟨rfl, rfl⟩ | ⟨rfl, rfl⟩ | ⟨rfl, rfl⟩ | ⟨rfl, rfl⟩ | ⟨rfl, rfl⟩ | ⟨rfl, rfl⟩ | ⟨rfl, rfl⟩ |
    ⟨rfl, rfl⟩ <;> rfl

end Sys2Proof.Machine
end

section
/-! The transport family: the single actions of the controller (`setLine`, `delay`, `readLine`), the polling wait, and XFER. -/

namespace Sys2Proof.Machine

/-! ### The controller's steps -/

/-- With no turns given a busy block's step is one action of the controller (R14). -/
theorem step_of_busy {s : State} (hb : s.busy = true) (ht : s.turns = []) : step s = controllerStep s := by
  simp only [step, hb, if_true, busyTurn, ht, runActions]
  cases controllerStep s <;> rfl

/-- A turn of the controller is taken in one step (log entry 1). -/
theorem step_of_controllerTurn {s : State} {n : Nat} {ts : List Turn} (hb : s.busy = true) (ht : s.turns = .controller n :: ts) :
    step s = runActions n { s with turns := ts } := by
  simp only [step, hb, if_true, busyTurn, ht]

/-- Settles O15: the step performs one action, after register transfers that leave the trace. -/
theorem oneEventPerAction : Obligations.OneEventPerAction := by
  intro s s' hb ht h
  rw [step_of_busy hb ht] at h
  obtain ⟨-, hf⟩ | ⟨us, -, a, rest, hp, -⟩ := controllerStep_cases s
  · cases hf.symm.trans h
  · simpa using perform_trace (hp.symm.trans h)

/-- Settles O12: each action, whatever state it is performed in, changes its line and the trace, or the trace alone. -/
theorem setLineAndDelay : Obligations.SetLineAndDelay :=
  fun _ _ _ => ⟨fun _ => step_controllerAt, fun _ => step_controllerAt, fun _ => step_controllerAt, fun _ => step_controllerAt⟩

/-! ### Reading a sensed line -/

theorem script_eq (s : State) (l : SensedLine) : s.script l = if l = .dataIn then s.dataIn else s.done := by cases l <;> rfl

theorem sampled_eq (s : State) (l : SensedLine) (bs r : List Level) :
    s.sampled l bs r = { s with
      dataIn := if l = .dataIn then r else s.dataIn, done := if l = .done then r else s.done,
      trace := s.trace ++ bs.map (.read l) } := by
  cases l <;> rfl

/-- Without a scripted level the environment presents a free one (log entry 2). -/
theorem readLine_free {s : State} {l : SensedLine} (h : s.script l = []) :
    readLine s l = (Config.envLevel l s.draws,
      { s with draws := s.draws + 1, trace := s.trace ++ [.read l (Config.envLevel l s.draws)] }) := by
  cases l with
  | dataIn =>
    have hd : s.dataIn = [] := h
    simp only [readLine, sense, hd, State.emit]
  | done =>
    have hd : s.done = [] := h
    simp only [readLine, sense, hd, State.emit]

/-- Settles O13: the level sampled is the free one or the first of the line's script, which loses it. -/
theorem readLine_free_or_scripted : Obligations.ReadLine := by
  intro s l
  cases hl : s.script l with
  | nil =>
    refine ⟨_, s.dataIn, s.done, s.draws + 1, readLine_free hl, ?_, ?_⟩ <;>
    · rintro c r hc rfl
      cases hc.symm.trans hl
  | cons b r =>
    refine ⟨b, if l = .dataIn then r else s.dataIn, if l = .done then r else s.done, s.draws,
      by rw [readLine_scripted s l b r hl, sampled_eq]; rfl, ?_, ?_⟩ <;>
    · rintro c q hc rfl
      cases hc.symm.trans hl
      exact ⟨rfl, rfl, rfl, rfl⟩

/-! ### The polling wait -/

theorem admits_iff {c : Config} {p : Nat} : admits c p = true ↔ ∀ k, c.pollBound = some k → p < k := by
  cases h : c.pollBound <;> simp [admits, h]

/-- An unbounded wait whose `n` samples all miss goes on sampling (R124). -/
theorem runActions_waitLine_unbounded (n : Nat) (s : State) (l : SensedLine) (v : Level) (r : List Level) (rest : Program)
    (hb : s.busy = true) (h : s.script l = List.replicate n (!v) ++ r) (hk : s.cfg.pollBound = none) (h1 : 1 ≤ n) :
    runActions n (s.goto (waitLine l v ++ rest)) =
      .next ({ s.sampled l (List.replicate n (!v)) r with pollcnt := n }.goto (.act [] (.waitLine l v) :: rest)) := by
  obtain ⟨m, rfl⟩ : ∃ m, n = m + 1 := ⟨n - 1, by omega⟩
  have hmiss := runActions_wait_misses (m + 1) 0 { s with pollcnt := 0 } l v r rest hb (by cases l <;> exact h)
    (fun _ _ => by simp [boundReached, hk])
  rw [Nat.zero_add, runActions_zero] at hmiss
  refine (runActions_transfers m s [.startPoll] (.waitLine l v) rest hb).trans (hmiss.trans ?_)
  simp [sampled_eq]

/-- The abort in front of a program: the release of chip-select if it is low, and the completion (R204). -/
theorem abort_append (cs : Level) (rest : Program) :
    abort cs ++ rest =
      (if cs then [] else [.act [] (.setLine .chipSelect true)]) ++ .act [] (.complete .timeout .unchanged) :: rest := by
  cases cs <;> rfl

/-- Settles O21: the turn is the whole wait, met, given up at the bound, or still sampling. -/
theorem pollingWait : Obligations.PollingWait := by
  intro s l v rest n ts r hb ht hs after script
  have hstep : step s = runActions n (State.goto { s with turns := ts } (waitLine l v ++ rest)) := by
    rw [step_of_controllerTurn hb ht, ← hs]
    rfl
  have hscript : State.script { s with turns := ts } l = script := script_eq _ l
  refine ⟨fun p hn hd hk => ?_, fun k h1 hn hd hk => ?_, fun h1 hd hk => ?_⟩
  · subst hn
    have hmet := runActions_waitLine p 0 { s with turns := ts } l v r rest hb (by simp [hscript, hd, waitLevels]) (admits_iff.2 hk)
    rw [Nat.zero_add, runActions_zero] at hmet
    refine (hstep.trans hmet).trans ?_
    simp [after, sampled_eq, State.goto, waitLevels]
  · subst hn
    have hlate := runActions_waitLine_late n 0 { s with turns := ts } l v r rest hb (hscript.trans hd) hk h1
    rw [Nat.zero_add, runActions_zero] at hlate
    refine (hstep.trans hlate).trans ?_
    simp [after, sampled_eq, State.goto, abort_append]
  · refine (hstep.trans (runActions_waitLine_unbounded n _ l v r rest hb (hscript.trans hd) hk h1)).trans ?_
    simp [after, sampled_eq, State.goto]

/-! ### XFER -/

/-- Settles O25: the operation is one transfer and the completion with the byte sampled. -/
theorem xfer_completes : Obligations.Xfer := by
  intro s b xn x r hacc hd hg
  obtain ⟨n, hn⟩ : ∃ n, s.grant = n + 1 + 64 := ⟨s.grant - 65, by omega⟩
  refine ⟨0#3, ?_⟩
  rw [exec_of_accepts _ hacc, hn]
  have hxfer := runActions_xfer n (accepted s (encode (.xfer b xn)) []) (.imm b) x r (completeOk .rxb) rfl hd
  refine (hxfer.trans (runActions_complete n _ .ok .rxb [] rfl)).trans ?_
  simp [complete, State.emit, State.ended, State.transferred, accepted, ResultSrc.eval, ByteSrc.eval]

end Sys2Proof.Machine
end

section
/-! Every step keeps the framing discipline (`Inv`): what a place that keeps to it, and the event of its action, do to the phase of the
bus and to the lines; that the choices and the operations keep to it. -/

namespace Sys2Proof.Machine

/-! ### The canonical form of `HB` along steps -/

theorem perform_hb_wf {s t : State} {a : Act} {rest : Program} (hwf : s.hb.wf = true) (h : perform s a rest = .next t) :
    t.hb.wf = true := by
  obtain hhb | ⟨-, hhb⟩ := perform_hb h
  · rw [hhb, hwf]
  · rw [hhb]; exact Memory.write_wf _ _ _ s.idx.isLt hwf

theorem runActions_hb_wf (n : Nat) {s t : State} (hwf : s.hb.wf = true) (h : runActions n s = .next t) : t.hb.wf = true :=
  runActions_keeps (R := fun u => u.hb.wf = true) (fun u ts hu => by simpa using hu) (fun _ hu hn => perform_hb_wf hu hn) n hwf h

theorem hostMove_hb_wf {s t : State} {m : HostMove} (hwf : s.hb.wf = true) (h : hostMove s m = .next t) : t.hb.wf = true := by
  cases m with
  | writeReg number w =>
    cases number with
    | zero =>
      obtain ⟨w', hw⟩ := hostCommand_eq_accept s w
      exact runActions_hb_wf _ (s := accepted s w' _) hwf (accept_next (hw.symm.trans h)).2
    | succ => cases h; exact hwf
  | readReg number =>
    cases h
    simp only [hostReadReg]
    split <;> exact hwf
  | writeHb i v => cases h; exact Memory.write_wf _ _ _ i.isLt hwf
  | readHb i =>
    cases h
    obtain ⟨x, k, hx⟩ := hostReadHb_cases s i
    rw [hx]
    exact hwf

theorem hostTurn_hb_wf {s t : State} (hwf : s.hb.wf = true) (h : hostTurn s = .next t) : t.hb.wf = true := by
  unfold hostTurn at h
  split at h
  · cases h; exact hwf
  · next ms _ => exact hostMove_hb_wf (s := { s with host := ms }) hwf h

/-- `HB` stays in canonical form: the indexes written are bytes (R49; log entry 5). -/
theorem step_hb_wf {s t : State} (hwf : s.hb.wf = true) (h : step s = .next t) : t.hb.wf = true := by
  unfold step at h
  split at h
  · unfold busyTurn at h
    split at h
    · exact runActions_hb_wf 1 hwf h
    · next n ts _ => exact runActions_hb_wf n (s := { s with turns := ts }) hwf h
    · next ts _ => exact hostTurn_hb_wf (s := { s with turns := ts }) hwf h
  · exact hostTurn_hb_wf hwf h

/-! ### An event, the lines and the phase -/

/-- The level of a line after an event, `v` being the one before. -/
def Event.level (l : DrivenLine) (v : Level) : Event → Level
  | .set l' v' => if l' = l then v' else v
  | _ => v

/-- An action leaves `BITCNT`; the event it appends tells the levels of `CHIP_SELECT` and `CLOCK`. -/
theorem perform_event {s t : State} {a : Act} {rest : Program} (h : perform s a rest = .next t) :
    ∃ e, t.trace = s.trace ++ [e] ∧ t.chipSelect = e.level .chipSelect s.chipSelect ∧ t.clock = e.level .clock s.clock ∧
      t.bitcnt = s.bitcnt := by
  cases a with
  | setLine l v => cases h; cases l <;> exact ⟨_, rfl, rfl, rfl, rfl⟩
  | memRead => obtain ⟨d, k, rfl⟩ := perform_memRead h; exact ⟨_, rfl, rfl, rfl, rfl⟩
  | waitLine => obtain ⟨k, q, rfl, -⟩ := perform_waitLine h; simp [Event.level]
  | driveBit | sampleBit | delay | testDone | memWrite | complete => cases h; simp [setLine, Event.level]

theorem Phase.after_level_chipSelect {ph ph' : Phase} {e : Event} (h : ph.after e = some ph') :
    ph'.chipSelect = e.level .chipSelect ph.chipSelect := by
  by_cases he : ∃ v, e = .set .chipSelect v
  · obtain ⟨v, rfl⟩ := he
    exact Phase.after_setChipSelect h
  · have hne : ∀ v, e ≠ .set .chipSelect v := fun v hv => he ⟨v, hv⟩
    rw [Phase.after_chipSelect h hne]
    cases e with
    | set l v =>
      cases l with
      | chipSelect => exact absurd rfl (hne v)
      | clock | dataOut => rfl
    | _ => rfl

/-- Inside a transfer an event is the next of its 64 (R126). -/
theorem Phase.after_of_shifting {ph ph' : Phase} {e : Event} {f : Bool} {n : Nat} (hs : ph.settled = .shifting f n)
    (h : ph.after e = some ph') : bitEvent n e = true ∧ ph' = .shifting f (n + 1) := by
  simp only [Phase.after, hs] at h
  split at h
  · next hb => cases h; exact ⟨hb, rfl⟩
  · cases h

/-- Outside a transfer an event leads to a phase with `CLOCK` low, and leads into a transfer only at its first event. -/
theorem Phase.after_of_not_shifting {ph ph' : Phase} {e : Event} (hs : ∀ f n, ph.settled ≠ .shifting f n) (h : ph.after e = some ph') :
    ph'.clock = false ∧ e.level .clock false = false ∧ ∀ f n, ph' = .shifting f n → n = 1 := by
  simp only [Phase.after] at h
  split at h
  · next hsh => exact absurd hsh (hs _ _)
  -- a sample of the ready wait, whose level chooses the phase
  case h_8 => split at h <;> cases h <;> simp [Phase.clock, Event.level]
  all_goals cases h <;> simp [Phase.clock, Event.level]

theorem bitEvent_lt {n : Nat} {e : Event} (h : bitEvent n e = true) : n < 64 :=
  of_decide_eq_true (Bool.and_eq_true_iff.1 h).1

theorem bitEvent_clock {n : Nat} {e : Event} (h : bitEvent n e = true) (f : Bool) :
    (Phase.shifting f (n + 1)).clock = e.level .clock (Phase.shifting f n).clock := by
  simp only [bitEvent, Bool.and_eq_true] at h
  obtain ⟨-, h⟩ := h
  have hnext : (n + 1) % 8 = (n % 8 + 1) % 8 := by omega
  split at h
  -- an event that belongs to no place of the bit
  case h_9 => cases h
  all_goals next hr => simp_all [Phase.clock, Event.level]

theorem Phase.after_level_clock {ph ph' : Phase} {e : Event} (h : ph.after e = some ph') : ph'.clock = e.level .clock ph.clock := by
  rw [← Phase.clock_settled ph]
  by_cases hs : ∃ f n, ph.settled = .shifting f n
  · obtain ⟨f, n, hs⟩ := hs
    obtain ⟨hb, rfl⟩ := Phase.after_of_shifting hs h
    rw [hs, bitEvent_clock hb]
  · have hs' : ∀ f n, ph.settled ≠ .shifting f n := fun f n hn => hs ⟨f, n, hn⟩
    obtain ⟨hl, he, -⟩ := Phase.after_of_not_shifting hs' h
    have : ph.settled.clock = false := by
      cases hp : ph.settled with
      | shifting f n => exact absurd hp (hs' f n)
      | _ => rfl
    rw [this, hl, he]

/-! ### `BITCNT` and the bit of a transfer -/

/-- `BITCNT` stands at the bit to which an event of a transfer belongs. -/
def Phase.CountsBits (ph : Phase) (bitcnt : BitVec 3) : Prop := ∀ framed n, ph = .shifting framed n → bitcnt.toNat = 7 - (n - 1) / 8

theorem Phase.countsBits_of_not_shifting {ph : Phase} (h : ∀ f n, ph ≠ .shifting f n) (k : BitVec 3) : ph.CountsBits k :=
  fun f n hph => absurd hph (h f n)

/-- An event that leads into a transfer is its first, or the next one of it. -/
theorem Phase.after_shifting {ph : Phase} {e : Event} {f : Bool} {n : Nat} (h : ph.after e = some (.shifting f n)) :
    n = 1 ∨ ∃ m, ph = .shifting f m ∧ n = m + 1 ∧ m < 64 := by
  obtain ⟨g, m, hs, hph⟩ | hs := ph.settled_cases
  · obtain ⟨hb, heq⟩ := Phase.after_of_shifting hs h
    cases heq
    exact .inr ⟨m, hph, rfl, bitEvent_lt hb⟩
  · exact .inl ((Phase.after_of_not_shifting hs h).2.2 f n rfl)

/-- The register transfers that go with an event keep `BITCNT` at its bit (R27). -/
theorem Phase.CountsBits.applyAll {ph ph' : Phase} {s : State} {e : Event} {pre : List Transfer} (h : ph.CountsBits s.bitcnt)
    (he : ph.after e = some ph') (hl : ph'.loads pre = true) : ph'.CountsBits (applyAll s pre).bitcnt := by
  rintro f n rfl
  have hprev := Phase.after_shifting he
  simp only [Phase.loads] at hl
  split at hl
  · obtain rfl : n = 1 := by simpa using hl
    rfl
  · obtain ⟨hn, hmod⟩ : n ≠ 1 ∧ n % 8 = 1 := by simpa using hl
    obtain ⟨m, hph, rfl, hm⟩ := hprev.resolve_left hn
    have hcnt := h f m hph
    have hdown : (s.bitcnt - 1#3).toNat = s.bitcnt.toNat - 1 := by
      have := s.bitcnt.isLt
      simp only [BitVec.toNat_sub, BitVec.toNat_ofNat]
      omega
    show (s.bitcnt - 1#3).toNat = _
    omega
  · have hmod : n % 8 ≠ 1 := by simpa using hl
    obtain ⟨m, hph, rfl, -⟩ := hprev.resolve_left (by rintro rfl; exact hmod rfl)
    have hcnt := h f m hph
    show s.bitcnt.toNat = _
    omega
  · cases hl

/-! ### A place of the program and its action -/

/-- The level of a data bit does not matter to the discipline. -/
theorem bitEvent_level (n : Nat) (v w : Level) :
    bitEvent n (.set .dataOut v) = bitEvent n (.set .dataOut w) ∧ bitEvent n (.read .dataIn v) = bitEvent n (.read .dataIn w) := by
  have hlt : n % 8 < 8 := Nat.mod_lt _ (by decide)
  simp only [bitEvent]
  generalize n % 8 = k at hlt
  interval_cases k <;> exact ⟨rfl, rfl⟩

theorem Phase.after_dataOut (ph : Phase) (v w : Level) : ph.after (.set .dataOut v) = ph.after (.set .dataOut w) := by
  simp only [Phase.after]
  cases ph.settled with
  | shifting f n => simp only [(bitEvent_level n v w).1]
  | _ => rfl

theorem Phase.after_dataIn {ph : Phase} {f : Bool} {n : Nat} (h : ph.settled = .shifting f n) (v w : Level) :
    ph.after (.read .dataIn v) = ph.after (.read .dataIn w) := by
  simp only [Phase.after, h, (bitEvent_level n v w).2]

/-- What a performed action leaves: the event it appends is one the phase allows and the register transfers `pre` go with, and the
places then at `SEQ` keep the discipline from the phase it leads to, or the operation is over with the bus released. -/
def LeavesFraming (ph : Phase) (pre : List Transfer) (s t : State) : Prop :=
  ∃ e ph', t.trace = s.trace ++ [e] ∧ ph.after e = some ph' ∧ ph'.loads pre = true ∧
    (ph' = .released ∧ (∃ c r, t = complete s c r) ∨ t.busy = s.busy ∧ follows ph' t.seq = true)

theorem LeavesFraming.along {ph ph' : Phase} {pre : List Transfer} {s t : State} {e : Event} (htr : t.trace = s.trace ++ [e])
    (hb : t.busy = s.busy) (he : ph.after e = some ph') (hl : (ph'.loads pre && follows ph' t.seq) = true) : LeavesFraming ph pre s t :=
  ⟨e, ph', htr, he, (Bool.and_eq_true_iff.1 hl).1, .inr ⟨hb, (Bool.and_eq_true_iff.1 hl).2⟩⟩

/-- Outside the transfers no register transfer spoils `BITCNT`. -/
theorem LeavesFraming.outside {ph q ph' : Phase} {pre : List Transfer} {s t : State} {e : Event} (hq : ph.settled = q.settled)
    (htr : t.trace = s.trace ++ [e]) (hb : t.busy = s.busy) (he : q.after e = some ph') (hl : ph'.loads pre = true)
    (hf : follows ph' t.seq = true) : LeavesFraming ph pre s t :=
  ⟨e, ph', htr, (Phase.after_congr hq e).trans he, hl, .inr ⟨hb, hf⟩⟩

/-- A sample of a wait ends it, or misses: then the wait stands at `SEQ` again, or the abort. -/
theorem perform_waitLine_level {s t : State} {l : SensedLine} {v : Level} {rest : Program} (h : perform s (.waitLine l v) rest = .next t) :
    t.trace = s.trace ++ [.read l (readLine s l).1] ∧ t.busy = s.busy ∧
      ((readLine s l).1 = v ∧ t.seq = rest ∨
        (readLine s l).1 = (!v) ∧ (t.seq = .act [] (.waitLine l v) :: rest ∨ t.seq = abort s.chipSelect ++ rest)) := by
  cases h
  simp only [waitSample]
  split
  · next hv => exact ⟨readLine_trace s l, readLine_busy s l, .inl ⟨hv, rfl⟩⟩
  · next hv =>
    refine ⟨readLine_trace s l, readLine_busy s l, .inr ⟨Bool.eq_not.2 hv, ?_⟩⟩
    split
    · exact .inr rfl
    · exact .inl rfl

/-- A wait stands outside the transfers. A match goes on with the places behind it; a miss leaves the phase, and from it the wait may
stand again, or the abort. -/
theorem follows_waitLine {ph : Phase} {pre : List Transfer} {l : SensedLine} {v : Level} {rest : Program}
    (h : follows ph (.act pre (.waitLine l v) :: rest) = true) :
    ∃ q q', ph.settled = q.settled ∧ (q.after (.read l v) = some q' ∧ q'.loads pre = true ∧ follows q' rest = true) ∧
      q.after (.read l !v) = some q ∧ q.loads pre = true ∧
        follows q (.act [] (.waitLine l v) :: rest) = true ∧ follows q (abort q.chipSelect ++ rest) = true := by
  cases l with
  | dataIn =>
    simp only [follows] at h
    split at h
    · next hs =>
      obtain ⟨hv, hr⟩ : v = false ∧ follows .ready rest = true := by simpa using h
      subst hv
      exact ⟨.waiting, .ready, hs, ⟨rfl, rfl, hr⟩, rfl, rfl, hr, rfl⟩
    · next hs => exact ⟨.moving, .moving, hs, ⟨rfl, rfl, h⟩, rfl, rfl, h, rfl⟩
    · cases h
  | done =>
    obtain ⟨hs, hr⟩ : ph.settled = .released ∧ follows .released rest = true := by simpa [follows] using h
    exact ⟨.released, .released, hs, ⟨rfl, rfl, hr⟩, rfl, rfl, hr, rfl⟩

theorem waitLine_leavesFraming {ph : Phase} {s t : State} {pre : List Transfer} {l : SensedLine} {v : Level} {rest : Program}
    (hf : follows ph (.act pre (.waitLine l v) :: rest) = true) (hcs : s.chipSelect = ph.chipSelect)
    (h : perform s (.waitLine l v) rest = .next t) : LeavesFraming ph pre s t := by
  obtain ⟨q, q', hs, ⟨hmet, hmetl, hr⟩, hmiss, hmissl, hagain, habort⟩ := follows_waitLine hf
  have hq : s.chipSelect = q.chipSelect := by rw [hcs, ← ph.chipSelect_settled, hs, q.chipSelect_settled]
  obtain ⟨htr, hb, ⟨hv, hseq⟩ | ⟨hv, hseq | hseq⟩⟩ := perform_waitLine_level h <;> rw [hv] at htr
  · exact .outside hs htr hb hmet hmetl (hseq ▸ hr)
  · exact .outside hs htr hb hmiss hmissl (hseq ▸ hagain)
  · exact .outside hs htr hb hmiss hmissl (by rw [hseq, hq]; exact habort)

/-- An action that keeps the discipline leaves it kept: its event is the one the place names, or one the discipline does not tell apart. -/
theorem perform_leavesFraming {ph : Phase} {s t : State} {pre : List Transfer} {a : Act} {rest : Program}
    (hf : follows ph (.act pre a :: rest) = true) (hcs : s.chipSelect = ph.chipSelect) (h : perform s a rest = .next t) :
    LeavesFraming ph pre s t := by
  cases a with
  | setLine l v =>
    simp only [follows] at hf
    split at hf
    · next ph' he => cases h; exact .along (e := .set l v) (by simp [setLine]) (by simp [setLine]) he hf
    · cases hf
  | delay d =>
    simp only [follows] at hf
    split at hf
    · next ph' he => cases h; exact .along rfl rfl he hf
    · cases hf
  | driveBit =>
    simp only [follows] at hf
    split at hf
    · next ph' he => cases h; exact .along rfl rfl ((ph.after_dataOut _ _).trans he) hf
    · cases hf
  | sampleBit =>
    simp only [follows] at hf
    split at hf
    · next hs =>
      split at hf
      · next ph' he =>
        cases h
        exact .along (readLine_trace s .dataIn) (readLine_busy s .dataIn) ((Phase.after_dataIn hs _ _).trans he) hf
      · cases hf
    · cases hf
  | memRead =>
    obtain ⟨hs, hr⟩ : ph.settled = .moving ∧ follows .moving rest = true := by simpa [follows] using hf
    obtain ⟨d, k, rfl⟩ := perform_memRead h
    exact .outside (q := .moving) hs rfl rfl rfl rfl hr
  | memWrite =>
    obtain ⟨hs, hr⟩ : ph.settled = .moving ∧ follows .moving rest = true := by simpa [follows] using hf
    cases h
    exact .outside (q := .moving) hs rfl rfl rfl rfl hr
  | testDone =>
    have hs : ph.settled = .released := by simpa [follows] using hf
    have hr (high : Level) : follows .released (chkrxTail high ++ rest) = true := by cases high <;> rfl
    cases h
    exact .outside (q := .released) hs (readLine_trace s .done) (readLine_busy s .done) rfl rfl (hr _)
  | complete c r =>
    have hs : ph.settled = .released := by simpa [follows] using hf
    cases h
    exact ⟨_, .released, rfl, Phase.after_congr (ph' := .released) hs _, rfl, .inl ⟨rfl, _, _, rfl⟩⟩
  | waitLine l v => exact waitLine_leavesFraming hf hcs h

/-! ### The controller keeps the discipline -/

/-- The lines and `BITCNT` of the state are those of the phase. -/
def Phase.Agrees (ph : Phase) (s : State) : Prop := s.chipSelect = ph.chipSelect ∧ s.clock = ph.clock ∧ ph.CountsBits s.bitcnt

/-- What the invariant says of the bus. -/
def Framed (s : State) : Prop :=
  ∃ ph, phaseOf s.trace = some ph ∧ ph.Agrees s ∧ (s.busy = false → ph = .released ∧ s.opstate = .idle ∧ s.seq = []) ∧
    (s.busy = true → follows ph s.seq = true)

theorem inv_iff {s : State} : Inv s ↔ s.hb.wf = true ∧ Framed s := by
  simp only [Inv, Framed, Phase.Agrees, Phase.CountsBits, and_assoc]

/-- The places `p` keep the discipline from the phase of the trace. Where a transfer is over that phase may stand for its settled form, in
which nothing is said of `BITCNT`: the register transfers of a choice that is made then are free to load it. -/
def KeepsFraming (s : State) (p : Program) : Prop :=
  ∃ ph₀ ph, phaseOf s.trace = some ph₀ ∧ ph₀.settled = ph.settled ∧ ph.Agrees s ∧ follows ph p = true

theorem Phase.Agrees.settled {ph : Phase} {s : State} (h : ph.Agrees s) (hs : ∀ f n, ph.settled ≠ .shifting f n) (ts : List Transfer) :
    ph.settled.Agrees (applyAll s ts) := by
  obtain ⟨hcs, hclk, -⟩ := h
  exact ⟨by simpa using hcs, by simpa using hclk, Phase.countsBits_of_not_shifting hs _⟩

/-! ### The choices -/

theorem follows_wreg (a : Addr) (v : ByteSrc) {rest : Program} (hr : follows .released rest = true) :
    follows .released (wreg a v ++ rest) = true := follows_frame_pair _ _ _ hr
theorem follows_rreg (a : Addr) {rest : Program} (hr : follows .released rest = true) :
    follows .released (rreg a ++ rest) = true := follows_frame_pair _ _ _ hr
theorem follows_rstat (c : Config) (a : Addr) {rest : Program} (hr : follows .released rest = true) :
    follows .released (rstat c a ++ rest) = true := follows_frame_pair _ _ _ hr
theorem follows_strobe (c : Addr) {rest : Program} (hr : follows .released rest = true) :
    follows .released (strobe c ++ rest) = true := follows_frame_single _ _ hr
theorem follows_wburst (a : Addr) (k : Burst) (n : CountSrc) {rest : Program} (hr : follows .released rest = true) :
    follows .released (wburst a k n ++ rest) = true := follows_frame_burst _ _ _ hr
theorem follows_rburst (a : Addr) (k : Burst) (n : CountSrc) {rest : Program} (hr : follows .released rest = true) :
    follows .released (rburst a k n ++ rest) = true := follows_frame_burst _ _ _ hr

theorem follows_burstByte (k : Burst) (d : Byte) {rest : Program} (hr : follows .moving rest = true) :
    follows .moving (burstByte k d ++ rest) = true := by
  cases k <;> simp only [burstByte, List.append_assoc, List.cons_append, List.nil_append]
  case outHb => exact follows_xfer_moving .txb hr
  case outPa => exact follows_xfer_moving _ hr
  case inHb => exact follows_xfer_moving _ hr
  case inDrain => exact follows_xfer_moving _ hr

theorem follows_recvTail (c : Config) (queued : Bool) (rest : Program) : follows .released (recvTail c queued ++ rest) = true := by
  have hlen : follows .released (completeOk .len ++ rest) = true := rfl
  have hnone : follows .released (completeOk (.imm 0x00#8) ++ rest) = true := rfl
  cases queued with
  | false =>
    simp only [recvTail, Bool.false_eq_true, if_false, List.append_assoc]
    exact follows_strobe _ hnone
  | true =>
    simp only [recvTail, if_true, List.append_assoc]
    exact follows_rreg _ (follows_withTransfers _ _ _ (follows_rburst _ _ _ (follows_rburst _ _ _ (follows_strobe _ hlen))))

/-- The end of a bit is the end of the transfer, or the next bit follows, as `BITCNT` says (R126). -/
theorem follows_expand_moreBits {ph : Phase} {s : State} {pre : List Transfer} {rest : Program} (hc : ph.CountsBits s.bitcnt)
    (h : follows ph (.branch pre .moreBits :: rest) = true) : pre = [] ∧ follows ph (Branch.moreBits.expand s ++ rest) = true := by
  simp only [follows] at h
  split at h
  · next f n =>
    obtain ⟨⟨⟨⟨hpre, hpos⟩, hle⟩, hmod⟩, hr⟩ :
        (((pre = [] ∧ 0 < n) ∧ n ≤ 64) ∧ n % 8 = 0) ∧ follows (.shifting f 64) rest = true := by
      simpa using h
    refine ⟨hpre, ?_⟩
    have hcnt := hc f n rfl
    simp only [Branch.expand]
    split
    · next hzero =>
      rw [hzero, BitVec.toNat_ofNat] at hcnt
      obtain rfl : n = 64 := by omega
      exact hr
    · next hne =>
      have hcnt0 : s.bitcnt.toNat ≠ 0 := fun h0 => hne (BitVec.eq_of_toNat_eq h0)
      obtain ⟨j, rfl⟩ : ∃ j, n = 8 * j := ⟨n / 8, by omega⟩
      refine follows_bitStep (f := f) (j := j) (by omega) ?_ ?_ hr
      · simp only [Phase.after, Phase.settled_shifting f (8 * j) (by omega)]
        have hb : bitEvent (8 * j) (.set .clock false) = true := by simp [bitEvent]; omega
        rw [if_pos hb]
      · simp [Phase.loads]; omega
  · cases h

/-- A choice outside the transfers puts places in front that keep the discipline from there. -/
theorem follows_expand {b : Branch} {ph : Phase} {pre : List Transfer} {rest : Program} (s : State) (hb : b ≠ .moreBits)
    (h : follows ph (.branch pre b :: rest) = true) :
    (∀ f n, ph.settled ≠ .shifting f n) ∧ follows ph.settled (b.expand s ++ rest) = true := by
  cases b with
  | moreBits => exact absurd rfl hb
  | burst k =>
    obtain ⟨hs, hr⟩ : ph.settled = .moving ∧ follows .moving rest = true := by simpa [follows] using h
    rw [hs]
    refine ⟨nofun, ?_⟩
    simp only [Branch.expand]
    split
    · split
      · exact follows_burstByte k _ hr
      · exact hr
    · exact hr
  | table t =>
    obtain ⟨hs, hr⟩ : ph.settled = .released ∧ follows .released rest = true := by simpa [follows] using h
    rw [hs]
    refine ⟨nofun, ?_⟩
    simp only [Branch.expand]
    split
    · rw [List.append_assoc]; exact follows_wreg _ _ hr
    · exact hr
  | received =>
    have hs : ph.settled = .released := by simpa [follows] using h
    rw [hs]
    exact ⟨nofun, follows_recvTail _ _ rest⟩

theorem carries_framing : Carries KeepsFraming Framed where
  choice {s pre b rest} h := by
    obtain ⟨ph₀, ph, htr, hset, hag, hf⟩ := h
    by_cases hb : b = .moreBits
    · subst hb
      obtain ⟨rfl, hexp⟩ := follows_expand_moreBits hag.2.2 hf
      exact ⟨ph₀, ph, htr, hset, hag, hexp⟩
    · obtain ⟨hns, hexp⟩ := follows_expand (applyAll s pre) hb hf
      exact ⟨ph₀, ph.settled, by simpa using htr, by simpa using hset, hag.settled hns pre, hexp⟩
  action {s t pre a rest} hb h hn := by
    obtain ⟨ph₀, ph, htr, hset, ⟨hcs, hclk, hcnt⟩, hf⟩ := h
    obtain ⟨e, ph', he, hafter, hloads, hends⟩ := perform_leavesFraming hf (by simpa using hcs) hn
    obtain ⟨e', he', hcs', hclk', hcnt'⟩ := perform_event hn
    obtain rfl : e = e' := by simpa using he.symm.trans he'
    rw [applyAll_trace] at he
    rw [applyAll_chipSelect, hcs] at hcs'
    rw [applyAll_clock, hclk] at hclk'
    refine ⟨ph', he ▸ phaseOf_snoc htr ((Phase.after_congr hset e).trans hafter),
      ⟨hcs'.trans (Phase.after_level_chipSelect hafter).symm, hclk'.trans (Phase.after_level_clock hafter).symm,
        hcnt' ▸ hcnt.applyAll hafter hloads⟩, ?_⟩
    obtain ⟨rfl, c, r, rfl⟩ | ⟨hbusy, hfol⟩ := hends
    · exact ⟨fun _ => ⟨rfl, rfl, rfl⟩, nofun⟩
    · refine ⟨fun hidle => ?_, fun _ => hfol⟩
      rw [hbusy, applyAll_busy, hb] at hidle
      cases hidle
  again hb h := by
    obtain ⟨ph, htr, hag, -, hf⟩ := h
    exact ⟨ph, ph, htr, rfl, hag, hf hb⟩

/-! ### The operations -/

theorem follows_checked (a : Byte) {p : Addr → Program} (h : ∀ k, follows .released (p k) = true) :
    follows .released (checked a p) = true := by
  unfold checked
  split
  · rfl
  · exact h _

/-- The operation of every command keeps the discipline from the idle bus on. -/
theorem follows_operation (c : Config) (i : Instr) : follows .released (operation c i) = true := by
  have hend (r : ResultSrc) : follows .released (completeOk r) = true := rfl
  cases i with
  | xfer b => exact follows_xfer_released _ (hend _)
  | wreg a v => exact follows_checked a fun k => follows_wreg k _ (hend _)
  | rreg a => exact follows_checked a fun k => follows_rreg k (hend _)
  | wburst a n => exact follows_checked a fun k => follows_wburst k _ _ (hend _)
  | rburst a n => exact follows_checked a fun k => follows_rburst k _ _ (hend _)
  | strobe a => exact follows_checked a fun k => follows_strobe k (hend _)
  | rstat a => exact follows_checked a fun k => follows_rstat c k (hend _)
  | reset =>
    have hpulse {rest : Program} (h : follows .ready rest = true) :
        follows .released ([.act [] (.setLine .chipSelect false), .act [] (.delay .rstA), .act [] (.setLine .chipSelect true),
          .act [] (.delay .rstB), .act [] (.setLine .chipSelect false)] ++ (waitLine .dataIn false ++ rest)) = true := h
    simp only [operation, resetOp, List.append_assoc]
    exact hpulse (follows_xfer_ready _ rfl)
  | configure b => exact follows_wburst c.addrPaTable .outPa (.imm nPaTable) (hend .unchanged)
  | send _ n =>
    simp only [operation, sendOp]
    split
    · rfl
    · simp only [List.append_assoc]
      exact follows_withTransfers _ _ _ (follows_wreg _ _ (follows_wburst _ _ _ (follows_strobe _
        (follows_strobe c.cmdSftx (hend .unchanged)))))
  | setrx => exact follows_strobe _ (hend _)
  | chkrx => rfl
  | recv => exact follows_withTransfers _ _ _ (follows_rstat c _ rfl)

theorem follows_operationOf (c : Config) (w : CmdWord) : follows .released (operationOf c w) = true := by
  unfold operationOf
  split
  · exact follows_operation c _
  · rfl

/-- Settles O49: an acceptance puts a whole operation in front of the idle bus, the controller keeps the discipline from there, and a move of
the host leaves the bus. -/
theorem framingInvariant : Obligations.FramingInvariant := by
  intro s s' h hn
  obtain ⟨hwf, ph, htr, hag, hidle, hf⟩ := inv_iff.1 h
  have turn (n : Nat) {u : State} (hu : Framed u) (hn : runActions n u = .next s') : Framed s' := by
    obtain h | ⟨rfl, -⟩ := carries_framing.runActions n (fun hb => carries_framing.again hb hu) hn
    · exact h
    · exact hu
  refine inv_iff.2 ⟨step_hb_wf hwf hn, ?_⟩
  obtain ⟨n, ts, -, hn⟩ | ⟨ms, w, hb, hn⟩ | ⟨ms, ts, x, k, m, l, rfl⟩ := step_cases hn
  · exact turn n (u := { s with turns := ts }) ⟨ph, htr, hag, hidle, hf⟩ hn
  · obtain ⟨rfl, -⟩ := hidle hb
    exact turn _ (u := accepted { s with host := ms } w (operationOf s.cfg w))
      ⟨.released, htr, hag, nofun, fun _ => follows_operationOf s.cfg w⟩ hn
  · exact ⟨ph, htr, hag, hidle, hf⟩

end Sys2Proof.Machine
end

section
/-! The protocol family: each command is one frame behind the operand check (R104). What such a command does is said once for the check,
for the frame given up, and for a frame followed by the completion; the six commands then differ in the frame's shape (R145 to R150). -/

namespace Sys2Proof.Machine

/-! ### The operand check -/

theorem badAddr_iff (a : Byte) : badAddr a = true ↔ 64 ≤ a.toNat := by
  have ha := a.isLt
  have htop : (a.extractLsb' 6 2).toNat = a.toNat / 64 % 4 := by
    simp [BitVec.extractLsb'_toNat, Nat.shiftRight_eq_div_pow]
  rw [badAddr, bne_iff_ne, ne_eq, BitVec.toNat_eq, htop, BitVec.toNat_ofNat]
  omega

theorem badAddr_of_lt {a : Byte} (h : a.toNat < 64) : badAddr a = false := by
  rw [← Bool.not_eq_true, badAddr_iff]
  omega

theorem checked_of_lt {a : Byte} (h : a.toNat < 64) (p : Addr → Program) : checked a p = p (addrOf a) := by
  simp [checked, badAddr_of_lt h]

theorem checked_of_ge {a : Byte} (h : 64 ≤ a.toNat) (p : Addr → Program) : checked a p = reject .badAddr := by
  simp [checked, (badAddr_iff a).2 h]

/-- The control byte of a checked operand (R97). -/
theorem controlByte_addrOf {a : Byte} (h : a.toNat < 64) (f : Byte) : controlByte (addrOf a) f = a ||| f :=
  controlByte_checked a f (by simpa [badAddr] using badAddr_of_lt h)

/-! ### From the turn to the command -/

/-- The completion of a command leaves `u`, the state before it, but for what `ended` says. -/
theorem complete_eq_ended {u s : State} {w : CmdWord} {es : List Event} (hcmd : u.cmd = w) (htr : u.trace = s.trace ++ es)
    (hst : u.stale = []) (htu : u.turns = s.turnsAfter) (hre : u.result = s.result) (c : Status) (r : Option Byte) :
    complete u c r = u.ended s w es c r := by
  simp [complete, State.emit, State.ended, hcmd, htr, hst, htu, hre]

theorem applyAll_accepted (ts : List Transfer) (s : State) (w : CmdWord) (p : Program) :
    applyAll (accepted s w p) ts = accepted (applyAll s ts) w p := by
  induction ts generalizing s with
  | nil => rfl
  | cons t ts ih =>
    have ht : t.apply (accepted s w p) = accepted (t.apply s) w p := by
      cases t with
      | loadCount c => cases c <;> rfl
      | loadTx src => cases src <;> rfl
      | _ => rfl
    simp only [applyAll, List.foldl_cons, ht] at ih ⊢
    exact ih _

/-- A command whose operation is a fault's completion only (R201). -/
theorem exec_rejected {i : Instr} {s : State} {c : Status} (hacc : Accepts s) (hop : operation s.cfg i = reject c) (hg : 0 < s.grant) :
    exec i s = .next (s.ended s (encode i) [] c none) := by
  obtain ⟨n, hn⟩ : ∃ n, s.grant = n + 1 := ⟨s.grant - 1, by omega⟩
  rw [exec_of_accepts i hacc, hn, hop]
  refine (runActions_complete n (accepted s (encode i) []) c .unchanged [] rfl).trans ?_
  have hends := complete_eq_ended (u := accepted s (encode i) []) (s := s) rfl (List.append_nil _).symm rfl rfl rfl c none
  exact congrArg _ hends

theorem exec_badAddr {i : Instr} {s : State} {a : Byte} {p : Addr → Program} (hacc : Accepts s) (hop : operation s.cfg i = checked a p)
    (ha : 64 ≤ a.toNat) (hg : 0 < s.grant) : exec i s = .next (s.ended s (encode i) [] .badAddr none) :=
  exec_rejected hacc (hop.trans (checked_of_ge ha p)) hg

theorem Config.one_le_pollBound {c : Config} {k : Nat} (hwf : c.wellFormed = true) (hk : c.pollBound = some k) : 1 ≤ k := by
  simp only [Config.wellFormed, Bool.and_eq_true] at hwf
  simpa [Config.boundOk, hk] using hwf.2

/-- A command whose operation begins with a frame, the ready wait of which is given up (R204). -/
theorem exec_frame_late {i : Instr} {s : State} {pre : List Transfer} {body rest : Program} {k : Nat} {r : List Level} (hacc : Accepts s)
    (hop : operation s.cfg i = frame pre body ++ rest) (hk : s.cfg.pollBound = some k) (hd : s.dataIn = List.replicate k true ++ r)
    (hg : k + 3 ≤ s.grant) :
    exec i s = .next (State.ended ((applyAll s pre).late k r) s (encode i) (lateEvents k) .timeout none) := by
  obtain ⟨n, hn⟩ : ∃ n, s.grant = n + (k + 3) := ⟨s.grant - (k + 3), by omega⟩
  rw [exec_of_accepts i hacc, hn, hop]
  refine (runActions_frame_late k n (accepted s (encode i) []) pre body r rest rfl hd hk (Config.one_le_pollBound hacc.2 hk)).trans ?_
  rw [applyAll_accepted]
  refine congrArg _ (complete_eq_ended (s := s) rfl rfl rfl ?_ ?_ .timeout none)
  · simp [State.late, State.turnsAfter]
  · simp [State.late]

/-- A command whose operation is `q` and a completion, `q` taking `m` actions to the state `u`. -/
theorem exec_completes {i : Instr} {s u : State} {q : Program} {res : ResultSrc} {m : Nat} (hacc : Accepts s)
    (hop : operation s.cfg i = q ++ completeOk res) (hb : u.busy = true) (hg : m + 1 ≤ s.grant)
    (hrun : ∀ n, runActions (n + m) ((accepted s (encode i) []).goto (q ++ completeOk res)) = runActions n (u.goto (completeOk res))) :
    exec i s = .next (complete u .ok (res.eval u)) := by
  obtain ⟨n, hn⟩ : ∃ n, s.grant = n + 1 + m := ⟨s.grant - (m + 1), by omega⟩
  rw [exec_of_accepts i hacc, hn, hop]
  exact (hrun (n + 1)).trans (runActions_complete n u .ok res [] hb)

/-- The completion after a frame; `cnt`, `idx` and `hb` are what a burst leaves in it, and as they were after any other frame. -/
theorem complete_framedWith (s : State) (w : CmdWord) (h : Byte) (p : Nat) (b : Byte × Byte) (l : List (Byte × Byte)) (r : List Level)
    (body : List Event) (cnt idx : Byte) (hb : Memory) (v : Option Byte) :
    complete { (accepted s w []).framedWith h p (b :: l) r body with cnt := cnt, idx := idx, hb := hb } .ok v =
      State.ended { s.framed h p (b :: l) r with cnt := cnt, idx := idx, bitcnt := 0#3, hb := hb } s w (frameEvents p body) .ok v :=
  rfl

/-! ### The frame of two bytes: WREG, RREG, RSTAT -/

theorem xfersEvents_pair (a b x y : Byte) : xfersEvents [(a, x), (b, y)] = xferEvents a x ++ xferEvents b y := by
  simp [xfersEvents]

/-- A command whose operation is, behind the operand check, a frame of two bytes (shapes W1 and R1, R92). -/
theorem exec_checkedPair {i : Instr} {s : State} {a f v : Byte} {res : ResultSrc} (hacc : Accepts s)
    (hop : operation s.cfg i = checked a fun k => frame [.loadHdr k f] (xfer .hdr ++ xfer (.imm v)) ++ completeOk res) :
    (64 ≤ a.toNat → 0 < s.grant → exec i s = .next (s.ended s (encode i) [] .badAddr none)) ∧
    (a.toNat < 64 →
      (∀ p x y r, s.dataIn = frameLevels p [x, y] ++ r → admits s.cfg p = true → p + 132 ≤ s.grant →
        ∃ j, exec i s =
          .next (State.ended { s.framed (a ||| f) p [(a ||| f, x), (v, y)] r with bitcnt := j } s (encode i)
            (frameEvents p (xferEvents (a ||| f) x ++ xferEvents v y)) .ok (res.eval { s with rxb := y }))) ∧
      (∀ k r, s.cfg.pollBound = some k → s.dataIn = List.replicate k true ++ r → k + 3 ≤ s.grant →
        exec i s = .next (State.ended { s.late k r with hdr := a ||| f } s (encode i) (lateEvents k) .timeout none))) := by
  refine ⟨exec_badAddr hacc hop, fun ha => ?_⟩
  rw [checked_of_lt ha] at hop
  rw [← controlByte_addrOf ha f]
  refine ⟨fun p x y r hd hk hg => ⟨0#3, ?_⟩, fun k r hk hd hg => exec_frame_late hacc hop hk hd hg⟩
  refine (exec_completes hacc hop rfl hg fun n => runActions_pair n p _ _ f (.imm v) v x y r _ rfl (.inl rfl) hd hk).trans ?_
  rw [xfersEvents_pair]
  have hends := complete_framedWith s (encode i) (controlByte (addrOf a) f) p (controlByte (addrOf a) f, x) [(v, y)] r
    (xferEvents (controlByte (addrOf a) f) x ++ xferEvents v y) s.cnt s.idx s.hb (res.eval { s with rxb := y })
  cases res <;> exact congrArg _ hends

/-- Settles O26: the frame has no flags. -/
theorem wreg_completes : Obligations.Wreg := by
  intro s a v hacc
  have h := exec_checkedPair (i := .wreg a v) (f := 0x00#8) hacc rfl
  rw [BitVec.or_zero] at h
  exact h

/-- Settles O27: the frame of the read flag and a dummy, the byte sampled in the second transfer being the result. -/
theorem rreg_completes : Obligations.Rreg := fun _ a xn hacc => exec_checkedPair (i := .rreg a xn) hacc rfl

/-- Settles O31: as RREG, with the configured flags. -/
theorem rstat_completes : Obligations.Rstat := fun _ a xn hacc => exec_checkedPair (i := .rstat a xn) hacc rfl

/-! ### The frame of one byte: STROBE -/

/-- Settles O30: the frame of the code alone. -/
theorem strobe_completes : Obligations.Strobe := by
  intro s c xn hacc
  have hop : operation s.cfg (.strobe c xn) = checked c fun k => strobe k ++ completeOk .unchanged := rfl
  refine ⟨exec_badAddr hacc hop, fun hc => ?_⟩
  rw [checked_of_lt hc] at hop
  have hh : controlByte (addrOf c) 0x00#8 = c := (controlByte_addrOf hc _).trans BitVec.or_zero
  refine ⟨fun p x r hd hk hg => ⟨0#3, ?_⟩, fun k r hk hd hg => ?_⟩
  · refine (exec_completes hacc hop rfl hg fun n => runActions_single n p _ _ _ x r _ rfl hd hk).trans ?_
    rw [hh]
    exact congrArg _ (complete_framedWith s (encode (.strobe c xn)) c p (c, x) [] r (xferEvents c x) s.cnt s.idx s.hb none)
  · have hlate := exec_frame_late hacc hop hk hd hg
    simp only [applyAll, List.foldl, Transfer.apply, hh] at hlate
    exact hlate

/-! ### The bursts: WBURST, RBURST -/

/-- Settles O28: the frame of the control byte and the bytes of `HB`. -/
theorem wburst_completes : Obligations.Wburst := by
  intro s a n hacc
  have hop : operation s.cfg (.wburst a n) = checked a fun k => wburst k .outHb (.imm n) ++ completeOk .unchanged := rfl
  refine ⟨exec_badAddr hacc hop, fun ha => ?_⟩
  rw [checked_of_lt ha] at hop
  rw [← controlByte_addrOf ha]
  refine ⟨fun p x l r hl hm hd hk hg => ⟨n, 0#3, ?_⟩, fun k r hk hd hg => ⟨0#8, exec_frame_late hacc hop hk hd hg⟩⟩
  refine (exec_completes hacc hop rfl (by omega) fun m =>
    runActions_wburstHb m p _ _ (.imm n) x l r _ rfl hl.symm rfl hm hd hk).trans ?_
  exact congrArg _ (complete_framedWith s (encode (.wburst a n)) _ p _ l r _ n n s.hb none)

/-- Settles O29: the frame of the control byte and the dummies, the bytes sampled filling `HB`. -/
theorem rburst_completes : Obligations.Rburst := by
  intro s a n hacc
  have hop : operation s.cfg (.rburst a n) = checked a fun k => rburst k .inHb (.imm n) ++ completeOk .unchanged := rfl
  refine ⟨exec_badAddr hacc hop, fun ha => ?_⟩
  rw [checked_of_lt ha] at hop
  rw [← controlByte_addrOf ha]
  refine ⟨fun p x ins r hl hd hk hg => ⟨n, 0#3, ?_⟩, fun k r hk hd hg => ⟨0#8, exec_frame_late hacc hop hk hd hg⟩⟩
  refine (exec_completes hacc hop rfl (by omega) fun m =>
    runActions_rburstHb m p _ _ (.imm n) x ins r _ rfl hl.symm hd hk).trans ?_
  exact congrArg _ (complete_framedWith s (encode (.rburst a n)) _ p _ (ins.map (dummy, ·)) r _ n n (s.hb.fill 0 ins) none)

/-! ### The buffer after a burst -/

theorem Memory.Holds.read {m : Memory} {i : Nat} {ds : List Byte} (h : m.Holds i ds) (k : Nat) (hk : k < ds.length) :
    m.read (i + k) = some ds[k] := by
  induction ds generalizing i k with
  | nil => cases hk
  | cons d ds ih =>
    obtain ⟨hd, hds⟩ := h
    cases k with
    | zero => exact hd
    | succ k =>
      rw [List.getElem_cons_succ, ← ih hds k (Nat.lt_of_succ_lt_succ hk)]
      congr 1
      omega

/-- Settles O48: an index below the number of bytes holds its byte, one above is not written. -/
theorem hbFill : Obligations.HbFill := by
  intro m ds k
  split
  · next hk => simpa using (Memory.fill_holds ds m 0).read k hk
  · next hk => exact Memory.read_fill_above ds m 0 k (by omega)

end Sys2Proof.Machine
end

section
/-! The lifecycle family: RESET (R161, R162) and CONFIGURE (R165 to R167). RESET is its pulse, its bare transfer and two waits, each met or given
up. CONFIGURE is a walk of three tables and a burst: `State.configured` is the state in which the single writes `sent` have been made, and each
lemma moves a turn from one such state to a later one. -/

namespace Sys2Proof.Machine

/-! ### A wait with chip-select low, and the release -/

/-- The release of chip-select and a completion: how RESET ends, and an abort with chip-select low (R161, R204). -/
theorem runActions_release (n : Nat) (s : State) (c : Status) (rest : Program) (hb : s.busy = true) :
    runActions (n + 2) (s.goto (frameEnd ++ .act [] (.complete c .unchanged) :: rest)) =
      .next (complete (setLine s .chipSelect true) c none) :=
  (runActions_setLine (n + 1) s .chipSelect true _ hb).trans (runActions_complete n _ c .unchanged rest hb)

/-- A ready wait that is given up with chip-select low ends the operation (R204). -/
theorem runActions_ready_late (k n : Nat) (s : State) (r : List Level) (rest : Program) (hb : s.busy = true)
    (hcs : s.chipSelect = false) (hd : s.dataIn = List.replicate k true ++ r) (hk : s.cfg.pollBound = some k) (h1 : 1 ≤ k) :
    runActions (n + 2 + k) (s.goto (waitLine .dataIn false ++ rest)) =
      .next (complete
        { s.late k r with trace := s.trace ++ List.replicate k (.read .dataIn true) ++ [.set .chipSelect true] } .timeout none) := by
  rw [runActions_waitLine_late k (n + 2) s .dataIn false r rest hb hd hk h1, hcs]
  refine (runActions_release n _ .timeout rest (by exact hb)).trans ?_
  simp [State.sampled, State.late, setLine, State.drive, State.emit]

/-! ### RESET -/

/-- The events of RESET's chip-select pulse (R161). -/
def pulseEvents : List Event :=
  [.set .chipSelect false, .delay .rstA, .set .chipSelect true, .delay .rstB, .set .chipSelect false]

/-- The byte of RESET's bare transfer, which is no frame's control byte (R161, R162). -/
def resetCode (c : Config) : Byte := controlByte c.cmdSres 0x00#8

theorem resetCode_eq (c : Config) : resetCode c = c.cmdSres.setWidth 8 := BitVec.or_zero

/-- `s` where RESET's first ready wait begins. -/
def State.pulsed (s : State) : State := { s with chipSelect := false, trace := s.trace ++ pulseEvents }

/-- `s` where RESET's second ready wait begins, the first having missed `p` samples. -/
def State.resetSent (s : State) (p : Nat) (x : Byte) (r : List Level) : State :=
  { s.transferred (resetCode s.cfg) x with
    chipSelect := false, pollcnt := p, dataIn := r,
    trace := s.trace ++ pulseEvents ++ waitEvents .dataIn false p ++ xferEvents (resetCode s.cfg) x }

/-- What RESET does after its bare transfer (R161). -/
def resetTail : Program := waitLine .dataIn false ++ (frameEnd ++ completeOk .unchanged)

theorem runActions_pulse (n : Nat) (s : State) (hb : s.busy = true) :
    runActions (n + 5) (s.goto (resetOp s.cfg)) =
      runActions n (s.pulsed.goto (waitLine .dataIn false ++ (xfer (.imm (resetCode s.cfg)) ++ resetTail))) := by
  simp only [resetOp, List.cons_append, List.nil_append, List.append_assoc]
  rw [runActions_setLine _ _ _ _ _ hb, runActions_delay _ _ _ _ (by exact hb), runActions_setLine _ _ _ _ _ (by exact hb),
    runActions_delay _ _ _ _ (by exact hb), runActions_setLine _ _ _ _ _ (by exact hb)]
  simp [setLine, State.drive, State.emit, State.pulsed, pulseEvents, resetTail, resetCode]

theorem runActions_resetSent (p n : Nat) (s : State) (x : Byte) (r : List Level) (hb : s.busy = true)
    (hd : s.dataIn = waitLevels false p ++ (msbBits x ++ r)) (hk : admits s.cfg p = true) :
    runActions (n + 1 + 64 + p + 1 + 5) (s.goto (resetOp s.cfg)) = runActions (n + 1) ((s.resetSent p x r).goto resetTail) := by
  rw [runActions_pulse _ s hb, runActions_waitLine p _ s.pulsed .dataIn false (msbBits x ++ r) _ hb hd hk,
    runActions_xfer n _ _ x r _ (by exact hb) rfl]
  simp [State.resetSent, State.pulsed, State.sampled, State.transferred, waitEvents, waitLevels, ByteSrc.eval]

theorem exec_reset {s : State} (xa xn : Byte) (hacc : Accepts s) :
    exec (.reset xa xn) s = runActions s.grant ((accepted s (encode (.reset xa xn)) []).goto (resetOp s.cfg)) :=
  exec_of_accepts _ hacc

/-- Settles O32: the pulse, then the first wait met or given up, then the second. -/
theorem reset_completes : Obligations.Reset := by
  intro s xa xn hacc
  rw [← resetCode_eq, exec_reset xa xn hacc]
  refine ⟨fun p q x r hd hp hq hg => ⟨0#3, ?_⟩, fun k r hk hd hg => ?_, fun k p x r hk hd hp hg => ⟨0#3, ?_⟩⟩
  · obtain ⟨n, hn⟩ : ∃ n, s.grant = n + 2 + q + 1 + 64 + p + 1 + 5 := ⟨s.grant - (p + q + 73), by omega⟩
    rw [hn]
    refine (runActions_resetSent p _ (accepted s _ []) x _ rfl hd hp).trans ?_
    refine (runActions_waitLine q (n + 2) ((accepted s _ []).resetSent p x _) .dataIn false r _ rfl rfl hq).trans ?_
    refine (runActions_release n _ .ok [] (by rfl)).trans ?_
    refine congrArg _ (complete_eq_ended (s := s) (by rfl) ?_ (by rfl) (by rfl) (by rfl) .ok none)
    simp [State.resetSent, State.sampled, setLine, State.drive, State.emit, pulseEvents, waitEvents, waitLevels]
  · obtain ⟨n, hn⟩ : ∃ n, s.grant = n + 2 + k + 5 := ⟨s.grant - (k + 7), by omega⟩
    rw [hn]
    refine (runActions_pulse _ (accepted s _ []) rfl).trans ?_
    refine (runActions_ready_late k n (accepted s _ []).pulsed r _ rfl rfl hd hk (Config.one_le_pollBound hacc.2 hk)).trans ?_
    refine congrArg _ (complete_eq_ended (s := s) (by rfl) ?_ (by rfl) (by rfl) (by rfl) .timeout none)
    simp [State.pulsed, pulseEvents]
  · obtain ⟨m, rfl⟩ : ∃ m, k = m + 1 := Nat.exists_eq_add_of_le' (Config.one_le_pollBound hacc.2 hk)
    obtain ⟨n, hn⟩ : ∃ n, s.grant = n + 2 + m + 1 + 64 + p + 1 + 5 := ⟨s.grant - (p + (m + 1) + 72), by omega⟩
    rw [hn]
    refine (runActions_resetSent p _ (accepted s _ []) x _ rfl hd hp).trans ?_
    refine (runActions_ready_late (m + 1) n ((accepted s _ []).resetSent p x _) r _ rfl rfl rfl hk (by omega)).trans ?_
    refine congrArg _ (complete_eq_ended (s := s) (by rfl) ?_ (by rfl) (by rfl) (by rfl) .timeout none)
    simp [State.resetSent, pulseEvents]

/-! ### The configuration CONFIGURE reads -/

/-- What R8 asks of the tables. -/
theorem Config.wellFormed_tables {c : Config} (h : c.wellFormed = true) :
    c.cfgPre.length + c.cfgPost.length = 24 ∧ c.paTable.length = 8 ∧ (∀ b ∈ c.bandTable, b.freq.length = 3) ∧
      (c.bandTable.map (·.id)).Nodup := by
  simp only [Config.wellFormed, Bool.and_eq_true] at h
  obtain ⟨⟨⟨⟨⟨⟨⟨⟨-, hshared⟩, hpa⟩, hshape⟩, hids⟩, -⟩, -⟩, -⟩, -⟩ := h
  simp only [Config.bandShapeOk, Bool.and_eq_true, List.all_eq_true, beq_iff_eq] at hshape
  exact ⟨by simpa [Config.sharedLengthOk, nShared] using hshared, by simpa [Config.paLengthOk, nPaTable] using hpa, hshape.2,
    by simpa [Config.bandIdsOk] using hids⟩

theorem bandEntry_iff {c : Config} {d : Byte} {j : Fin 3} :
    c.bandTable[j.val]?.any (·.id == d) = true ↔ (c.bandTable.map (·.id))[j.val]? = some d := by
  cases h : c.bandTable[j.val]? <;> simp [h]

/-- The entry the block selects is the one with the discriminant, for no other has it (R8, R165, R166). -/
theorem bandOf_of_selects {c : Config} {d : Byte} {sel : Option (Fin 3)} {ws : List (Addr × Byte)} (hwf : c.wellFormed = true)
    (h : Selects c d sel ws) : bandOf c d = sel := by
  obtain ⟨-, -, -, hids⟩ := Config.wellFormed_tables hwf
  cases sel with
  | none =>
    refine List.find?_eq_none.2 fun j _ hj => ?_
    obtain ⟨b, hb, hd⟩ := List.mem_map.1 (List.mem_of_getElem? (bandEntry_iff.1 hj))
    exact h.2 b hb hd
  | some j =>
    obtain ⟨b, hb, hd, -⟩ := h
    have hj : (c.bandTable.map (·.id))[j.val]? = some d := by simp [hb, hd]
    rw [bandOf]
    cases hf : [0, 1, 2].find? fun i : Fin 3 => c.bandTable[i.val]?.any (·.id == d) with
    | none => exact absurd (bandEntry_iff.2 hj) (List.find?_eq_none.1 hf j (by fin_cases j <;> simp))
    | some i =>
      have hi := List.find?_some hf
      rw [bandEntry_iff] at hi
      exact congrArg some (Fin.ext ((List.getElem?_inj (List.getElem?_eq_some_iff.1 hi).1 hids).1 (hi.trans hj.symm)))

theorem bandWrites_of_selects {c : Config} {d : Byte} {sel : Option (Fin 3)} {ws : List (Addr × Byte)} (h : Selects c d sel ws) :
    bandWrites c sel = ws := by
  cases sel with
  | none => exact h.1.symm
  | some j =>
    obtain ⟨b, hb, -, rfl⟩ := h
    simp [bandWrites, hb]

/-- A CONFIGURE makes 24 single writes, and 3 more for a recognized band (R8, R165). -/
theorem tablePairs_length {c : Config} {d : Byte} {sel : Option (Fin 3)} {ws : List (Addr × Byte)} (hwf : c.wellFormed = true)
    (h : Selects c d sel ws) : (c.cfgPre ++ ws ++ c.cfgPost).length = if sel = none then 24 else 27 := by
  obtain ⟨hshared, -, hshape, -⟩ := Config.wellFormed_tables hwf
  cases sel with
  | none =>
    obtain ⟨rfl, -⟩ := h
    simpa using hshared
  | some j =>
    obtain ⟨b, hb, -, rfl⟩ := h
    have hfreq := hshape b (List.mem_of_getElem? hb)
    simp only [List.length_append, reduceCtorEq, if_false]
    omega

theorem paHolds_of_drop {c : Config} {k : Nat} {ds : List Byte} (h : c.paTable.drop k = ds) : paHolds c k ds := by
  induction ds generalizing k with
  | nil => trivial
  | cons d ds ih => exact ⟨by simpa using congrArg List.head? h, ih (by simpa using congrArg List.tail h)⟩

/-- The pairs of a table, `b` being the band selected (R165, R166). -/
def Table.entries (c : Config) (b : Option (Fin 3)) : Table → List (Addr × Byte)
  | .pre => c.cfgPre
  | .band => bandWrites c b
  | .post => c.cfgPost

/-! ### Events and levels counted -/

theorem tableEvents_append (l l' : List TableWrite) : tableEvents (l ++ l') = tableEvents l ++ tableEvents l' := List.flatMap_append

theorem tableEvents_singleton (w : TableWrite) : tableEvents [w] = frameEvents w.2.1 (xfersEvents w.transfers) := List.append_nil _

theorem tableLevels_append (l l' : List TableWrite) : tableLevels (l ++ l') = tableLevels l ++ tableLevels l' := List.flatMap_append

/-- A turn that reaches to the end of the writes `l'` behind `l`, the writes `l` apart. -/
theorem add_tableEvents_append (m : Nat) (l l' : List TableWrite) :
    m + (tableEvents (l ++ l')).length = m + (tableEvents l').length + (tableEvents l).length := by
  rw [tableEvents_append, List.length_append]
  omega

theorem frameEvents_length (p : Nat) (body : List Event) : (frameEvents p body).length = p + 3 + body.length := by
  simp only [frameEvents, waitEvents, List.length_cons, List.length_append, List.length_replicate, List.length_nil]
  omega

theorem xfersEvents_length (l : List (Byte × Byte)) : (xfersEvents l).length = 64 * l.length := by
  simp [xfersEvents, Nat.mul_comm]

theorem lateEvents_length (k : Nat) : (lateEvents k).length = k + 2 := by simp [lateEvents]

/-! ### Where a CONFIGURE stands -/

/-- Single writes leave every field but those of a frame. -/
theorem wrote_eq (s : State) (l : List TableWrite) (r : List Level) :
    s.wrote l r = { s with
      txb := (s.wrote l r).txb, rxb := (s.wrote l r).rxb, bitcnt := (s.wrote l r).bitcnt, clock := (s.wrote l r).clock,
      dataOut := (s.wrote l r).dataOut, hdr := (s.wrote l r).hdr, pollcnt := (s.wrote l r).pollcnt,
      chipSelect := (s.wrote l r).chipSelect, dataIn := r } := by
  simp only [State.wrote]
  cases l.getLast? <;> rfl

/-- `s` in a CONFIGURE that has made the single writes `sent`: the band selected is `b`, `TBLIDX` is `j`, and the environment's
remaining levels are `r` (R165). -/
def State.configured (s : State) (sent : List TableWrite) (r : List Level) (b : Option (Fin 3)) (j : Nat) : State :=
  { s.wrote sent r with opstate := .configuring, trace := s.trace ++ tableEvents sent, bandsel := b, tblidx := j }

section
variable (s : State) (sent : List TableWrite) (q r : List Level) (b : Option (Fin 3)) (j : Nat)

@[simp] theorem configured_busy : (s.configured sent r b j).busy = s.busy := by rw [State.configured, wrote_eq]
@[simp] theorem configured_cfg : (s.configured sent r b j).cfg = s.cfg := by rw [State.configured, wrote_eq]
@[simp] theorem configured_dataIn : (s.configured sent r b j).dataIn = r := by rw [State.configured, wrote_eq]
@[simp] theorem configured_trace : (s.configured sent r b j).trace = s.trace ++ tableEvents sent := rfl
@[simp] theorem configured_tblidx : (s.configured sent r b j).tblidx = j := rfl

@[simp] theorem pairs_configured (t : Table) : t.pairs (s.configured sent r b j) = t.entries s.cfg b := by
  cases t with
  | pre => exact congrArg Config.cfgPre (configured_cfg ..)
  | band => exact congrArg (bandWrites · b) (configured_cfg ..)
  | post => exact congrArg Config.cfgPost (configured_cfg ..)

theorem configured_rest : { s.configured sent q b j with dataIn := r } = s.configured sent r b j := by
  simp only [State.configured, State.wrote]
  cases sent.getLast? <;> rfl

theorem configured_select (d : Byte) :
    applyAll (s.configured sent r b j) [.selectBand d, .startTable] = s.configured sent r (bandOf s.cfg d) 0 :=
  congrArg (fun c => s.configured sent r (bandOf c d) 0) (configured_cfg ..)

/-- More single writes. -/
theorem configured_wrote (l : List TableWrite) (k : Nat) :
    { (s.configured sent q b j).wrote l r with trace := s.trace ++ tableEvents (sent ++ l), tblidx := k } =
      s.configured (sent ++ l) r b k := by
  simp only [State.configured, State.wrote, List.getLast?_append]
  cases l.getLast? <;> cases sent.getLast? <;> simp [State.framed, State.sent, TableWrite.transfers, State.transferred]

/-- A CONFIGURE just accepted in `s`, its command apart. -/
theorem configured_accepted (w : CmdWord) :
    (accepted s w []).configured sent r b j = { s.wrote sent r with
      cmd := w, busy := true, seq := [], opstate := .configuring, result := s.result, trace := s.trace ++ tableEvents sent, stale := [],
      turns := s.turnsAfter, tblidx := j, bandsel := b } := by
  simp only [State.configured, State.wrote]
  cases sent.getLast? <;> rfl

/-- `s` in a CONFIGURE after the frame with control byte `h`, given up at its wait of `k` samples, and before the completion (R204). -/
def State.configuredLate (s : State) (sent : List TableWrite) (r : List Level) (b : Option (Fin 3)) (j k : Nat) (h : Byte) : State :=
  State.late { s.configured sent r b j with hdr := h, trace := s.trace ++ tableEvents sent ++ lateEvents k } k r

end

/-! ### The walk of a table -/

section
variable {s : State} {t : Table} {sent l : List TableWrite} {r : List Level} {b : Option (Fin 3)} {j : Nat}

/-- The choice at a table entry takes its single-write frame (R165). -/
theorem runActions_table_expand (n : Nat) {w : Addr × Byte} (rest : Program) (hb : s.busy = true)
    (hw : (t.entries s.cfg b)[j]? = some w) :
    runActions (n + 1) ((s.configured sent r b j).goto (.branch [] (.table t) :: rest)) =
      runActions (n + 1) ((s.configured sent r b j).goto (wreg w.1 (.imm w.2) ++ (.branch [.nextEntry] (.table t) :: rest))) := by
  rw [runActions_expand_program n _ (.table t) (wreg w.1 (.imm w.2) ++ [.branch [.nextEntry] (.table t)]) rest (by simpa using hb)
    (by simp only [Branch.expand, configured_tblidx, pairs_configured, hw]) ⟨_, _, _, rfl⟩, List.append_assoc, List.singleton_append]

/-- One entry of a table (R165). -/
theorem runActions_table_entry (n : Nat) {w : TableWrite} (rest : Program) (hb : s.busy = true)
    (hw : (t.entries s.cfg b)[j]? = some w.1) (hk : admits s.cfg w.2.1 = true) :
    runActions (n + 1 + (w.2.1 + 131)) ((s.configured sent (tableLevels [w] ++ r) b j).goto (.branch [] (.table t) :: rest)) =
      runActions (n + 1) ((s.configured (sent ++ [w]) r b (j + 1)).goto (.branch [] (.table t) :: rest)) := by
  rw [Nat.add_right_comm, runActions_table_expand _ rest hb hw, Nat.add_right_comm, wreg,
    runActions_pair _ w.2.1 _ w.1.1 0x00#8 (.imm w.1.2) w.1.2 w.2.2.1 w.2.2.2 r _ (by simpa using hb) (.inl rfl)
      (by simp [tableLevels]) (by simpa using hk),
    runActions_branch_transfers _ _ _ _ _ (by simp [State.framedWith, State.framed, hb]),
    ← configured_wrote s sent (tableLevels [w] ++ r) r b j [w]]
  congr 2
  simp only [State.framedWith, applyAll, List.foldl, Transfer.apply, configured_trace, List.append_assoc, tableEvents_append,
    tableEvents_singleton]
  rfl

/-- The walk of a table up to the entries `more`, those before them written. -/
theorem runActions_table_prefix (l : List TableWrite) (n : Nat) {more : List (Addr × Byte)} (rest : Program) (hb : s.busy = true)
    (hp : (t.entries s.cfg b).drop j = l.map (·.1) ++ more) (hk : ∀ w ∈ l, admits s.cfg w.2.1 = true) :
    runActions (n + 1 + (tableEvents l).length) ((s.configured sent (tableLevels l ++ r) b j).goto (.branch [] (.table t) :: rest)) =
      runActions (n + 1) ((s.configured (sent ++ l) r b (j + l.length)).goto (.branch [] (.table t) :: rest)) := by
  induction l generalizing sent j n with
  | nil => simp [tableEvents, tableLevels]
  | cons w l ih =>
    have hw : (t.entries s.cfg b)[j]? = some w.1 := by simpa using congrArg List.head? hp
    have htail : (t.entries s.cfg b).drop (j + 1) = l.map (·.1) ++ more := by simpa using congrArg List.tail hp
    have hlevels : tableLevels (w :: l) ++ r = tableLevels [w] ++ (tableLevels l ++ r) := by simp [tableLevels]
    rw [← List.singleton_append, add_tableEvents_append, tableEvents_singleton, pairEvents_length, List.singleton_append, hlevels,
      Nat.add_right_comm n, runActions_table_entry _ rest hb hw (hk w (by simp)), Nat.add_right_comm,
      ih n htail fun v hv => hk v (by simp [hv])]
    simp [Nat.add_assoc, Nat.add_comm 1]

/-- The walk of a whole table (R165). -/
theorem runActions_table_whole {m : Nat} (hm : 1 ≤ m) (rest : Program) (hb : s.busy = true) (hp : l.map (·.1) = t.entries s.cfg b)
    (hk : ∀ w ∈ l, admits s.cfg w.2.1 = true) :
    runActions (m + (tableEvents l).length) ((s.configured sent (tableLevels l ++ r) b 0).goto (.branch [] (.table t) :: rest)) =
      runActions m ((s.configured (sent ++ l) r b l.length).goto rest) := by
  obtain ⟨n, rfl⟩ := Nat.exists_eq_add_of_le' hm
  rw [runActions_table l n _ t r rest (by simpa using hb) (by simp [hp]) (by simp) (by simpa using hk),
    ← configured_wrote s sent (tableLevels l ++ r) r b 0 l]
  simp [tableEvents_append]

/-- The walk of a table up to an entry whose frame is given up (R204). -/
theorem runActions_table_late (k n : Nat) {w : Addr × Byte} (rest : Program) (hb : s.busy = true)
    (hp : l.map (·.1) ++ [w] <+: t.entries s.cfg b) (hk : ∀ v ∈ l, admits s.cfg v.2.1 = true) (hbound : s.cfg.pollBound = some k)
    (h1 : 1 ≤ k) :
    runActions (n + (k + 3) + (tableEvents l).length)
        ((s.configured sent (tableLevels l ++ (List.replicate k true ++ r)) b 0).goto (.branch [] (.table t) :: rest)) =
      .next (complete (s.configuredLate (sent ++ l) r b l.length k (controlByte w.1 0x00#8)) .timeout none) := by
  obtain ⟨more, hmore⟩ := hp
  have hw : (t.entries s.cfg b)[l.length]? = some w := by simp [← hmore]
  rw [← Nat.add_assoc n k 3,
    runActions_table_prefix (more := w :: more) l (n + k + 2) rest hb (by simp [← hmore]) hk, Nat.zero_add,
    runActions_table_expand (n + k + 2) rest hb hw, wreg]
  refine (runActions_frame_late k n _ _ _ r _ (by simpa using hb) (by simp) (by simpa using hbound) h1).trans ?_
  rw [State.configuredLate, ← configured_rest s (sent ++ l) (List.replicate k true ++ r) r]
  rfl

/-- A pair of one of two tables written one after the other is a pair of the first, or the first is written and it is one of the second. -/
theorem writes_prefix_append {w : Addr × Byte} {A B : List (Addr × Byte)} (h : l.map (·.1) ++ [w] <+: A ++ B) :
    l.map (·.1) ++ [w] <+: A ∨ ∃ l₁ l₂, l = l₁ ++ l₂ ∧ l₁.map (·.1) = A ∧ l₂.map (·.1) ++ [w] <+: B := by
  obtain hA | hA := List.prefix_or_prefix_of_prefix h (List.prefix_append A B)
  · exact .inl hA
  obtain rfl | ⟨v, hv⟩ := List.prefix_concat_iff.1 hA
  · exact .inl (List.prefix_refl _)
  obtain ⟨l₁, l₂, rfl, rfl, rfl⟩ := List.map_eq_append_iff.1 hv.symm
  refine .inr ⟨l₁, l₂, rfl, rfl, ?_⟩
  rwa [List.map_append, List.append_assoc, List.prefix_append_right_inj] at h

end

/-! ### CONFIGURE, table by table -/

/-- What CONFIGURE does after its tables: the amplitude burst and the completion (R165). -/
def amplitudeTail (c : Config) : Program := wburst c.addrPaTable .outPa (.imm nPaTable) ++ completeOk .unchanged

/-- What CONFIGURE does after a table (R165). -/
def configureAfter (c : Config) (band : Byte) : Table → Program
  | .pre => .branch [.selectBand band, .startTable] (.table .band) :: .branch [.startTable] (.table .post) :: amplitudeTail c
  | .band => .branch [.startTable] (.table .post) :: amplitudeTail c
  | .post => amplitudeTail c

theorem exec_configure {s : State} (band xn : Byte) (hacc : Accepts s) :
    exec (.configure band xn) s = runActions s.grant ((accepted s (encode (.configure band xn)) []).goto (configureOp s.cfg band)) :=
  exec_of_accepts _ hacc

section
variable {s : State} {band : Byte} {sel : Option (Fin 3)} {pre mid post : List TableWrite} {r : List Level} {m : Nat}

/-- CONFIGURE at its first table. -/
theorem runActions_configure_pre (hm : 1 ≤ m) (hb : s.busy = true) :
    runActions m (s.goto (configureOp s.cfg band)) =
      runActions m ((s.configured [] s.dataIn s.bandsel 0).goto (.branch [] (.table .pre) :: configureAfter s.cfg band .pre)) := by
  obtain ⟨n, rfl⟩ := Nat.exists_eq_add_of_le' hm
  refine (runActions_branch_transfers n s [.setOpState .configuring, .startTable] (.table .pre) _ hb).trans ?_
  simp [applyAll, Transfer.apply, State.configured, State.wrote, tableEvents, configureAfter, amplitudeTail]

/-- CONFIGURE at the table of the band, the calibration pairs written. -/
theorem runActions_configure_band (hm : 1 ≤ m) (hb : s.busy = true) (hsel : bandOf s.cfg band = sel) (hpre : pre.map (·.1) = s.cfg.cfgPre)
    (hd : s.dataIn = tableLevels pre ++ r) (hk : ∀ w ∈ pre, admits s.cfg w.2.1 = true) :
    runActions (m + (tableEvents pre).length) (s.goto (configureOp s.cfg band)) =
      runActions m ((s.configured pre r sel 0).goto (.branch [] (.table .band) :: configureAfter s.cfg band .band)) := by
  rw [runActions_configure_pre (by omega) hb, hd, runActions_table_whole hm _ hb hpre hk, List.nil_append]
  obtain ⟨n, rfl⟩ := Nat.exists_eq_add_of_le' hm
  rw [configureAfter, runActions_branch_transfers _ _ _ _ _ (by simpa using hb), configured_select, hsel]
  rfl

/-- CONFIGURE at the table of shared pairs, the calibration pairs and the band's written. -/
theorem runActions_configure_post (hm : 1 ≤ m) (hb : s.busy = true) (hsel : bandOf s.cfg band = sel) (hpre : pre.map (·.1) = s.cfg.cfgPre)
    (hmid : mid.map (·.1) = bandWrites s.cfg sel) (hd : s.dataIn = tableLevels (pre ++ mid) ++ r)
    (hk : ∀ w ∈ pre ++ mid, admits s.cfg w.2.1 = true) :
    runActions (m + (tableEvents (pre ++ mid)).length) (s.goto (configureOp s.cfg band)) =
      runActions m ((s.configured (pre ++ mid) r sel 0).goto (.branch [] (.table .post) :: configureAfter s.cfg band .post)) := by
  rw [List.forall_mem_append] at hk
  rw [tableLevels_append, List.append_assoc] at hd
  rw [add_tableEvents_append, runActions_configure_band (by omega) hb hsel hpre hd hk.1, runActions_table_whole hm _ hb hmid hk.2]
  obtain ⟨n, rfl⟩ := Nat.exists_eq_add_of_le' hm
  rw [configureAfter, runActions_branch_transfers _ _ _ _ _ (by simpa using hb)]
  rfl

/-- CONFIGURE at the amplitude burst, all pairs written. -/
theorem runActions_configure_amplitude (hm : 1 ≤ m) (hb : s.busy = true) (hsel : bandOf s.cfg band = sel)
    (hpre : pre.map (·.1) = s.cfg.cfgPre) (hmid : mid.map (·.1) = bandWrites s.cfg sel) (hpost : post.map (·.1) = s.cfg.cfgPost)
    (hd : s.dataIn = tableLevels (pre ++ mid ++ post) ++ r) (hk : ∀ w ∈ pre ++ mid ++ post, admits s.cfg w.2.1 = true) :
    runActions (m + (tableEvents (pre ++ mid ++ post)).length) (s.goto (configureOp s.cfg band)) =
      runActions m ((s.configured (pre ++ mid ++ post) r sel post.length).goto (amplitudeTail s.cfg)) := by
  rw [List.forall_mem_append] at hk
  rw [tableLevels_append, List.append_assoc] at hd
  rw [add_tableEvents_append, runActions_configure_post (by omega) hb hsel hpre hmid hd hk.1, runActions_table_whole hm _ hb hpost hk.2]
  rfl

/-- CONFIGURE given up in the frame of a pair, whichever the table it stands in (R204). -/
theorem runActions_configure_late {sent : List TableWrite} {w : Addr × Byte} (k n : Nat) (hb : s.busy = true)
    (hsel : bandOf s.cfg band = sel) (hd : s.dataIn = tableLevels sent ++ (List.replicate k true ++ r))
    (hk : ∀ v ∈ sent, admits s.cfg v.2.1 = true)
    (hw : sent.map (·.1) ++ [w] <+: s.cfg.cfgPre ++ bandWrites s.cfg sel ++ s.cfg.cfgPost) (hbound : s.cfg.pollBound = some k)
    (h1 : 1 ≤ k) :
    ∃ b j, runActions (n + (k + 3) + (tableEvents sent).length) (s.goto (configureOp s.cfg band)) =
      .next (complete (s.configuredLate sent r b j k (controlByte w.1 0x00#8)) .timeout none) := by
  obtain hl | ⟨l, post, rfl, hl, hpost⟩ := writes_prefix_append hw
  · obtain hpre | ⟨pre, mid, rfl, hpre, hmid⟩ := writes_prefix_append hl
    · refine ⟨s.bandsel, sent.length, ?_⟩
      rw [runActions_configure_pre (by omega) hb, hd]
      exact runActions_table_late k n _ hb hpre hk hbound h1
    · refine ⟨sel, mid.length, ?_⟩
      rw [List.forall_mem_append] at hk
      rw [tableLevels_append, List.append_assoc] at hd
      rw [add_tableEvents_append, runActions_configure_band (by omega) hb hsel hpre hd hk.1]
      exact runActions_table_late k n _ hb hmid hk.2 hbound h1
  · obtain ⟨pre, mid, rfl, hpre, hmid⟩ := List.map_eq_append_iff.1 hl
    refine ⟨sel, post.length, ?_⟩
    rw [List.forall_mem_append] at hk
    rw [tableLevels_append, List.append_assoc] at hd
    rw [add_tableEvents_append, runActions_configure_post (by omega) hb hsel hpre hmid hd hk.1]
    exact runActions_table_late k n _ hb hpost hk.2 hbound h1

end

/-- The completion after the amplitude burst. -/
theorem complete_configured_framed (s : State) (w : CmdWord) (sent : List TableWrite) (q r : List Level) (b : Option (Fin 3)) (j p : Nat)
    (h : Byte) (c : Byte × Byte) (l : List (Byte × Byte)) (body : List Event) (cnt idx : Byte) :
    complete { ((accepted s w []).configured sent q b j).framedWith h p (c :: l) r body with cnt := cnt, idx := idx } .ok none =
      State.ended { s.framed h p (c :: l) r with cnt := cnt, idx := idx, tblidx := j, bandsel := b, bitcnt := 0#3 } s w
        (tableEvents sent ++ frameEvents p body) .ok none := by
  rw [State.configured, wrote_eq]
  simp [complete, State.emit, State.ended, State.framedWith, State.framed, State.sent, State.transferred, List.getLast?_cons, accepted]

/-- Settles O33: the three tables walked, then the amplitude burst and the completion. -/
theorem configure_completes : Obligations.Configure := by
  intro s band xn sel ws pre mid post p y l r hacc hsel hpre hmid hpost hl hd hk hp h es hg
  obtain ⟨-, hpa, -, -⟩ := Config.wellFormed_tables hacc.2
  have hlen : l.length = 8 := by rw [← hpa, ← hl, List.length_map]
  refine ⟨?_, nPaTable, post.length, 0#3, ?_⟩
  · rw [← tablePairs_length hacc.2 hsel, ← hpre, ← hmid, ← hpost]
    simp
  obtain ⟨n, hn⟩ : ∃ n, s.grant = n + 1 + (p + 67 + 64 * l.length) + (tableEvents (pre ++ mid ++ post)).length := by
    simp only [es, List.length_append, frameEvents_length, xferEvents_length, xfersEvents_length] at hg
    exact ⟨s.grant - (1 + (p + 67 + 64 * l.length) + (tableEvents (pre ++ mid ++ post)).length), by omega⟩
  rw [exec_configure band xn hacc, hn]
  refine (runActions_configure_amplitude (s := accepted s _ []) (by omega) rfl (bandOf_of_selects hacc.2 hsel) hpre
    (hmid.trans (bandWrites_of_selects hsel).symm) hpost hd hk).trans ?_
  refine (runActions_wburstPa (n + 1) p _ _ nPaTable y l r (completeOk .unchanged) (by simp) (by simp [hlen, nPaTable])
    (paHolds_of_drop (by simp [hl])) (by simp) (by simpa using hp)).trans ?_
  refine (runActions_complete n _ .ok .unchanged [] (by simp [State.framedWith, State.framed])).trans ?_
  exact congrArg _ (complete_configured_framed s _ _ _ r sel _ p h _ l _ _ _)

/-- Settles O34: a pair's frame is given up in whichever table it stands, or the burst's after all three. -/
theorem configureTimeout : Obligations.ConfigureTimeout := by
  intro s band xn sel ws sent k r hacc hsel hbound hd hk hg
  have h1 := Config.one_le_pollBound hacc.2 hbound
  have hband := bandOf_of_selects hacc.2 hsel
  obtain rfl := bandWrites_of_selects hsel
  obtain ⟨n, hn⟩ : ∃ n, s.grant = n + (k + 3) + (tableEvents sent).length := by
    rw [List.length_append, lateEvents_length] at hg
    exact ⟨s.grant - (k + 3 + (tableEvents sent).length), by omega⟩
  rw [exec_configure band xn hacc, hn]
  refine ⟨fun w hw => ?_, fun hsent => ?_⟩
  · obtain ⟨b, j, hrun⟩ := runActions_configure_late (s := accepted s (encode (.configure band xn)) []) k n rfl hband hd hk hw hbound h1
    have hcode : controlByte w.1 0x00#8 = w.1.setWidth 8 := BitVec.or_zero
    refine ⟨j, b, (s.wrote sent r).bitcnt, hrun.trans ?_⟩
    rw [hcode, State.configuredLate, configured_accepted, accepted_trace, List.append_assoc s.trace]
    rfl
  · obtain ⟨l, post, rfl, hl, hpost⟩ := List.map_eq_append_iff.1 hsent
    obtain ⟨pre, mid, rfl, hpre, hmid⟩ := List.map_eq_append_iff.1 hl
    refine ⟨0#8, post.length, (s.wrote (pre ++ mid ++ post) r).bitcnt, ?_⟩
    refine (runActions_configure_amplitude (s := accepted s _ []) (by omega) rfl hband hpre hmid hpost hd hk).trans ?_
    refine (runActions_frame_late k n _ _ _ r _ (by simp) (by simp) (by simpa using hbound) h1).trans ?_
    rw [configured_trace, accepted_trace, List.append_assoc s.trace, ← configured_rest _ _ r, configured_accepted]
    rfl

end Sys2Proof.Machine
end

section
/-! The packet family: SEND (R177 to R179), SETRX (R181, R182), CHKRX (R183, R185) and RECV (R186 to R188). An operation here is several
frames and waits one after another. `Leads` says what each of them does to a turn, and composes; `Finishes` is its last part, the completion
or a wait given up. What SEND and RECV do up to each of their frames
is a lemma of its own, which the completed run and the runs given up share. The state that `exec_of_finishes` gives is the one that the
obligations write with `ended`, by unfolding. -/

namespace Sys2Proof.Machine

/-! ### From one place of an operation to another -/

/-- `s` with the trace `t`. -/
def State.traced (s : State) (t : List Event) : State := { s with trace := t }

/-- From `s` at the places `p` a turn, whatever its trace, makes the events `es` and stands in `u` at the places `q`, if it goes on from
there. The traces of `s` and `u` themselves play no part. -/
def Leads (s : State) (p : Program) (es : List Event) (u : State) (q : Program) : Prop :=
  ∀ t n, runActions (n + 1 + es.length) ((s.traced t).goto p) = runActions (n + 1) ((u.traced (t ++ es)).goto q)

/-- From `s` at the places `p` a turn makes the events `es`, stands in `u`, and completes with code `c` and result `r`. -/
def Finishes (s : State) (p : Program) (es : List Event) (u : State) (c : Status) (r : Option Byte) : Prop :=
  ∀ t n, runActions (n + 1 + es.length) ((s.traced t).goto p) = .next (complete (u.traced (t ++ es)) c r)

section
variable {s u v : State} {p q q' : Program} {es es' : List Event} {c : Status} {r : Option Byte}

theorem Leads.trans (h : Leads s p es u q) (h' : Leads u q es' v q') : Leads s p (es ++ es') v q' := by
  intro t n
  have hn : n + 1 + (es ++ es').length = n + es'.length + 1 + es.length := by rw [List.length_append]; omega
  rw [hn, h t, Nat.add_right_comm, h' (t ++ es), List.append_assoc]

theorem Leads.finishes (h : Leads s p es u q) (h' : Finishes u q es' v c r) : Finishes s p (es ++ es') v c r := by
  intro t n
  have hn : n + 1 + (es ++ es').length = n + es'.length + 1 + es.length := by rw [List.length_append]; omega
  rw [hn, h t, Nat.add_right_comm, h' (t ++ es), List.append_assoc]

/-- The completion that an operation has come to (R12, R200). -/
theorem Leads.completes {res : ResultSrc} {rest : Program} (h : Leads s p es u (.act [] (.complete c res) :: rest)) (hb : u.busy = true) :
    Finishes s p es u c (res.eval u) := by
  intro t n
  rw [h t n, runActions_complete n (u.traced (t ++ es)) c res rest hb]
  cases res <;> rfl

/-- A command whose operation finishes within the turn granted to it. -/
theorem exec_of_finishes {i : Instr} (hacc : Accepts s) (h : Finishes (accepted s (encode i) []) (operation s.cfg i) es u c r)
    (hg : es.length < s.grant) : exec i s = .next (complete (u.traced (s.trace ++ es)) c r) := by
  obtain ⟨n, hn⟩ : ∃ n, s.grant = n + 1 + es.length := ⟨s.grant - (1 + es.length), by omega⟩
  rw [exec_of_accepts i hacc, hn]
  exact h s.trace n

end

theorem applyAll_traced (ts : List Transfer) (s : State) (t : List Event) : applyAll (s.traced t) ts = (applyAll s ts).traced t := by
  induction ts generalizing s with
  | nil => rfl
  | cons a ts ih =>
    have ha : a.apply (s.traced t) = (a.apply s).traced t := by
      cases a with
      | loadCount c => cases c <;> rfl
      | loadTx src => cases src <;> rfl
      | _ => rfl
    simp only [applyAll, List.foldl_cons, ha] at ih ⊢
    exact ih _

/-! ### Events counted -/

theorem burstOutEvents_length (k : Nat) (l : List (Byte × Byte)) : (burstOutEvents k l).length = 65 * l.length := by
  induction l generalizing k with
  | nil => rfl
  | cons b l ih =>
    simp only [burstOutEvents, List.length_cons, List.length_append, xferEvents_length, ih]
    omega

theorem burstInEvents_length (k : Nat) (l : List Byte) : (burstInEvents k l).length = 65 * l.length := by
  induction l generalizing k with
  | nil => rfl
  | cons d l ih =>
    simp only [burstInEvents, List.length_cons, List.length_append, xferEvents_length, ih]
    omega

theorem waitEvents_length (l : SensedLine) (v : Level) (p : Nat) : (waitEvents l v p).length = p + 1 := by simp [waitEvents]

theorem waitEvents_eq_map (l : SensedLine) (v : Level) (p : Nat) : waitEvents l v p = (waitLevels v p).map (.read l) := by
  simp [waitEvents, waitLevels]

/-! ### The frames (R92) -/

/-- Without flags the control byte is the address (R97). -/
theorem controlByte_zero (a : Addr) : controlByte a 0x00#8 = a.setWidth 8 := BitVec.or_zero

section
variable {s u : State} {a : Addr} {f h : Byte} {p : Nat} {r : List Level} {rest : Program}

/-- Register transfers in front of a frame may be made beforehand. -/
theorem Leads.of_transfers {ts pre : List Transfer} {body q : Program} {es : List Event} (hb : s.busy = true)
    (hlead : Leads (applyAll s ts) (frame pre body ++ rest) es u q) :
    Leads s (withTransfers ts (frame pre body) ++ rest) es u q := by
  intro t n
  rw [← hlead t n, ← applyAll_traced, Nat.add_right_comm]
  exact runActions_withTransfers _ (s.traced t) ts _ rest hb ⟨_, _, _, rfl⟩

theorem leads_single {x : Byte} (hb : s.busy = true) (hh : controlByte a f = h) (hd : s.dataIn = frameLevels p [x] ++ r)
    (hk : admits s.cfg p = true) :
    Leads s (frame [.loadHdr a f] (xfer .hdr) ++ rest) (frameEvents p (xferEvents h x)) (s.framed h p [(h, x)] r) rest := by
  subst hh
  intro t n
  have hn : (frameEvents p (xferEvents (controlByte a f) x)).length = p + 67 := by
    rw [frameEvents_length, xferEvents_length]
  rw [hn]
  exact runActions_single (n + 1) p (s.traced t) a f x r rest hb hd hk

theorem leads_pair {src : ByteSrc} {v x y : Byte} (hb : s.busy = true) (hh : controlByte a f = h)
    (hv : src = .imm v ∨ src = .len ∧ s.len = v) (hd : s.dataIn = frameLevels p [x, y] ++ r) (hk : admits s.cfg p = true) :
    Leads s (frame [.loadHdr a f] (xfer .hdr ++ xfer src) ++ rest) (frameEvents p (xferEvents h x ++ xferEvents v y))
      (s.framed h p [(h, x), (v, y)] r) rest := by
  subst hh
  intro t n
  have hn : (frameEvents p (xferEvents (controlByte a f) x ++ xferEvents v y)).length = p + 131 := by
    rw [frameEvents_length, List.length_append, xferEvents_length, xferEvents_length]
  rw [hn, ← xfersEvents_pair]
  exact runActions_pair (n + 1) p (s.traced t) a f src v x y r rest hb hv hd hk

theorem leads_wburstHb {c : CountSrc} {x : Byte} {l : List (Byte × Byte)} (hb : s.busy = true) (hh : controlByte a flagBurst = h)
    (hc : (c.eval s).toNat = l.length) (hq : s.stale = []) (hm : s.hb.Holds 0 (l.map (·.1)))
    (hd : s.dataIn = frameLevels p (x :: l.map (·.2)) ++ r) (hk : admits s.cfg p = true) :
    Leads s (wburst a .outHb c ++ rest) (frameEvents p (xferEvents h x ++ burstOutEvents 0 l))
      { s.framed h p ((h, x) :: l) r with cnt := c.eval s, idx := c.eval s } rest := by
  subst hh
  intro t n
  have hn : (frameEvents p (xferEvents (controlByte a flagBurst) x ++ burstOutEvents 0 l)).length = p + 67 + 65 * l.length := by
    rw [frameEvents_length, List.length_append, xferEvents_length, burstOutEvents_length]
    omega
  rw [hn]
  cases c <;> exact runActions_wburstHb (n + 1) p (s.traced t) a _ x l r rest hb hc hq hm hd hk

theorem leads_rburstHb {c : CountSrc} {x : Byte} {ins : List Byte} (hb : s.busy = true) (hh : controlByte a 0xC0#8 = h)
    (hc : (c.eval s).toNat = ins.length) (hd : s.dataIn = frameLevels p (x :: ins) ++ r) (hk : admits s.cfg p = true) :
    Leads s (rburst a .inHb c ++ rest) (frameEvents p (xferEvents h x ++ burstInEvents 0 ins))
      { s.framed h p ((h, x) :: ins.map (dummy, ·)) r with cnt := c.eval s, idx := c.eval s, hb := s.hb.fill 0 ins } rest := by
  subst hh
  intro t n
  have hn : (frameEvents p (xferEvents (controlByte a 0xC0#8) x ++ burstInEvents 0 ins)).length = p + 67 + 65 * ins.length := by
    rw [frameEvents_length, List.length_append, xferEvents_length, burstInEvents_length]
    omega
  rw [hn]
  cases c <;> exact runActions_rburstHb (n + 1) p (s.traced t) a _ x ins r rest hb hc hd hk

theorem leads_rburstTrailer {x y z : Byte} (hb : s.busy = true) (hh : controlByte a 0xC0#8 = h)
    (hd : s.dataIn = frameLevels p [x, y, z] ++ r) (hk : admits s.cfg p = true) :
    Leads s (rburst a .inDrain (.imm nTrailer) ++ rest) (frameEvents p (xferEvents h x ++ xferEvents dummy y ++ xferEvents dummy z))
      { s.framed h p [(h, x), (dummy, y), (dummy, z)] r with cnt := nTrailer, idx := nTrailer, drain := z } rest := by
  subst hh
  intro t n
  have hn : (frameEvents p (xferEvents (controlByte a 0xC0#8) x ++ xferEvents dummy y ++ xferEvents dummy z)).length = p + 195 := by
    simp only [frameEvents_length, List.length_append, xferEvents_length]
  have he : xferEvents (controlByte a 0xC0#8) x ++ xferEvents dummy y ++ xferEvents dummy z =
      xfersEvents [(controlByte a 0xC0#8, x), (dummy, y), (dummy, z)] := by simp [xfersEvents]
  rw [hn, he]
  exact runActions_rburstTrailer (n + 1) p (s.traced t) a x y z r rest hb hd hk

/-- A frame whose ready wait is given up (R204). -/
theorem finishes_frame_late {pre : List Transfer} {body : Program} {k : Nat} (hb : s.busy = true) (hwf : s.cfg.wellFormed = true)
    (hk : s.cfg.pollBound = some k) (hd : s.dataIn = List.replicate k true ++ r) :
    Finishes s (frame pre body ++ rest) (lateEvents k) ((applyAll s pre).late k r) .timeout none := by
  intro t n
  rw [lateEvents_length, Nat.add_right_comm n, Nat.add_assoc n]
  refine (runActions_frame_late k n (s.traced t) pre body r rest hb hd hk (Config.one_le_pollBound hwf hk)).trans ?_
  rw [applyAll_traced]
  rfl

/-- A strobe whose ready wait is given up leaves its code in `HDR` (R149, R204). -/
theorem finishes_strobe_late {k : Nat} (hb : s.busy = true) (hwf : s.cfg.wellFormed = true) (hk : s.cfg.pollBound = some k)
    (hd : s.dataIn = List.replicate k true ++ r) :
    Finishes s (strobe a ++ rest) (lateEvents k) { s.late k r with hdr := a.setWidth 8 } .timeout none := by
  rw [← controlByte_zero]
  exact finishes_frame_late hb hwf hk hd

end

/-! ### The waits on `DONE` (R124) -/

section
variable {s : State} {v : Level} {d : List Level} {rest : Program}

theorem leads_waitDone {q : Nat} (hb : s.busy = true) (hd : s.done = waitLevels v q ++ d) (hk : admits s.cfg q = true) :
    Leads s (waitLine .done v ++ rest) (waitEvents .done v q) { s with done := d, pollcnt := q } rest := by
  intro t n
  rw [waitEvents_length, waitEvents_eq_map]
  exact runActions_waitLine q (n + 1) (s.traced t) .done v d rest hb hd hk

/-- A wait that is given up with chip-select high drives no line (R204). -/
theorem finishes_waitDone_late {k : Nat} (hb : s.busy = true) (hwf : s.cfg.wellFormed = true) (hcs : s.chipSelect = true)
    (hk : s.cfg.pollBound = some k) (hd : s.done = List.replicate k (!v) ++ d) :
    Finishes s (waitLine .done v ++ rest) (List.replicate k (.read .done !v)) { s with done := d, pollcnt := k } .timeout none := by
  intro t n
  rw [List.length_replicate,
    runActions_waitLine_late k (n + 1) (s.traced t) .done v d rest hb hd hk (Config.one_le_pollBound hwf hk)]
  have habort : abort (s.traced t).chipSelect = reject .timeout := congrArg abort hcs
  rw [habort, State.sampled, List.map_replicate]
  exact runActions_complete n _ .timeout .unchanged rest hb

end

/-! ### SETRX -/

/-- Settles O37: one strobe frame, and the completion. -/
theorem setrx_completes : Obligations.Setrx := by
  intro s xa xn hacc
  refine ⟨fun p x r hd hk hg => ⟨0#3, ?_⟩, fun k r hk hd hg => ?_⟩
  · have hframe := leads_single (s := accepted s (encode (.setrx xa xn)) []) (rest := completeOk .unchanged) rfl
      (controlByte_zero s.cfg.cmdSrx) hd hk
    have hlen : (frameEvents p (xferEvents (s.cfg.cmdSrx.setWidth 8) x)).length = p + 67 := by
      rw [frameEvents_length, xferEvents_length]
    exact exec_of_finishes hacc (hframe.completes rfl) (by omega)
  · rw [← controlByte_zero]
    exact exec_frame_late (i := .setrx xa xn) hacc rfl hk hd hg

theorem checked_setWidth (a : Addr) (p : Addr → Program) : checked (a.setWidth 8) p = p a := by
  have ha := a.isLt
  have hval : (a.setWidth 8).toNat = a.toNat := by
    rw [BitVec.toNat_setWidth]
    omega
  rw [checked_of_lt (by omega)]
  refine congrArg p (BitVec.eq_of_toNat_eq ?_)
  simp only [addrOf, BitVec.extractLsb'_toNat, hval]
  omega

/-- Settles O38: the operand of the strobe is a checked one, so the two commands have the same operation. -/
theorem setrxIsStrobe : Obligations.SetrxIsStrobe := by
  intro s t xa xn xn'
  exact exec_of_same_operation (checked_setWidth s.cfg.cmdSrx fun c => strobe c ++ completeOk .unchanged).symm

/-! ### CHKRX -/

/-- CHKRX's one read of `DONE` (R183). -/
theorem leads_testDone {s : State} {b : Level} {d : List Level} (hb : s.busy = true) (hd : s.done = b :: d) :
    Leads s chkrxOp [.read .done b] { s with done := d } (chkrxTail b) := by
  intro t n
  refine runActions_act (n + 1) .testDone [] hb ?_
  simp only [perform, readLine_scripted_done (s.traced t) b d hd, List.append_nil]
  rfl

/-- Settles O39: after a low sample the completion, after a high one the wait for the fall, met or given up. -/
theorem chkrx_completes : Obligations.Chkrx := by
  intro s xa xn hacc
  have htest {b : Level} {d : List Level} (hd : s.done = b :: d) :=
    leads_testDone (s := accepted s (encode (.chkrx xa xn)) []) rfl hd
  refine ⟨fun d hd hg => ?_, fun p d hd hk hg => ?_, fun k d hcs hk hd hg => ?_⟩
  · exact exec_of_finishes hacc ((htest hd).completes rfl) hg
  · have hfall := (htest hd).trans (leads_waitDone (rest := completeOk (.imm 0x01#8)) rfl rfl hk)
    have hlen := waitEvents_length .done false p
    exact exec_of_finishes hacc (hfall.completes rfl) (by rw [List.length_append, List.length_singleton]; omega)
  · have hlate := (htest hd).finishes (finishes_waitDone_late (rest := completeOk (.imm 0x01#8)) rfl hacc.2 hcs hk rfl)
    exact exec_of_finishes hacc hlate (by rw [List.length_append, List.length_singleton, List.length_replicate]; omega)

/-! ### SEND -/

/-- SEND behind the fall of `DONE` (R179). -/
def sendFromFlush (c : Config) : Program := strobe c.cmdSftx ++ completeOk .unchanged

/-- SEND behind the start strobe (R178). -/
def sendFromRise (c : Config) : Program := waitLine .done true ++ (waitLine .done false ++ sendFromFlush c)

/-- SEND behind its payload frame (R178). -/
def sendFromStart (c : Config) : Program := strobe c.cmdStx ++ sendFromRise c

/-- SEND behind its length frame (R177). -/
def sendFromPayload (c : Config) : Program := wburst c.addrTxFifo .outHb .len ++ sendFromStart c

theorem sendOp_of_le {n : Byte} (h : n.toNat ≤ 61) (c : Config) :
    sendOp c n = withTransfers [.setOpState .sending, .lenFrom n] (wreg c.addrTxFifo .len) ++ sendFromPayload c := by
  have hlen : lengthRejected n = false := by simpa [lengthRejected, maxPkt] using h
  simp [sendOp, hlen, sendFromPayload, sendFromStart, sendFromRise, sendFromFlush]

/-- The events of SEND's length frame (R177). -/
def sendLengthEvents (c : Config) (n : Byte) (p : Nat) (x₁ x₂ : Byte) : List Event :=
  frameEvents p (xferEvents (c.addrTxFifo.setWidth 8) x₁ ++ xferEvents n x₂)

/-- The events of SEND's payload frame (R177). -/
def sendPayloadEvents (c : Config) (p : Nat) (y : Byte) (l : List (Byte × Byte)) : List Event :=
  frameEvents p (xferEvents (c.addrTxFifo.setWidth 8 ||| 0x40#8) y ++ burstOutEvents 0 l)

/-- The events of SEND's start strobe (R178). -/
def sendStartEvents (c : Config) (p : Nat) (z : Byte) : List Event := frameEvents p (xferEvents (c.cmdStx.setWidth 8) z)

/-- `s` in a SEND of `n` bytes, before its payload frame, the frame's own registers apart. -/
def State.sending (s : State) (n : Byte) : State := { s with opstate := .sending, len := n }

/-- `s` in a SEND of `n` bytes, behind its payload frame, the frames' own registers apart. -/
def State.loaded (s : State) (n : Byte) : State := { s.sending n with cnt := n, idx := n }

section
variable {s : State} {n : Byte} {p₁ p₂ p₃ : Nat} {x₁ x₂ y z : Byte} {l : List (Byte × Byte)} {r : List Level}

/-- SEND up to its payload frame (R177). -/
theorem send_leads_payload (hb : s.busy = true) (hn : n.toNat ≤ 61) (hd : s.dataIn = frameLevels p₁ [x₁, x₂] ++ r)
    (hk : admits s.cfg p₁ = true) :
    Leads s (sendOp s.cfg n) (sendLengthEvents s.cfg n p₁ x₁ x₂)
      ((s.sending n).framed (s.cfg.addrTxFifo.setWidth 8) p₁ [(s.cfg.addrTxFifo.setWidth 8, x₁), (n, x₂)] r)
      (sendFromPayload s.cfg) := by
  rw [sendOp_of_le hn]
  exact Leads.of_transfers hb (leads_pair (s := s.sending n) hb (controlByte_zero _) (.inr ⟨rfl, rfl⟩) hd hk)

/-- SEND up to its start strobe (R177). -/
theorem send_leads_start (hb : s.busy = true) (hq : s.stale = []) (hn : n.toNat ≤ 61) (hl : l.length = n.toNat)
    (hm : s.hb.Holds 0 (l.map (·.1)))
    (hd : s.dataIn = frameLevels p₁ [x₁, x₂] ++ (frameLevels p₂ (y :: l.map (·.2)) ++ r))
    (hk₁ : admits s.cfg p₁ = true) (hk₂ : admits s.cfg p₂ = true) :
    Leads s (sendOp s.cfg n) (sendLengthEvents s.cfg n p₁ x₁ x₂ ++ sendPayloadEvents s.cfg p₂ y l)
      ((s.loaded n).framed (s.cfg.addrTxFifo.setWidth 8 ||| 0x40#8) p₂ ((s.cfg.addrTxFifo.setWidth 8 ||| 0x40#8, y) :: l) r)
      (sendFromStart s.cfg) :=
  (send_leads_payload hb hn hd hk₁).trans (leads_wburstHb (c := .len) hb rfl hl.symm hq hm rfl hk₂)

/-- SEND up to its waits on `DONE` (R178). -/
theorem send_leads_rise (hb : s.busy = true) (hq : s.stale = []) (hn : n.toNat ≤ 61) (hl : l.length = n.toNat)
    (hm : s.hb.Holds 0 (l.map (·.1)))
    (hd : s.dataIn = frameLevels p₁ [x₁, x₂] ++ (frameLevels p₂ (y :: l.map (·.2)) ++ (frameLevels p₃ [z] ++ r)))
    (hk₁ : admits s.cfg p₁ = true) (hk₂ : admits s.cfg p₂ = true) (hk₃ : admits s.cfg p₃ = true) :
    Leads s (sendOp s.cfg n)
      (sendLengthEvents s.cfg n p₁ x₁ x₂ ++ sendPayloadEvents s.cfg p₂ y l ++ sendStartEvents s.cfg p₃ z)
      ((s.loaded n).framed (s.cfg.cmdStx.setWidth 8) p₃ [(s.cfg.cmdStx.setWidth 8, z)] r) (sendFromRise s.cfg) :=
  (send_leads_start hb hq hn hl hm hd hk₁ hk₂).trans (leads_single hb (controlByte_zero _) rfl hk₃)

end

/-- Settles O35: the frames of the length, the payload and the start, the two waits, and the flush. -/
theorem send_completes : Obligations.Send := by
  intro s xa n p₁ p₂ p₃ p₄ q₁ q₂ x₁ x₂ y z u l r d hacc hn hl hm hd hdone hk fifo stx sftx es hg
  simp only [List.forall_mem_cons] at hk
  obtain ⟨hk₁, hk₂, hk₃, hk₄, hq₁, hq₂, -⟩ := hk
  have hstart := send_leads_rise (s := accepted s (encode (.send xa n)) []) rfl rfl hn hl hm hd hk₁ hk₂ hk₃
  have hrise := hstart.trans (leads_waitDone rfl hdone hq₁)
  have hfall := hrise.trans (leads_waitDone rfl rfl hq₂)
  have hflush := hfall.trans (leads_single (rest := completeOk .unchanged) rfl (controlByte_zero s.cfg.cmdSftx) rfl hk₄)
  exact ⟨n, 0#3, exec_of_finishes hacc (hflush.completes rfl) hg⟩

/-- Settles O36: each wait is given up behind the frames and waits before it. -/
theorem sendTimeout : Obligations.SendTimeout := by
  intro s xa n k p₁ p₂ p₃ q₁ q₂ x₁ x₂ y z l r d hacc hn hk fifo stx sftx w lengthFrame payloadFrame startFrame payload late
  refine ⟨fun hd hg => ?_, fun hd hk₁ hg => ⟨0#8, 0#3, ?_⟩, fun hd ⟨hl, hm⟩ hks hg => ⟨n, 0#3, ?_⟩, fun hd ⟨hl, hm⟩ hks => ?_⟩
  · have hop : operation s.cfg (.send xa n) =
        frame [.setOpState .sending, .lenFrom n, .loadHdr s.cfg.addrTxFifo 0x00#8] (xfer .hdr ++ xfer .len) ++
          sendFromPayload s.cfg := sendOp_of_le hn s.cfg
    have hlate := exec_frame_late hacc hop hk hd hg
    simp only [applyAll, List.foldl, Transfer.apply, controlByte_zero] at hlate
    exact hlate
  · have hlength := send_leads_payload (s := accepted s w []) rfl hn hd hk₁
    exact exec_of_finishes hacc (hlength.finishes (finishes_frame_late rfl hacc.2 hk rfl)) hg
  · simp only [List.forall_mem_cons] at hks
    obtain ⟨hk₁, hk₂, -⟩ := hks
    have hpayload := send_leads_start (s := accepted s w []) rfl rfl hn hl hm hd hk₁ hk₂
    exact exec_of_finishes hacc (hpayload.finishes (finishes_strobe_late rfl hacc.2 hk rfl)) hg
  · simp only [List.forall_mem_cons] at hks
    obtain ⟨hk₁, hk₂, hk₃, -⟩ := hks
    have hstart := send_leads_rise (s := accepted s w []) rfl rfl hn hl hm hd hk₁ hk₂ hk₃
    refine ⟨?_, ?_, ?_⟩
    · intro hdone es hg
      exact ⟨n, 0#3, exec_of_finishes hacc (hstart.finishes (finishes_waitDone_late rfl hacc.2 rfl hk hdone)) hg⟩
    · intro hdone hq₁ es hg
      have hrise := hstart.trans (leads_waitDone rfl hdone hq₁)
      exact ⟨n, 0#3, exec_of_finishes hacc (hrise.finishes (finishes_waitDone_late rfl hacc.2 rfl hk rfl)) hg⟩
    · intro r' hr hdone hq₁ hq₂ es hg
      have hrise := hstart.trans (leads_waitDone rfl hdone hq₁)
      have hfall := hrise.trans (leads_waitDone rfl rfl hq₂)
      exact ⟨n, 0#3, exec_of_finishes hacc (hfall.finishes (finishes_strobe_late rfl hacc.2 hk hr)) hg⟩

/-! ### RECV -/

/-- RECV behind its trailer, a byte having been queued (R186). -/
def recvFromFlush (c : Config) : Program := strobe c.cmdSfrx ++ completeOk .len

/-- RECV behind its payload (R186). -/
def recvFromTrailer (c : Config) : Program := rburst c.addrRxFifo .inDrain (.imm nTrailer) ++ recvFromFlush c

/-- RECV behind its length frame (R186). -/
def recvFromPayload (c : Config) : Program :=
  withTransfers [.lenFromRxb] (rburst c.addrRxFifo .inHb .len) ++ recvFromTrailer c

theorem recvTail_queued (c : Config) : recvTail c true = rreg c.addrRxFifo ++ recvFromPayload c := by
  simp [recvTail, recvFromPayload, recvFromTrailer, recvFromFlush]

/-- RECV's count test, and what it chooses (R186). -/
theorem leads_received {s : State} (hb : s.busy = true) :
    Leads s [.branch [.rxcFromRxb] .received] [] { s with rxc := s.rxb } (recvTail s.cfg (bytesQueued s.cfg s.rxb)) := by
  intro t n
  have hact : ∃ pre a ms, recvTail s.cfg (bytesQueued s.cfg s.rxb) = .act pre a :: ms := by
    cases bytesQueued s.cfg s.rxb
    · exact ⟨_, _, _, rfl⟩
    · exact ⟨_, _, _, rfl⟩
  refine (runActions_branch_transfers n (s.traced t) _ _ _ hb).trans ?_
  refine (runActions_expand_program n (applyAll (s.traced t) [.rxcFromRxb]) .received _ [] hb rfl hact).trans ?_
  rw [List.append_nil, List.append_nil]
  rfl

/-- The control byte of RECV's count frame (R150, R186). -/
def countByte (c : Config) : Byte := c.addrRxBytes.setWidth 8 ||| c.statusModeFlags

/-- The control byte of a read of RECV's FIFO with the flags `f` (R146, R148, R186). -/
def rxFifoByte (c : Config) (f : Byte) : Byte := c.addrRxFifo.setWidth 8 ||| f

/-- The events of RECV's count frame (R186). -/
def recvCountEvents (c : Config) (p : Nat) (y x : Byte) : List Event :=
  frameEvents p (xferEvents (countByte c) y ++ xferEvents 0#8 x)

/-- The events of RECV's length frame (R186). -/
def recvLengthEvents (c : Config) (p : Nat) (y x : Byte) : List Event :=
  frameEvents p (xferEvents (rxFifoByte c 0x80#8) y ++ xferEvents 0#8 x)

/-- The events of RECV's payload frame (R186). -/
def recvPayloadEvents (c : Config) (p : Nat) (y : Byte) (ins : List Byte) : List Event :=
  frameEvents p (xferEvents (rxFifoByte c 0xC0#8) y ++ burstInEvents 0 ins)

/-- The events of RECV's trailer frame (R186). -/
def recvTrailerEvents (c : Config) (p : Nat) (y t₁ t₂ : Byte) : List Event :=
  frameEvents p (xferEvents (rxFifoByte c 0xC0#8) y ++ xferEvents 0#8 t₁ ++ xferEvents 0#8 t₂)

/-- `s` in a RECV with the count byte `x`, before its payload frame, the frames' own registers apart. -/
def State.counted (s : State) (x : Byte) : State := { s with opstate := .receiving, rxc := x }

/-- `s` in a RECV with the count byte `x`, behind its payload frame of `n` bytes, the frames' own registers apart. -/
def State.received (s : State) (x n : Byte) (ins : List Byte) : State :=
  { s.counted x with len := n, cnt := n, idx := n, hb := s.hb.fill 0 ins }

/-- `s` in a RECV behind its trailer, the last byte of which is `t`. -/
def State.drained (s : State) (x n : Byte) (ins : List Byte) (t : Byte) : State :=
  { s.received x n ins with cnt := nTrailer, idx := nTrailer, drain := t }

section
variable {s : State} {p₁ p₂ p₃ p₄ : Nat} {y₁ x₁ y₂ x₂ y₃ y₄ t₁ t₂ : Byte} {ins : List Byte} {r : List Level}

/-- RECV up to what its count test chooses (R186). -/
theorem recv_leads_tail (hb : s.busy = true) (hd : s.dataIn = frameLevels p₁ [y₁, x₁] ++ r) (hk₁ : admits s.cfg p₁ = true) :
    Leads s (recvOp s.cfg) (recvCountEvents s.cfg p₁ y₁ x₁)
      ((s.counted x₁).framed (countByte s.cfg) p₁ [(countByte s.cfg, y₁), (0#8, x₁)] r)
      (recvTail s.cfg (bytesQueued s.cfg x₁)) := by
  have hframe := leads_pair (s := applyAll s [.setOpState .receiving]) (src := .imm dummy)
    (rest := [.branch [.rxcFromRxb] .received]) hb (show _ = countByte s.cfg from rfl) (.inl rfl) hd hk₁
  have htest := (Leads.of_transfers hb hframe).trans (leads_received hb)
  rwa [List.append_nil] at htest

/-- RECV up to its length frame, a byte being queued (R186). -/
theorem recv_leads_length (hb : s.busy = true) (hx : x₁ &&& s.cfg.rxBytesMask ≠ 0#8)
    (hd : s.dataIn = frameLevels p₁ [y₁, x₁] ++ r) (hk₁ : admits s.cfg p₁ = true) :
    Leads s (recvOp s.cfg) (recvCountEvents s.cfg p₁ y₁ x₁)
      ((s.counted x₁).framed (countByte s.cfg) p₁ [(countByte s.cfg, y₁), (0#8, x₁)] r)
      (rreg s.cfg.addrRxFifo ++ recvFromPayload s.cfg) := by
  have htail := recv_leads_tail hb hd hk₁
  rwa [show bytesQueued s.cfg x₁ = true from bne_iff_ne.2 hx, recvTail_queued] at htail

/-- RECV up to its flush, nothing being queued (R186). -/
theorem recv_leads_emptyFlush (hb : s.busy = true) (hx : x₁ &&& s.cfg.rxBytesMask = 0#8)
    (hd : s.dataIn = frameLevels p₁ [y₁, x₁] ++ r) (hk₁ : admits s.cfg p₁ = true) :
    Leads s (recvOp s.cfg) (recvCountEvents s.cfg p₁ y₁ x₁)
      ((s.counted x₁).framed (countByte s.cfg) p₁ [(countByte s.cfg, y₁), (0#8, x₁)] r)
      (strobe s.cfg.cmdSfrx ++ completeOk (.imm 0x00#8)) := by
  have htail := recv_leads_tail hb hd hk₁
  rwa [show bytesQueued s.cfg x₁ = false from bne_eq_false_iff_eq.2 hx] at htail

/-- RECV up to its payload frame (R186). -/
theorem recv_leads_payload (hb : s.busy = true) (hx : x₁ &&& s.cfg.rxBytesMask ≠ 0#8)
    (hd : s.dataIn = frameLevels p₁ [y₁, x₁] ++ (frameLevels p₂ [y₂, x₂] ++ r))
    (hk₁ : admits s.cfg p₁ = true) (hk₂ : admits s.cfg p₂ = true) :
    Leads s (recvOp s.cfg) (recvCountEvents s.cfg p₁ y₁ x₁ ++ recvLengthEvents s.cfg p₂ y₂ x₂)
      ((s.counted x₁).framed (rxFifoByte s.cfg 0x80#8) p₂ [(rxFifoByte s.cfg 0x80#8, y₂), (0#8, x₂)] r)
      (recvFromPayload s.cfg) :=
  (recv_leads_length hb hx hd hk₁).trans (leads_pair hb rfl (.inl rfl) rfl hk₂)

/-- RECV up to its trailer frame (R186). -/
theorem recv_leads_trailer (hb : s.busy = true) (hx : x₁ &&& s.cfg.rxBytesMask ≠ 0#8) (hl : ins.length = x₂.toNat)
    (hd : s.dataIn = frameLevels p₁ [y₁, x₁] ++ (frameLevels p₂ [y₂, x₂] ++ (frameLevels p₃ (y₃ :: ins) ++ r)))
    (hk₁ : admits s.cfg p₁ = true) (hk₂ : admits s.cfg p₂ = true) (hk₃ : admits s.cfg p₃ = true) :
    Leads s (recvOp s.cfg)
      (recvCountEvents s.cfg p₁ y₁ x₁ ++ recvLengthEvents s.cfg p₂ y₂ x₂ ++ recvPayloadEvents s.cfg p₃ y₃ ins)
      ((s.received x₁ x₂ ins).framed (rxFifoByte s.cfg 0xC0#8) p₃ ((rxFifoByte s.cfg 0xC0#8, y₃) :: ins.map (0#8, ·)) r)
      (recvFromTrailer s.cfg) :=
  (recv_leads_payload hb hx hd hk₁ hk₂).trans
    (Leads.of_transfers hb (leads_rburstHb (c := .len) hb rfl hl.symm rfl hk₃))

/-- RECV up to its flush, a byte having been queued (R186). -/
theorem recv_leads_flush (hb : s.busy = true) (hx : x₁ &&& s.cfg.rxBytesMask ≠ 0#8) (hl : ins.length = x₂.toNat)
    (hd : s.dataIn = frameLevels p₁ [y₁, x₁] ++ (frameLevels p₂ [y₂, x₂] ++ (frameLevels p₃ (y₃ :: ins) ++
      (frameLevels p₄ [y₄, t₁, t₂] ++ r))))
    (hk₁ : admits s.cfg p₁ = true) (hk₂ : admits s.cfg p₂ = true) (hk₃ : admits s.cfg p₃ = true) (hk₄ : admits s.cfg p₄ = true) :
    Leads s (recvOp s.cfg)
      (recvCountEvents s.cfg p₁ y₁ x₁ ++ recvLengthEvents s.cfg p₂ y₂ x₂ ++ recvPayloadEvents s.cfg p₃ y₃ ins ++
        recvTrailerEvents s.cfg p₄ y₄ t₁ t₂)
      ((s.drained x₁ x₂ ins t₂).framed (rxFifoByte s.cfg 0xC0#8) p₄ [(rxFifoByte s.cfg 0xC0#8, y₄), (0#8, t₁), (0#8, t₂)] r)
      (recvFromFlush s.cfg) :=
  (recv_leads_trailer hb hx hl hd hk₁ hk₂ hk₃).trans (leads_rburstTrailer hb rfl rfl hk₄)

end

/-- Settles O40: the frames of the count, the length, the payload and the trailer, and the flush. -/
theorem recvQueued : Obligations.RecvQueued := by
  intro s xa xn p₁ p₂ p₃ p₄ p₅ y₁ x₁ y₂ x₂ y₃ y₄ t₁ t₂ y₅ ins r hacc hx hl hd hk count fifo sfrx es hg
  simp only [List.forall_mem_cons] at hk
  obtain ⟨hk₁, hk₂, hk₃, hk₄, hk₅, -⟩ := hk
  have htrailer := recv_leads_flush (s := accepted s (encode (.recv xa xn)) []) rfl hx hl hd hk₁ hk₂ hk₃ hk₄
  have hflush := htrailer.trans (leads_single (rest := completeOk .len) rfl (controlByte_zero s.cfg.cmdSfrx) rfl hk₅)
  exact ⟨2#8, 0#3, exec_of_finishes hacc (hflush.completes rfl) hg⟩

/-- Settles O41: the count frame, and the flush. -/
theorem recvEmpty : Obligations.RecvEmpty := by
  intro s xa xn p₁ p₂ y₁ x₁ y₂ r hacc hx hd hk₁ hk₂ hg count sfrx
  have hcount := recv_leads_emptyFlush (s := accepted s (encode (.recv xa xn)) []) rfl hx hd hk₁
  have hflush := hcount.trans (leads_single rfl (controlByte_zero s.cfg.cmdSfrx) rfl hk₂)
  refine ⟨0#3, exec_of_finishes hacc (hflush.completes rfl) ?_⟩
  simp only [recvCountEvents, List.length_append, frameEvents_length, xferEvents_length]
  omega

/-- Settles O53: each frame's wait is given up behind the frames before it; the second may be the length's or, with nothing queued, the
flush's. -/
theorem recvTimeout : Obligations.RecvTimeout := by
  intro s xa xn k p₁ p₂ p₃ p₄ y₁ x₁ y₂ x₂ y₃ y₄ t₁ t₂ ins r hacc hk count fifo sfrx w countFrame lengthFrame payloadFrame
    trailerFrame late
  refine ⟨fun hd hg => ?_, fun hd hk₁ hg => ⟨0#3, ?_⟩, fun hx hd hks hg => ⟨0#8, 0#3, ?_⟩, ?_⟩
  · exact exec_frame_late (i := .recv xa xn) (pre := [.setOpState .receiving, .loadHdr s.cfg.addrRxBytes s.cfg.statusModeFlags])
      (body := xfer .hdr ++ xfer (.imm dummy)) hacc rfl hk hd hg
  · by_cases hx : x₁ &&& s.cfg.rxBytesMask = 0#8
    · have hcount := recv_leads_emptyFlush (s := accepted s w []) rfl hx hd hk₁
      rw [if_pos hx]
      exact exec_of_finishes hacc (hcount.finishes (finishes_strobe_late rfl hacc.2 hk rfl)) hg
    · have hcount := recv_leads_length (s := accepted s w []) rfl hx hd hk₁
      rw [if_neg hx]
      exact exec_of_finishes hacc (hcount.finishes (finishes_frame_late rfl hacc.2 hk rfl)) hg
  · simp only [List.forall_mem_cons] at hks
    obtain ⟨hk₁, hk₂, -⟩ := hks
    have hlength := recv_leads_payload (s := accepted s w []) rfl hx hd hk₁ hk₂
    exact exec_of_finishes hacc (hlength.finishes (finishes_frame_late rfl hacc.2 hk rfl)) hg
  · intro hx hl hd hks es hg
    simp only [List.forall_mem_cons] at hks
    obtain ⟨hk₁, hk₂, hk₃, hk₄, -⟩ := hks
    have htrailer := recv_leads_flush (s := accepted s w []) rfl hx hl hd hk₁ hk₂ hk₃ hk₄
    exact ⟨2#8, 0#3, exec_of_finishes hacc (htrailer.finishes (finishes_strobe_late rfl hacc.2 hk rfl)) hg⟩

end Sys2Proof.Machine
end

section
/-! Exceptional ends: the one way an operation ends (R200), the three operand faults (R201), a RECV given up in its trailer's frame (R204),
and the absence of `TIMEOUT` where waits are unbounded (R212). -/

namespace Sys2Proof.Machine

/-! ### The completion -/

/-- Settles O14: the step performs the completion, whatever the state after the register transfers that go with it. -/
theorem completeAction : Obligations.CompleteAction :=
  fun _ _ _ _ _ => step_controllerAt

/-! ### The operand faults -/

/-- A command that ends without a line event in an idle block that is at rest leaves every field but `CMD`, `STATUS`, `TRACE` and the
model's own lists. -/
theorem ended_of_idle {s : State} (hidle : s.busy = false) (hop : s.opstate = .idle) (hseq : s.seq = []) (w : CmdWord) (c : Status) :
    s.ended s w [] c none =
      { s with cmd := w, status := c, trace := s.trace ++ [.complete c none], stale := [], turns := s.turnsAfter } := by
  simp [State.ended, hidle, hop, hseq]

/-- Settles O22: the operation is the fault's completion only, in front of any action (R201). -/
theorem operandFaults : Obligations.OperandFaults := by
  intro s hacc hop hseq hg rejected
  have hends (w : CmdWord) (c : Status) := ended_of_idle hacc.1 hop hseq w c
  have hrej {i : Instr} {c : Status} (hi : operation s.cfg i = reject c) : exec i s = rejected i c :=
    (exec_rejected hacc hi hg).trans (congrArg _ (hends _ c))
  refine ⟨fun a n ha => ?_, fun a n hn => hrej (if_pos (decide_eq_true hn)), fun s' w e hm hidle he => ?_⟩
  · have hbad : badAddr a = true := bne_iff_ne.2 ha
    exact ⟨hrej (if_pos hbad), hrej (if_pos hbad), hrej (if_pos hbad), hrej (if_pos hbad), hrej (if_pos hbad), hrej (if_pos hbad)⟩
  · obtain ⟨-, hillegal⟩ := stepRunsCommand s' s w hidle hm
    exact ((hillegal e he hacc.2).1 hg).trans (congrArg _ (hends _ _))

/-! ### RECV given up in the trailer's frame -/

/-- Settles O42: the trailer's ready wait is given up behind the frames of the count, the length and the payload (R204). -/
theorem recvTrailerTimeout : Obligations.RecvTrailerTimeout := by
  intro s xa xn p₁ p₂ p₃ k y₁ x₁ y₂ x₂ y₃ ins r hacc hx hl hk hd hks count fifo es hg
  simp only [List.forall_mem_cons] at hks
  obtain ⟨hk₁, hk₂, hk₃, -⟩ := hks
  have hpayload := recv_leads_trailer (s := accepted s (encode (.recv xa xn)) []) rfl hx hl hd hk₁ hk₂ hk₃
  exact ⟨0#8, 0#3, exec_of_finishes hacc (hpayload.finishes (finishes_frame_late rfl hacc.2 hk rfl)) hg⟩

/-! ### Programs without a `TIMEOUT` -/

/-- No place of the program completes with `TIMEOUT`. -/
def noTimeout (p : Program) : Bool := p.all Micro.noTimeout

@[simp] theorem noTimeout_cons (m : Micro) (p : Program) : noTimeout (m :: p) = (m.noTimeout && noTimeout p) := rfl
@[simp] theorem noTimeout_append (p q : Program) : noTimeout (p ++ q) = (noTimeout p && noTimeout q) := List.all_append

theorem noTimeout_cons_iff {m : Micro} {p : Program} : noTimeout (m :: p) = true ↔ m.noTimeout = true ∧ noTimeout p = true := by
  rw [noTimeout_cons, Bool.and_eq_true_iff]

/-- The sequencer's part of `NoTimeoutInv`. -/
theorem noTimeout_iff (p : Program) : noTimeout p = true ↔ ∀ m ∈ p, m.noTimeout = true := List.all_eq_true

theorem noTimeout_checked (a : Byte) {p : Addr → Program} (h : ∀ k, noTimeout (p k) = true) : noTimeout (checked a p) = true := by
  unfold checked
  split
  · rfl
  · exact h _

/-- The operation of a command has no `TIMEOUT` of its own: only an abort brings one (R204). -/
theorem noTimeout_operation (c : Config) (i : Instr) : noTimeout (operation c i) = true := by
  cases i with
  | xfer | reset | configure | setrx | chkrx | recv => rfl
  | wreg | rreg | wburst | rburst | strobe | rstat =>
    simp only [operation, wregOp, rregOp, wburstOp, rburstOp, strobeOp, rstatOp]
    exact noTimeout_checked _ fun _ => rfl
  | send _ n =>
    simp only [operation, sendOp]
    split <;> rfl

theorem noTimeout_operationOf (c : Config) (w : CmdWord) : noTimeout (operationOf c w) = true := by
  unfold operationOf
  split
  · exact noTimeout_operation c _
  · rfl

/-- No choice puts a `TIMEOUT` in front. -/
theorem noTimeout_expand (s : State) (b : Branch) : noTimeout (b.expand s) = true := by
  cases b with
  | moreBits =>
    simp only [Branch.expand]
    split <;> rfl
  | burst k =>
    simp only [Branch.expand]
    split
    · split
      · cases k <;> rfl
      · rfl
    · rfl
  | table t =>
    simp only [Branch.expand]
    split <;> rfl
  | received =>
    simp only [Branch.expand]
    cases bytesQueued s.cfg s.rxc <;> rfl

/-! ### Unbounded waits along actions and steps -/

/-- An unbounded wait is not given up (R124). -/
theorem perform_waitLine_unbounded {s t : State} {l : SensedLine} {v : Level} {rest : Program} (hk : s.cfg.pollBound = none)
    (h : perform s (.waitLine l v) rest = .next t) : t.seq = rest ∨ t.seq = .act [] (.waitLine l v) :: rest := by
  cases h
  simp only [waitSample, boundReached, hk]
  split
  · exact .inl rfl
  · exact .inr rfl

/-- With unbounded waits an action puts no `TIMEOUT` in front of what stood behind it. -/
theorem perform_noTimeout {s t : State} {pre : List Transfer} {a : Act} {rest : Program} (hk : s.cfg.pollBound = none)
    (hp : noTimeout (.act pre a :: rest) = true) (h : perform s a rest = .next t) : noTimeout t.seq = true := by
  obtain ⟨-, hrest⟩ := noTimeout_cons_iff.1 hp
  cases a with
  | waitLine =>
    obtain hs | hs := perform_waitLine_unbounded hk h
    · rwa [hs]
    · rw [hs]; exact noTimeout_cons_iff.2 ⟨rfl, hrest⟩
  | testDone =>
    cases h
    rw [goto_seq, noTimeout_append, hrest]
    cases (readLine s .done).1 <;> rfl
  | complete => cases h; rfl
  | memRead => obtain ⟨d, k, rfl⟩ := perform_memRead h; exact hrest
  | setLine | driveBit | sampleBit | delay | memWrite => cases h; exact hrest

/-- `STATUS` is written by the completion only, with its code (R35). -/
theorem perform_status {s t : State} {a : Act} {rest : Program} (h : perform s a rest = .next t) :
    t.status = s.status ∨ ∃ r, a = .complete t.status r := by
  cases a with
  | complete c r => cases h; exact .inr ⟨r, rfl⟩
  | memRead => obtain ⟨d, k, rfl⟩ := perform_memRead h; exact .inl rfl
  | waitLine => obtain ⟨k, q, rfl, -⟩ := perform_waitLine h; simp
  | setLine | driveBit | sampleBit | delay | testDone | memWrite => cases h; simp [setLine]

/-- What `NoTimeoutInv` says of a state, the places still to perform being `p`. -/
def NoTimeoutAhead (s : State) (p : Program) : Prop := s.cfg.pollBound = none ∧ s.status ≠ .timeout ∧ noTimeout p = true

theorem noTimeoutInv_iff (s : State) : NoTimeoutInv s ↔ NoTimeoutAhead s s.seq := by
  simp only [NoTimeoutInv, NoTimeoutAhead, noTimeout_iff]

theorem carries_noTimeout : Carries NoTimeoutAhead NoTimeoutInv where
  choice {s pre b rest} h := by
    obtain ⟨hk, hst, hp⟩ := h
    obtain ⟨-, hrest⟩ := noTimeout_cons_iff.1 hp
    exact ⟨by simpa using hk, by simpa using hst, by rw [noTimeout_append, noTimeout_expand, hrest]; rfl⟩
  action {s t pre a rest} _ h hn := by
    obtain ⟨hk, hst, hp⟩ := h
    have hk' : (applyAll s pre).cfg.pollBound = none := by simpa using hk
    obtain ⟨⟨-, hcfg, -⟩, -⟩ := perform_fixed hn
    refine (noTimeoutInv_iff t).2 ⟨by rw [hcfg]; exact hk', ?_, perform_noTimeout hk' hp hn⟩
    obtain hkept | ⟨r, rfl⟩ := perform_status hn
    · rw [hkept]; simpa using hst
    · exact bne_iff_ne.1 (noTimeout_cons_iff.1 hp).1
  again _ h := (noTimeoutInv_iff _).1 h

/-- A turn keeps the invariant. -/
theorem runActions_noTimeout (n : Nat) {s t : State} (h : NoTimeoutInv s) (hn : runActions n s = .next t) : NoTimeoutInv t := by
  obtain ht | ⟨rfl, -⟩ := carries_noTimeout.runActions n (fun _ => (noTimeoutInv_iff s).1 h) hn
  · exact ht
  · exact h

/-- Settles O51: an acceptance stands before an operation without `TIMEOUT`, and the controller, which gives up no wait, brings none. -/
theorem noTimeoutInvariant : Obligations.NoTimeoutInvariant := by
  intro s s' h hn
  obtain ⟨n, ts, -, hn⟩ | ⟨ms, w, -, hn⟩ | ⟨ms, ts, x, k, m, l, rfl⟩ := step_cases hn
  · exact runActions_noTimeout n (s := { s with turns := ts }) h hn
  · obtain ⟨hk, hst, -⟩ := h
    refine runActions_noTimeout _ ?_ hn
    exact (noTimeoutInv_iff _).2 ⟨hk, hst, noTimeout_operationOf s.cfg w⟩
  · exact h

end Sys2Proof.Machine
end

section
/-! Reset and hazards: the power-on values (R230), the idle block (R231), the refused commands (R245, R8), the configuration (R235), and the
controller's weak fairness (R261). -/

namespace Sys2Proof.Machine

/-! ### Reset, the idle block, refusals -/

/-- Settles O7: each value is a field of the reset state, and `CSR` is computed from them (R230). -/
theorem resetValues : Obligations.ResetValues := ⟨rfl, rfl, rfl, rfl, rfl, rfl, rfl, rfl, rfl⟩

/-- Settles O11: an idle block's step is the host's move, and the host makes none. -/
theorem idleWaits : Obligations.IdleWaits := by
  intro s hidle hh
  simp [step, hidle, hostTurn, hh]

/-- Settles O23: every command is an acceptance, which tests `BUSY` and then the configuration. -/
theorem commandsRefused : Obligations.CommandsRefused := by
  intro i s
  rw [exec_eq_accept]
  exact ⟨fun hb => by simp [accept, hb], fun hidle hwf => by simp [accept, hidle, hwf]⟩

/-! ### The configuration -/

/-- Settles O17: no action writes the configuration, and neither does an acceptance nor another move of the host. -/
theorem configurationFixed : Obligations.ConfigurationFixed := by
  intro s s' h
  obtain ⟨n, ts, -, hn⟩ | ⟨ms, w, -, hn⟩ | ⟨ms, ts, x, k, m, l, rfl⟩ := step_cases h
  · exact (runActions_fixed n hn).2.1
  · exact (runActions_fixed s.grant hn).2.1
  · rfl

/-! ### Fairness -/

/-- One action of a busy controller appends an event. -/
theorem controllerStep_trace {s t : State} (h : controllerStep s = .next t) : ∃ e, t.trace = s.trace ++ [e] := by
  obtain ⟨-, hf⟩ | ⟨ts, pre, a, rest, hp, -⟩ := controllerStep_cases s
  · simp [hf] at h
  · simpa using perform_trace (hp.symm.trans h)

/-- A turn of at least one action of a busy controller appends an event. -/
theorem runActions_acts (n : Nat) {s t : State} (hb : s.busy = true) (h : runActions (n + 1) s = .next t) :
    ∃ e es, t.trace = s.trace ++ e :: es := by
  cases hc : controllerStep s with
  | next u =>
    rw [runActions_next n hb hc] at h
    obtain ⟨e, he⟩ := controllerStep_trace hc
    obtain ⟨es, hes⟩ := runActions_trace n h
    exact ⟨e, es, by rw [hes, he, List.append_assoc, List.singleton_append]⟩
  | fault | refused => simp [runActions, hb, hc] at h

/-- A step of a busy block appends an event, or it spends an entry of `turns` and the block is still busy. -/
theorem step_acts_or_spends {s t : State} (hb : s.busy = true) (h : step s = .next t) :
    (∃ e es, t.trace = s.trace ++ e :: es) ∨ t.busy = true ∧ t.trace = s.trace ∧ s.turns.length = t.turns.length + 1 := by
  unfold step at h
  rw [if_pos hb] at h
  unfold busyTurn at h
  split at h
  · exact .inl (runActions_acts 0 hb h)
  · next n ts ht =>
    cases n with
    | zero => cases h; exact .inr ⟨hb, rfl, by rw [ht, List.length_cons]⟩
    | succ n => exact .inl (runActions_acts n (s := { s with turns := ts }) hb h)
  · next ts ht =>
    obtain ⟨ms, w, hidle, -⟩ | ⟨ms, x, k, m, l, rfl⟩ := hostTurn_cases h
    · exact absurd (hidle.symm.trans hb) nofun
    · exact .inr ⟨hb, rfl, by rw [ht, List.length_cons]⟩

/-- A run that is not stopped goes through its first step. -/
theorem run_succ {n : Nat} {s t : State} (h : Host.Core.run core (n + 1) s = .next t) :
    ∃ u, step s = .next u ∧ Host.Core.run core n u = .next t := by
  simp only [Host.Core.run] at h
  split at h
  · next u hu => exact ⟨u, hu, h⟩
  · cases h
  · cases h

/-- The trace only grows along a run. -/
theorem run_trace (n : Nat) {s t : State} (h : Host.Core.run core n s = .next t) : ∃ es, t.trace = s.trace ++ es := by
  induction n generalizing s with
  | zero => cases h; exact ⟨[], (List.append_nil _).symm⟩
  | succ n ih =>
    obtain ⟨u, hu, hrun⟩ := run_succ h
    obtain ⟨es, hes⟩ := traceOnlyGrows s u hu
    obtain ⟨es', hes'⟩ := ih hrun
    exact ⟨es ++ es', by rw [hes', hes, List.append_assoc]⟩

/-- Settles O54, by induction on the entries of `turns`: a step that appends no event spends one of them. -/
theorem controllerFairness : Obligations.ControllerFairness := by
  intro s t hb h
  generalize hk : s.turns.length = k at h
  induction k generalizing s with
  | zero =>
    obtain ⟨u, hu, hrun⟩ := run_succ h
    cases hrun
    obtain hacts | ⟨-, -, hlen⟩ := step_acts_or_spends hb hu
    · exact hacts
    · omega
  | succ k ih =>
    obtain ⟨u, hu, hrun⟩ := run_succ h
    obtain ⟨e, es, he⟩ | ⟨hb', htr, hlen⟩ := step_acts_or_spends hb hu
    · obtain ⟨es', hes'⟩ := run_trace _ hrun
      exact ⟨e, es ++ es', by rw [hes', he, List.append_assoc, List.cons_append]⟩
    · rw [← htr]
      exact ih u hb' (by omega) hrun

end Sys2Proof.Machine
end

section
/-! Termination (R261). An operation that is not ended after finitely many actions stands at an unbounded wait that the environment leaves
unanswered (`Terminates`): its loops are counted, its bounded waits are given up. Every lemma leads the places in front to those behind. -/

namespace Sys2Proof.Machine

/-! ### Runs of a silent host's block -/

/-- The host makes no move and no turns are given. -/
structure Silent (s : State) : Prop where
  host : s.host = []
  turns : s.turns = []

theorem Silent.reaches_iff {s t : State} (h : Silent s) : Reaches s t ↔ ∃ n, runActions n s = .next t := by
  simp only [runActions_eq_run _ h.host h.turns]
  rfl

theorem Silent.controllerStep {s t : State} (h : Silent s) (hn : controllerStep s = .next t) : Silent t := by
  obtain ⟨hh, ht⟩ := controllerStep_host_turns hn
  exact ⟨hh.trans h.host, ht.trans h.turns⟩

theorem Silent.runActions (n : Nat) {s t : State} (h : Silent s) (hn : runActions n s = .next t) : Silent t :=
  runActions_keeps (R := Silent) (fun _ _ hs => ⟨by simpa using hs.host, by simpa using hs.turns⟩)
    (fun _ hs ha => ⟨(perform_host_turns ha).1.trans hs.host, (perform_host_turns ha).2.trans hs.turns⟩) n h hn

/-- What is reached after an action is reached. -/
theorem Silent.reaches_of_action {s t u : State} (h : Silent s) (hb : s.busy = true) (hn : Machine.controllerStep s = .next t)
    (hr : Reaches t u) : Reaches s u := by
  obtain ⟨n, hn'⟩ := (h.controllerStep hn).reaches_iff.1 hr
  exact h.reaches_iff.2 ⟨n + 1, (runActions_next n hb hn).trans hn'⟩

/-- A run that ends goes through every busy state it reaches. -/
theorem Silent.ends_of_reaches {s t : State} (h : Silent s) (he : Ends s) (hr : Reaches s t) (hb : t.busy = true) : Ends t := by
  obtain ⟨u, hu, hidle⟩ := he
  obtain ⟨m, hm⟩ := h.reaches_iff.1 hu
  obtain ⟨n, hn⟩ := h.reaches_iff.1 hr
  obtain ⟨d, rfl⟩ | ⟨d, rfl⟩ : (∃ d, m = n + d) ∨ ∃ d, n = m + d := by
    obtain hle | hle := Nat.le_total n m
    · exact .inl ⟨m - n, by omega⟩
    · exact .inr ⟨n - m, by omega⟩
  · rw [runActions_add n d s t hn] at hm
    exact ⟨u, (h.runActions n hn).reaches_iff.2 ⟨d, hm⟩, hidle⟩
  · rw [runActions_add m d s u hm, runActions_idle d u hidle] at hn
    cases hn
    simp [hidle] at hb

/-! ### A sample of a wait -/

/-- A sample matches, and the wait is over; or it misses, is counted, and the wait stands again or is given up at the bound (R124, R204). -/
theorem perform_waitLine_cases (s : State) (l : SensedLine) (v : Level) (rest : Program) :
    ∃ t, perform s (.waitLine l v) rest = .next t ∧ t.busy = s.busy ∧
      (t.trace = s.trace ++ [.read l v] ∧ t.seq = rest ∨
        t.trace = s.trace ++ [.read l !v] ∧ t.pollcnt = s.pollcnt + 1 ∧
          t.seq = if boundReached s.cfg (s.pollcnt + 1) then abort s.chipSelect ++ rest else .act [] (.waitLine l v) :: rest) := by
  refine ⟨_, rfl, ?_⟩
  simp only [waitSample]
  split
  · next hv => exact ⟨readLine_busy s l, .inl ⟨by rw [goto_trace, readLine_trace, hv], rfl⟩⟩
  · next hv => exact ⟨readLine_busy s l, .inr ⟨by rw [goto_trace, ← Bool.eq_not.2 hv]; exact readLine_trace s l, rfl, rfl⟩⟩

theorem boundReached_unbounded {c : Config} (h : c.pollBound = none) (n : Nat) : boundReached c n = false := by
  simp [boundReached, h]

/-- The controller at an unbounded wait samples: the wait is answered, or it waits on. -/
theorem WaitsFor.sample {s : State} {l : SensedLine} {v : Level} (h : WaitsFor s l v) (hk : s.cfg.pollBound = none) :
    ∃ t, controllerStep s = .next t ∧ t.cfg = s.cfg ∧
      (t.trace = s.trace ++ [.read l v] ∨ t.trace = s.trace ++ [.read l !v] ∧ WaitsFor t l v) := by
  obtain ⟨hb, pre, rest, hseq⟩ := h
  obtain ⟨ts, hset⟩ : ∃ ts, settle s.seq s = (applyAll s ts).goto (.act pre (.waitLine l v) :: rest) := by
    obtain ⟨-, ts, hs⟩ | ⟨ts, pre', a, rest', hs, -⟩ := settle_cases s.seq s
    · simp [hs] at hseq
    · exact ⟨ts, by rw [hs] at hseq ⊢; rw [show Micro.act pre' a :: rest' = _ from hseq]⟩
  obtain ⟨t, ht, htb, hcases⟩ := perform_waitLine_cases (applyAll (applyAll s ts) pre) l v rest
  refine ⟨t, ?_, by simpa using (perform_fixed ht).1.2.1, ?_⟩
  · simp [controllerStep, hset, applyAll_goto, perform_goto, ht]
  · obtain ⟨htr, -⟩ | ⟨htr, -, hagain⟩ := hcases
    · exact .inl (by simpa using htr)
    · rw [boundReached_unbounded (by simpa using hk), if_neg (by decide)] at hagain
      exact .inr ⟨by simpa using htr, by simpa [hb] using htb, [], rest, by rw [hagain]; rfl⟩

theorem waitEvents_zero (l : SensedLine) (v : Level) : waitEvents l v 0 = [.read l v] := rfl

theorem waitEvents_succ (l : SensedLine) (v : Level) (p : Nat) : waitEvents l v (p + 1) = .read l (!v) :: waitEvents l v p := rfl

/-- A wait that is answered after a miss is answered. -/
theorem Answered.of_miss {s t : State} {l : SensedLine} {v : Level} (hs : Silent s) (hb : s.busy = true)
    (hn : controllerStep s = .next t) (htr : t.trace = s.trace ++ [.read l !v]) (h : Answered t l v) : Answered s l v := by
  obtain ⟨u, p, hr, hu⟩ := h
  exact ⟨u, p + 1, hs.reaches_of_action hb hn hr, by rw [hu, htr, waitEvents_succ, List.append_assoc, List.singleton_append]⟩

/-- An unbounded wait of an operation that ends is answered, by induction on the actions left. -/
theorem answered_of_ends {s : State} {l : SensedLine} {v : Level} (hs : Silent s) (hk : s.cfg.pollBound = none) (h : WaitsFor s l v)
    (he : Ends s) : Answered s l v := by
  obtain ⟨u, hu, hidle⟩ := he
  obtain ⟨n, hn⟩ := hs.reaches_iff.1 hu
  induction n generalizing s with
  | zero =>
    cases hn
    simp [h.1] at hidle
  | succ n ih =>
    obtain ⟨t, ht, hcfg, htr | ⟨htr, hw⟩⟩ := h.sample hk
    · exact ⟨t, 0, hs.reaches_iff.2 ⟨1, by rw [runActions_next 0 h.1 ht, runActions_zero]⟩, htr⟩
    · rw [runActions_next n h.1 ht] at hn
      have hst := hs.controllerStep ht
      exact .of_miss hs h.1 ht htr (ih hst (by rw [hcfg, hk]) hw (hst.reaches_iff.2 ⟨n, hn⟩) hn)

/-- Where the operation ends, its unbounded waits are all answered. -/
theorem Silent.answered {s t : State} {l : SensedLine} {v : Level} (hs : Silent s) (hk : s.cfg.pollBound = none) (he : Ends s)
    (hr : Reaches s t) (hw : WaitsFor t l v) : Answered t l v := by
  obtain ⟨n, hn⟩ := hs.reaches_iff.1 hr
  exact answered_of_ends (hs.runActions n hn) (by rw [(runActions_fixed n hn).2.1, hk]) hw (hs.ends_of_reaches he hr hw.1)

/-! ### Operations that end, or stand at an unanswered wait -/

/-- The controller stands at an unbounded wait for a low `DATA_IN` or on `DONE` that the environment does not answer. -/
def Stalled (s : State) : Prop :=
  s.cfg.pollBound = none ∧ ∃ l v, WaitsFor s l v ∧ (l = .dataIn → v = false) ∧ ¬ Answered s l v

/-- After some actions the operation is ended or stalled. -/
def Terminates (s : State) : Prop := ∃ n t, runActions (n + 1) s = .next t ∧ (t.busy = false ∨ Stalled t)

theorem Terminates.of_action {s t : State} (hb : s.busy = true) (hn : controllerStep s = .next t)
    (h : t.busy = false ∨ Stalled t ∨ Terminates t) : Terminates s := by
  rw [← or_assoc] at h
  obtain h | ⟨n, u, hn', hu⟩ := h
  · exact ⟨0, t, by rw [runActions_next 0 hb hn, runActions_zero], h⟩
  · exact ⟨n + 1, u, (runActions_next _ hb hn).trans hn', hu⟩

/-- States whose turns are the same terminate alike. -/
theorem Terminates.congr {s t : State} (h : Terminates t) (hs : ∀ n, runActions (n + 1) s = runActions (n + 1) t) : Terminates s := by
  obtain ⟨n, u, hn, hu⟩ := h
  exact ⟨n, u, (hs n).trans hn, hu⟩

/-- A busy block with a silent host that has left `HB` alone since the command. -/
structure Live (s : State) : Prop where
  busy : s.busy = true
  silent : Silent s
  stale : s.stale = []

theorem Live.applyAll {s : State} (h : Live s) (ts : List Transfer) : Live (applyAll s ts) :=
  ⟨by simpa using h.busy, ⟨by simpa using h.silent.host, by simpa using h.silent.turns⟩, by simpa using h.stale⟩

theorem Live.goto {s : State} (h : Live s) (p : Program) : Live (s.goto p) := ⟨h.busy, ⟨h.silent.host, h.silent.turns⟩, h.stale⟩

theorem perform_stale {s t : State} {a : Act} {rest : Program} (h : perform s a rest = .next t) : t.stale = s.stale := by
  cases a with
  | memRead => obtain ⟨d, k, rfl⟩ := perform_memRead h; rfl
  | waitLine => obtain ⟨k, q, rfl, -⟩ := perform_waitLine h; simp
  | setLine | driveBit | sampleBit | delay | testDone | memWrite | complete => cases h; simp [setLine]

theorem Live.perform {s t : State} {a : Act} {rest : Program} (h : Live s) (hn : perform s a rest = .next t) (hb : t.busy = true) :
    Live t :=
  ⟨hb, ⟨(perform_host_turns hn).1.trans h.silent.host, (perform_host_turns hn).2.trans h.silent.turns⟩, (perform_stale hn).trans h.stale⟩

/-- From `s` to `t` the registers that count the loops and `LEN` stay, and no byte of `HB` loses its value. -/
structure Preserves (s t : State) : Prop where
  cfg : t.cfg = s.cfg
  cnt : t.cnt = s.cnt
  idx : t.idx = s.idx
  len : t.len = s.len
  tblidx : t.tblidx = s.tblidx
  bandsel : t.bandsel = s.bandsel
  written : ∀ k, s.hb.read k ≠ none → t.hb.read k ≠ none

theorem Preserves.trans {s t u : State} (h : Preserves s t) (h' : Preserves t u) : Preserves s u :=
  ⟨h'.cfg.trans h.cfg, h'.cnt.trans h.cnt, h'.idx.trans h.idx, h'.len.trans h.len, h'.tblidx.trans h.tblidx,
    h'.bandsel.trans h.bandsel, fun k hk => h'.written k (h.written k hk)⟩

theorem Preserves.refl (s : State) : Preserves s s := ⟨rfl, rfl, rfl, rfl, rfl, rfl, fun _ => id⟩

/-- The register transfer writes none of these registers. -/
def Transfer.uncounted : Transfer → Bool
  | .setOpState _ | .loadHdr _ _ | .loadTx _ | .nextBit | .startPoll => true
  | _ => false

theorem apply_preserves (s : State) {t : Transfer} (h : t.uncounted = true) : Preserves s (t.apply s) := by
  cases t with
  | setOpState | loadHdr | loadTx | nextBit | startPoll => exact ⟨rfl, rfl, rfl, rfl, rfl, rfl, fun _ => id⟩
  | _ => cases h

theorem applyAll_preserves (s : State) (ts : List Transfer) (h : ts.all Transfer.uncounted = true) : Preserves s (applyAll s ts) := by
  induction ts generalizing s with
  | nil => exact .refl s
  | cons t ts ih =>
    obtain ⟨ht, hts⟩ := Bool.and_eq_true_iff.1 h
    exact (apply_preserves s ht).trans (ih (t.apply s) hts)

theorem Memory.written_write {m : Memory} (i : Nat) (v : Byte) {k : Nat} (h : m.read k ≠ none) : (m.write i v).read k ≠ none := by
  by_cases hk : k = i
  · rw [hk, Memory.read_write_same]; nofun
  · rwa [Memory.read_write_other m i k v hk]

/-- Actions write none of these registers, and `HB` only to give a byte a value. -/
theorem perform_preserves {s t : State} {a : Act} {rest : Program} (h : perform s a rest = .next t) : Preserves s t := by
  obtain ⟨⟨-, hcfg, -⟩, hcnt, hidx, hlen, -, -, htblidx, hbandsel⟩ := perform_fixed h
  refine ⟨hcfg, hcnt, hidx, hlen, htblidx, hbandsel, fun k hk => ?_⟩
  obtain hhb | ⟨-, hhb⟩ := perform_hb h
  · rwa [hhb]
  · rw [hhb]; exact Memory.written_write _ _ hk

/-! ### One place -/

section
variable {s : State} {pre : List Transfer} {rest : Program}

theorem terminates_transfers {a : Act} (hs : Live s) (h : Terminates ((applyAll s pre).goto (.act [] a :: rest))) :
    Terminates (s.goto (.act pre a :: rest)) :=
  h.congr fun n => runActions_transfers n s pre a rest hs.busy

theorem terminates_withTransfers {p : Program} (hs : Live s) (hp : ∃ pre a ms, p = .act pre a :: ms)
    (h : Terminates ((applyAll s pre).goto (p ++ rest))) : Terminates (s.goto (withTransfers pre p ++ rest)) :=
  h.congr fun n => runActions_withTransfers n s pre p rest hs.busy hp

theorem terminates_branch_transfers {b : Branch} (hs : Live s) (h : Terminates ((applyAll s pre).goto (.branch [] b :: rest))) :
    Terminates (s.goto (.branch pre b :: rest)) :=
  h.congr fun n => runActions_branch_transfers n s pre b rest hs.busy

/-- A choice leads to the places it puts in front. -/
theorem terminates_choice {b : Branch} (hs : Live s) (h : Terminates (s.goto (b.expand s ++ rest))) :
    Terminates (s.goto (.branch [] b :: rest)) := by
  refine h.congr fun n => ?_
  obtain ⟨hb, -⟩ | ⟨pre, a, ms, hb, -⟩ := expand_cases s b
  · rw [hb]; exact runActions_pass n s [] b rest hs.busy hb
  · exact runActions_expand_program n s b _ rest hs.busy rfl ⟨pre, a, ms, hb⟩

/-- An action leads to what it leaves. -/
theorem terminates_act {t : State} {a : Act} (hs : Live s) (hn : perform s a rest = .next t)
    (h : t.busy = false ∨ Stalled t ∨ Terminates t) : Terminates (s.goto (.act [] a :: rest)) :=
  .of_action hs.busy ((controllerStep_act s [] a rest).trans hn) h

theorem terminates_complete (hs : Live s) (c : Status) (r : ResultSrc) : Terminates (s.goto (.act pre (.complete c r) :: rest)) :=
  terminates_transfers hs (terminates_act (hs.applyAll pre) rfl (.inl rfl))

/-- An action that is always possible and takes one step. -/
def Act.steady : Act → Bool
  | .setLine _ _ | .driveBit | .sampleBit | .delay _ | .memWrite => true
  | _ => false

/-- A steady action goes on with the places behind it. -/
theorem perform_steady {a : Act} (ha : a.steady = true) (s : State) (rest : Program) :
    ∃ t, perform s a rest = .next t ∧ t.seq = rest ∧ t.busy = s.busy ∧ t.bitcnt = s.bitcnt := by
  cases a with
  | setLine l v => exact ⟨_, rfl, rfl, by simp [setLine], by simp [setLine]⟩
  | driveBit | delay | memWrite => exact ⟨_, rfl, rfl, rfl, rfl⟩
  | sampleBit => exact ⟨_, rfl, rfl, readLine_busy s _, readLine_bitcnt s _⟩
  | waitLine | testDone | memRead | complete => cases ha

theorem terminates_steady {a : Act} (hs : Live s) (ha : a.steady = true)
    (h : ∀ t, Live t → Preserves s t → t.bitcnt = s.bitcnt → Terminates (t.goto rest)) : Terminates (s.goto (.act [] a :: rest)) := by
  obtain ⟨t, hn, rfl, htb, hbit⟩ := perform_steady ha s rest
  exact terminates_act hs hn (.inr (.inr (h t (hs.perform hn (htb.trans hs.busy)) (perform_preserves hn) hbit)))

/-- A `MemRead` of a byte that holds a value is made (R82, R237). -/
theorem terminates_memRead (hs : Live s) (hm : s.hb.read s.idx.toNat ≠ none)
    (h : ∀ t, Live t → Preserves s t → Terminates (t.goto rest)) : Terminates (s.goto (.act [] .memRead :: rest)) := by
  obtain ⟨d, hd⟩ := Option.ne_none_iff_exists'.1 hm
  obtain ⟨t, hn, rfl, htb⟩ : ∃ t, perform s .memRead rest = .next t ∧ t.seq = rest ∧ t.busy = s.busy := by
    simp only [perform, memRead_quiet (heldBefore_quiet hs.stale _), hd, Option.map_some]
    exact ⟨_, rfl, rfl, rfl⟩
  exact terminates_act hs hn (.inr (.inr (h t (hs.perform hn (htb.trans hs.busy)) (perform_preserves hn))))

/-- The abort ends the operation (R204). -/
theorem terminates_abort (hs : Live s) (cs : Level) : Terminates (s.goto (abort cs ++ rest)) := by
  cases cs with
  | true => exact terminates_complete hs _ _
  | false => exact terminates_steady hs rfl fun t ht _ _ => terminates_complete ht _ _

/-! ### A wait -/

/-- A sample of a wait goes on behind it or gives it up; it is left to the case of a miss below the bound. -/
theorem terminates_sample {l : SensedLine} {v : Level} (hs : Live s) (h : ∀ t, Live t → Preserves s t → Terminates (t.goto rest))
    (hmiss : ∀ t, Live t → Preserves s t → perform s (.waitLine l v) rest = .next t → t.trace = s.trace ++ [.read l !v] →
      t.pollcnt = s.pollcnt + 1 → t.seq = .act [] (.waitLine l v) :: rest → boundReached s.cfg (s.pollcnt + 1) = false →
      Stalled t ∨ Terminates t) :
    Terminates (s.goto (.act [] (.waitLine l v) :: rest)) := by
  obtain ⟨t, hn, htb, hcases⟩ := perform_waitLine_cases s l v rest
  have ht := hs.perform hn (htb.trans hs.busy)
  have hp := perform_preserves hn
  refine terminates_act hs hn (.inr ?_)
  obtain ⟨-, hseq⟩ | ⟨htr, hcnt, hseq⟩ := hcases
  · subst hseq
    exact .inr (h t ht hp)
  · cases hb : boundReached s.cfg (s.pollcnt + 1) with
    | true =>
      rw [hb, if_pos rfl] at hseq
      rw [← goto_self t, hseq]
      exact .inr (terminates_abort ht _)
    | false =>
      rw [hb, if_neg (by decide)] at hseq
      exact hmiss t ht hp hn htr hcnt hseq hb

/-- A bounded wait is met or given up, by induction on the misses left (R124). -/
theorem terminates_wait_bounded {l : SensedLine} {v : Level} {k : Nat} (m : Nat) (hs : Live s) (hk : s.cfg.pollBound = some k)
    (hm : k ≤ s.pollcnt + m) (h : ∀ t, Live t → Preserves s t → Terminates (t.goto rest)) :
    Terminates (s.goto (.act [] (.waitLine l v) :: rest)) := by
  induction m generalizing s with
  | zero =>
    refine terminates_sample hs h fun t _ _ _ _ _ _ hb => absurd hb ?_
    simp [boundReached, hk]
    omega
  | succ m ih =>
    refine terminates_sample hs h fun t ht hp _ _ hcnt hseq _ => .inr ?_
    rw [← goto_self t, hseq]
    exact ih ht (by rw [hp.cfg, hk]) (by omega) fun u hu hpu => h u hu (hp.trans hpu)

/-- Where a sample misses, the wait's answer is still to come, one sample nearer. -/
theorem answered_after_miss {t u : State} {l : SensedLine} {v : Level} {p : Nat} (hs : Live s) (hn : controllerStep s = .next t)
    (htr : t.trace = s.trace ++ [.read l !v]) (hr : Reaches s u) (hu : u.trace = s.trace ++ waitEvents l v p) :
    ∃ q, p = q + 1 ∧ Reaches t u ∧ u.trace = t.trace ++ waitEvents l v q := by
  obtain ⟨n, hrun⟩ := hs.silent.reaches_iff.1 hr
  cases n with
  | zero =>
    cases hrun
    simp [waitEvents] at hu
  | succ n =>
    rw [runActions_next n hs.busy hn] at hrun
    obtain ⟨es, hes⟩ := runActions_trace n hrun
    have hp : waitEvents l v p = .read l (!v) :: es := by
      rw [hu, htr, List.append_assoc] at hes
      exact List.append_cancel_left hes
    cases p with
    | zero => simp [waitEvents_zero] at hp
    | succ q =>
      rw [waitEvents_succ, List.cons.injEq] at hp
      exact ⟨q, rfl, (hs.silent.controllerStep hn).reaches_iff.2 ⟨n, hrun⟩, by rw [hes, hp.2]⟩

/-- A wait that is answered is met, by induction on its misses. -/
theorem terminates_wait_answered {l : SensedLine} {v : Level} (p : Nat) {u : State} (hs : Live s)
    (hr : Reaches (s.goto (.act [] (.waitLine l v) :: rest)) u) (hu : u.trace = s.trace ++ waitEvents l v p)
    (h : ∀ t, Live t → Preserves s t → Terminates (t.goto rest)) : Terminates (s.goto (.act [] (.waitLine l v) :: rest)) := by
  induction p using Nat.strongRecOn generalizing s with
  | ind p ih =>
    refine terminates_sample hs h fun t ht hp hn htr _ hseq _ => .inr ?_
    obtain ⟨q, rfl, hr', hu'⟩ := answered_after_miss (hs.goto (.act [] (.waitLine l v) :: rest))
      ((controllerStep_act s [] _ rest).trans hn) htr hr hu
    rw [← goto_self t, hseq] at hr' ⊢
    exact ih q (Nat.lt_succ_self q) ht hr' hu' fun w hw hpw => h w hw (hp.trans hpw)

/-- A wait is met or given up, or the controller is stalled at it (R256, R257). -/
theorem terminates_wait {l : SensedLine} {v : Level} (hs : Live s) (hl : l = .dataIn → v = false)
    (h : ∀ t, Live t → Preserves s t → Terminates (t.goto rest)) : Terminates (s.goto (.act [] (.waitLine l v) :: rest)) := by
  cases hk : s.cfg.pollBound with
  | some k => exact terminates_wait_bounded k hs hk (by omega) h
  | none =>
    refine terminates_sample hs h fun t ht hp _ _ _ hseq _ => ?_
    by_cases ha : Answered t l v
    · obtain ⟨u, p, hr, hu⟩ := ha
      rw [← goto_self t, hseq] at hr ⊢
      exact .inr (terminates_wait_answered p ht hr hu fun w hw hpw => h w hw (hp.trans hpw))
    · exact .inl ⟨by rw [hp.cfg, hk], l, v, ⟨ht.busy, [], rest, by rw [hseq]; rfl⟩, hl, ha⟩

end

/-! ### Transfers and frames -/

section
variable {s : State} {rest : Program}

theorem terminates_steadies (as : List Act) (has : as.all Act.steady = true) (hs : Live s)
    (h : ∀ t, Live t → Preserves s t → t.bitcnt = s.bitcnt → Terminates (t.goto rest)) :
    Terminates (s.goto (as.map (.act []) ++ rest)) := by
  induction as generalizing s with
  | nil => exact h s hs (.refl s) rfl
  | cons a as ih =>
    obtain ⟨ha, has⟩ := Bool.and_eq_true_iff.1 has
    exact terminates_steady hs ha fun t ht hp hbit =>
      ih has ht fun u hu hpu hbitu => h u hu (hp.trans hpu) (hbitu.trans hbit)

/-- A bit, with the register transfers of its first action. -/
theorem terminates_bitStep {pre : List Transfer} (hs : Live s)
    (h : ∀ t, Live t → Preserves (applyAll s pre) t → t.bitcnt = (applyAll s pre).bitcnt →
      Terminates (t.goto (.branch [] .moreBits :: rest))) :
    Terminates (s.goto (bitStep pre ++ rest)) :=
  terminates_transfers hs <| terminates_steadies [.setLine .clock false, .driveBit, .delay .settle, .sampleBit, .delay .sample,
    .setLine .clock true, .delay .hold, .setLine .clock false] rfl (hs.applyAll pre) h

/-- The bits left in a transfer, by induction on `BITCNT` (R27, R126). -/
theorem terminates_moreBits (n : Nat) (hs : Live s) (hn : s.bitcnt.toNat = n)
    (h : ∀ t, Live t → Preserves s t → Terminates (t.goto rest)) : Terminates (s.goto (.branch [] .moreBits :: rest)) := by
  refine terminates_choice hs ?_
  simp only [Branch.expand]
  induction n generalizing s with
  | zero =>
    rw [if_pos (BitVec.eq_of_toNat_eq hn)]
    exact h s hs (.refl s)
  | succ n ih =>
    rw [if_neg fun h0 => by simp [h0] at hn]
    refine terminates_bitStep hs fun t ht hp hbit => terminates_choice ht (ih ht ?_ fun u hu hpu => h u hu ?_)
    · rw [hbit]
      show (s.bitcnt - 1#3).toNat = n
      rw [BitVec.toNat_sub]
      simp only [BitVec.toNat_ofNat]
      omega
    · exact (applyAll_preserves s [.nextBit] rfl).trans (hp.trans hpu)

/-- A transfer leaves the counters of the other loops (R126). -/
theorem terminates_xfer (src : ByteSrc) (hs : Live s) (h : ∀ t, Live t → Preserves s t → Terminates (t.goto rest)) :
    Terminates (s.goto (xfer src ++ rest)) :=
  terminates_bitStep hs fun _ ht hp _ => terminates_moreBits _ ht rfl fun u hu hpu =>
    h u hu ((applyAll_preserves s [.loadTx src] rfl).trans (hp.trans hpu))

/-- A frame begins with its ready wait (R141). -/
theorem terminates_frameBegin {pre : List Transfer} (hs : Live s)
    (h : ∀ t, Live t → Preserves (applyAll s pre) t → Terminates (t.goto rest)) : Terminates (s.goto (frameBegin pre ++ rest)) :=
  terminates_transfers hs <| terminates_steady (hs.applyAll pre) rfl fun t ht hp _ =>
    terminates_transfers ht <| terminates_wait (ht.applyAll _) (fun _ => rfl) fun u hu hpu =>
      h u hu (hp.trans ((applyAll_preserves t [.startPoll] rfl).trans hpu))

/-- A single write leaves the counters of the other loops (R145). -/
theorem terminates_wreg (a : Addr) (v : ByteSrc) (hs : Live s) (h : ∀ t, Live t → Preserves s t → Terminates (t.goto rest)) :
    Terminates (s.goto (wreg a v ++ rest)) := by
  simp only [wreg, frame, List.append_assoc]
  refine terminates_frameBegin hs fun t ht hp => terminates_xfer .hdr ht fun u hu hpu => terminates_xfer v hu fun w hw hpw =>
    terminates_steady hw rfl fun x hx hpx _ => h x hx ?_
  exact (applyAll_preserves s [.loadHdr a 0x00#8] rfl).trans (hp.trans (hpu.trans (hpw.trans hpx)))

/-! ### The counted loops -/

/-- The places end the operation, or stall, from every live state. -/
def Closes (p : Program) : Prop := ∀ s, Live s → Terminates (s.goto p)

/-- One byte of a burst, whichever its kind: the next index is then loaded (R147, R148). -/
theorem terminates_burstByte (k : Burst) (d : Byte) (hs : Live s) (hm : k = .outHb → s.hb.read s.idx.toNat ≠ none)
    (h : ∀ t, Live t → t.cnt = s.cnt → t.idx = s.idx + 1#8 → (∀ j, s.hb.read j ≠ none → t.hb.read j ≠ none) →
      Terminates (t.goto (.branch [] (.burst k) :: rest))) :
    Terminates (s.goto (burstByte k d ++ rest)) := by
  have hnext (pre : List Transfer) (hpre : pre = [.nextIndex] ∨ pre = [.drainFromRxb, .nextIndex]) (t : State) (ht : Live t)
      (hp : Preserves s t) : Terminates (t.goto (.branch pre (.burst k) :: rest)) := by
    refine terminates_branch_transfers ht (h _ (ht.applyAll pre) ?_ ?_ (by simpa using hp.written))
    · obtain rfl | rfl := hpre <;> exact hp.cnt
    · obtain rfl | rfl := hpre <;> exact congrArg (· + 1#8) hp.idx
  cases k with
  | outHb =>
    simp only [burstByte, List.cons_append, List.append_assoc]
    exact terminates_memRead hs (hm rfl) fun t ht hp =>
      terminates_xfer .txb ht fun u hu hpu => hnext _ (.inl rfl) u hu (hp.trans hpu)
  | outPa =>
    rw [burstByte, List.append_assoc]
    exact terminates_xfer _ hs (hnext _ (.inl rfl))
  | inHb =>
    rw [burstByte, List.append_assoc]
    exact terminates_xfer _ hs fun t ht hp => terminates_steady ht rfl fun u hu hpu _ => hnext _ (.inl rfl) u hu (hp.trans hpu)
  | inDrain =>
    rw [burstByte, List.append_assoc]
    exact terminates_xfer _ hs (hnext _ (.inr rfl))

/-- A burst, by induction on the bytes left; one from `HB` needs the bytes it sends written (R147, R148, R237). -/
theorem terminates_burst (k : Burst) (n : Nat) (hrest : Closes rest) (hs : Live s) (hn : s.cnt.toNat - s.idx.toNat = n)
    (hm : k = .outHb → ∀ j, j < s.cnt.toNat → s.hb.read j ≠ none) : Terminates (s.goto (.branch [] (.burst k) :: rest)) := by
  induction n generalizing s with
  | zero =>
    refine terminates_choice hs ?_
    simp only [Branch.expand]
    rw [if_neg (by omega)]
    exact hrest s hs
  | succ n ih =>
    have hlt : s.idx.toNat < s.cnt.toNat := by omega
    refine terminates_choice hs ?_
    simp only [Branch.expand]
    rw [if_pos hlt]
    split
    · next d _ =>
      refine terminates_burstByte k d hs (fun hk => hm hk _ hlt) fun t ht hcnt hidx hw => ih ht ?_ fun hk j hj => ?_
      · have := s.cnt.isLt
        rw [hcnt, hidx, BitVec.toNat_add, BitVec.toNat_ofNat]
        omega
      · exact hw j (hm hk j (hcnt ▸ hj))
    · exact hrest s hs

/-- The walk of a table, by induction on the pairs left (R165). -/
theorem terminates_table (t : Table) (n : Nat) (hrest : Closes rest) (hs : Live s) (hn : (t.pairs s).length - s.tblidx = n) :
    Terminates (s.goto (.branch [] (.table t) :: rest)) := by
  induction n using Nat.strongRecOn generalizing s with
  | ind n ih =>
    refine terminates_choice hs ?_
    simp only [Branch.expand]
    split
    · next a v hv =>
      have hlt : s.tblidx < (t.pairs s).length := (List.getElem?_eq_some_iff.1 hv).1
      rw [List.append_assoc]
      refine terminates_wreg a _ hs fun u hu hp => terminates_branch_transfers hu (ih (n - 1) (by omega) (hu.applyAll _) ?_)
      have hpairs : t.pairs (applyAll u [.nextEntry]) = t.pairs s := by
        cases t with
        | pre => exact congrArg Config.cfgPre hp.cfg
        | band => exact congrArg₂ bandWrites hp.cfg hp.bandsel
        | post => exact congrArg Config.cfgPost hp.cfg
      have hidx : (applyAll u [.nextEntry]).tblidx = s.tblidx + 1 := congrArg (· + 1) hp.tblidx
      rw [hpairs, hidx]
      omega
    · exact hrest s hs

end

/-! ### Programs -/

theorem closes_complete (pre : List Transfer) (c : Status) (r : ResultSrc) (rest : Program) :
    Closes (.act pre (.complete c r) :: rest) := fun _ hs => terminates_complete hs c r

/-- From every live state the place goes on to those behind it, ends the operation, or stalls; the places of which that holds only in some
states, or behind which others come, are treated apart: `MemRead`, the burst from `HB`, CHKRX's sample and RECV's count test. -/
def Micro.regular : Micro → Bool
  | .act _ (.waitLine .dataIn v) => !v
  | .act _ (.waitLine .done _) => true
  | .act _ (.complete _ _) => true
  | .act _ a => a.steady
  | .branch _ (.burst .outHb) | .branch _ .received => false
  | .branch _ _ => true

/-- A regular action goes on with the places behind it, or the wait it samples stalls. -/
theorem Closes.act {pre : List Transfer} {a : Act} {rest : Program} (hm : (Micro.act pre a).regular = true) (h : Closes rest) :
    Closes (.act pre a :: rest) := by
  refine fun s hs => terminates_transfers hs ?_
  have hu := hs.applyAll pre
  cases a with
  | setLine | driveBit | sampleBit | delay | memWrite => exact terminates_steady hu rfl fun t ht _ _ => h t ht
  | waitLine l v =>
    refine terminates_wait hu (fun hl => ?_) fun t ht _ => h t ht
    subst hl
    simpa [Micro.regular] using hm
  | complete c r => exact terminates_complete hu c r
  | testDone | memRead => cases hm

/-- A regular choice is a loop that ends. -/
theorem Closes.branch {pre : List Transfer} {b : Branch} {rest : Program} (hm : (Micro.branch pre b).regular = true) (h : Closes rest) :
    Closes (.branch pre b :: rest) := by
  refine fun s hs => terminates_branch_transfers hs ?_
  have hu := hs.applyAll pre
  cases b with
  | moreBits => exact terminates_moreBits _ hu rfl fun t ht _ => h t ht
  | burst k => exact terminates_burst k _ h hu rfl fun hk => by subst hk; cases hm
  | table t => exact terminates_table t _ h hu rfl
  | received => cases hm

theorem Closes.append {p q : Program} (hp : p.all Micro.regular = true) (hq : Closes q) : Closes (p ++ q) := by
  induction p with
  | nil => exact hq
  | cons m p ih =>
    obtain ⟨hm, hrest⟩ := Bool.and_eq_true_iff.1 hp
    cases m with
    | act pre a => exact .act hm (ih hrest)
    | branch pre b => exact .branch hm (ih hrest)

/-! ### Operations -/

theorem closes_completes {p : Program} (hp : p.all Micro.regular = true) (r : ResultSrc) : Closes (p ++ completeOk r) :=
  .append hp (closes_complete [] .ok r [])

theorem closes_checked (a : Byte) {p : Addr → Program} (r : ResultSrc) (h : ∀ k, (p k).all Micro.regular = true) :
    Closes (checked a fun k => p k ++ completeOk r) := by
  unfold checked
  split
  · exact closes_complete [] _ _ []
  · exact closes_completes (h _) r

/-- CHKRX ends after its one sample or waits for the fall of `DONE` (R183, R185). -/
theorem closes_chkrxOp : Closes chkrxOp := by
  have htail (high : Level) : Closes (chkrxTail high ++ []) := by
    rw [List.append_nil]
    cases high with
    | true => exact closes_completes (p := waitLine .done false) rfl _
    | false => exact closes_complete [] _ _ []
  intro s hs
  obtain ⟨t, high, hn, htb, hseq⟩ : ∃ t high, perform s .testDone [] = .next t ∧ t.busy = s.busy ∧ t.seq = chkrxTail high ++ [] :=
    ⟨_, _, rfl, readLine_busy s _, rfl⟩
  refine terminates_act hs hn (.inr (.inr ?_))
  rw [← goto_self t, hseq]
  exact htail high t (hs.perform hn (htb.trans hs.busy))

/-- RECV ends behind both outcomes of its count test (R186). -/
theorem closes_recvOp (c : Config) : Closes (recvOp c) := by
  refine .append rfl fun s hs => terminates_branch_transfers hs (terminates_choice (hs.applyAll _) ?_)
  have htail (c : Config) (queued : Bool) : Closes (recvTail c queued ++ []) := by
    rw [List.append_nil]
    cases queued with
    | true => exact closes_completes rfl .len
    | false => exact closes_completes rfl (.imm 0x00#8)
  exact htail _ _ _ (hs.applyAll _)

/-- A burst from `HB` whose bytes are written goes on (R147). -/
theorem terminates_wburstHb {s : State} {rest : Program} (a : Addr) (c : CountSrc) (hs : Live s)
    (hm : ∀ j, j < (c.eval s).toNat → s.hb.read j ≠ none) (hrest : Closes rest) : Terminates (s.goto (wburst a .outHb c ++ rest)) := by
  simp only [wburst, frame, List.append_assoc]
  refine terminates_frameBegin hs fun t ht hp => terminates_xfer .hdr ht fun u hu hpu => ?_
  have hcnt : u.cnt = c.eval s := hpu.cnt.trans (hp.cnt.trans (by cases c <;> rfl))
  refine terminates_burst .outHb _ (.append (p := frameEnd) rfl hrest) hu rfl fun _ j hj => ?_
  exact hpu.written j (hp.written j (by simpa using hm j (hcnt ▸ hj)))

theorem terminates_wburstOp {s : State} (a n : Byte) (hs : Live s)
    (hm : ∀ k, k < bytesSent (.wburst a n) → s.hb.read k ≠ none) : Terminates (s.goto (wburstOp a n)) := by
  unfold wburstOp checked
  cases ha : badAddr a with
  | true => exact terminates_complete hs _ _
  | false =>
    simp only [bytesSent, ha, Bool.false_eq_true, if_false] at hm
    exact terminates_wburstHb _ (.imm n) hs hm (closes_complete [] _ _ [])

/-- SEND: `LEN` is still the operand when the payload is sent (R177). -/
theorem terminates_sendOp {s : State} (c : Config) (xa n : Byte) (hs : Live s)
    (hm : ∀ k, k < bytesSent (.send xa n) → s.hb.read k ≠ none) : Terminates (s.goto (sendOp c n)) := by
  cases hn : lengthRejected n with
  | true =>
    rw [sendOp, if_pos hn]
    exact terminates_complete hs _ _
  | false =>
    simp only [bytesSent, hn, Bool.false_eq_true, if_false] at hm
    rw [sendOp_of_le (by simpa [lengthRejected, maxPkt] using hn)]
    refine terminates_withTransfers hs ⟨_, _, _, rfl⟩ (terminates_wreg _ _ (hs.applyAll _) fun t ht hp => ?_)
    refine terminates_wburstHb _ .len ht (fun j hj => hp.written j ?_) ?_
    · have hlen : t.len = n := hp.len
      exact hm j (hlen ▸ hj)
    · simp only [sendFromStart, sendFromRise, sendFromFlush]
      exact .append rfl (.append rfl (.append rfl (closes_completes rfl _)))

/-- The operation of every command, its bytes to send written, ends or stalls. -/
theorem terminates_operation {s : State} (c : Config) (i : Instr) (hs : Live s)
    (hm : ∀ k, k < bytesSent i → s.hb.read k ≠ none) : Terminates (s.goto (operation c i)) := by
  cases i with
  | wburst a n => exact terminates_wburstOp a n hs hm
  | send xa n => exact terminates_sendOp c xa n hs hm
  | wreg | rreg | rburst | strobe | rstat =>
    simp only [operation, wregOp, rregOp, rburstOp, strobeOp, rstatOp]
    exact closes_checked _ _ (fun _ => rfl) s hs
  | xfer | reset | setrx | configure => exact closes_completes rfl _ s hs
  | chkrx => exact closes_chkrxOp s hs
  | recv => exact closes_recvOp c s hs

/-- Settles O55: the operation ends or is stalled at an unbounded wait, which the environment's two promises exclude, and a bound too; and
an operation that ends has had all its unbounded waits answered. -/
theorem termination : Obligations.Termination := by
  intro i s t hacc hh ht hm hn
  rw [exec_of_accepts i hacc, State.grant, ht, runActions_zero] at hn
  cases hn
  have hs : Live (accepted s (encode i) (operation s.cfg i)) := ⟨rfl, ⟨hh, by simp [State.turnsAfter, ht]⟩, rfl⟩
  obtain ⟨n, u, hu, hend⟩ := terminates_operation (s := accepted s (encode i) (operation s.cfg i)) s.cfg i hs hm
  have hr : Reaches (accepted s (encode i) (operation s.cfg i)) u := hs.silent.reaches_iff.2 ⟨n + 1, hu⟩
  have hcfg : u.cfg = s.cfg := (runActions_fixed _ hu).2.1
  refine ⟨fun hk => ⟨fun he => ⟨fun _ => hs.silent.answered hk he, fun _ _ => hs.silent.answered hk he⟩, fun ⟨hready, hdone⟩ => ?_⟩,
    fun hk => ?_⟩
  · obtain hidle | ⟨-, l, v, hwait, hv, hno⟩ := hend
    · exact ⟨u, hr, hidle⟩
    · cases l with
      | dataIn => cases hv rfl; exact absurd (hready u hr hwait) hno
      | done => exact absurd (hdone u v hr hwait) hno
  · obtain hidle | ⟨hnone, -⟩ := hend
    · exact ⟨u, hr, hidle⟩
    · exact absurd (hcfg ▸ hnone) hk

end Sys2Proof.Machine
end
